-- ==== Sys2Proof/Word.lean ====
section
/-! DEFINITION. The word types of the block (00_scope.md R10): bytes, the scalar widths the spec uses, whole packets. -/

namespace Sys2Proof

/-- A byte, the addressable unit of buffer space (20_memory.md R60). -/
abbrev Byte := BitVec 8

/-- A 16-bit value: tag, CRC register, host command word. -/
abbrev Word16 := BitVec 16

/-- A 32-bit value; the rules read it as two's complement `s32` unless they say otherwise. -/
abbrev Word32 := BitVec 32

/-- A 64-bit value: one timing or format parameter (10_state.md R24). -/
abbrev Word64 := BitVec 64

/-- A 16-bit key code sent to the sink (00_scope.md R14). -/
abbrev Key := BitVec 16

/-- A packet: exactly 256 bytes, byte 0 first (30_encoding.md R91). -/
abbrev Packet := Vector Byte 256

end Sys2Proof
end

