-- ==== Sys2Proof/Config.lean ====
section
/-! DEFINITION. The parameters of 00_scope.md R7 with the constant tables of 10_state.md R22, their default set, and the
free values. Constants of R6 stand as literals where the rules use them. -/

namespace Sys2Proof

/-- The three known packet tags (30_encoding.md R92); required pairwise distinct (41_codec.md R171). -/
structure Tags where
  keyboard : Word16
  touchpad : Word16
  nothing  : Word16
  deriving DecidableEq, Repr

/-- `SCANCODE_TABLE[0..N_SCAN-1]` (42_keyboard.md R202). `1 <= N_SCAN <= 256` holds by construction: `last` is
`N_SCAN - 1`. Entries at or above `N_SCAN` are no entries of the table and no operation reads them. -/
structure ScanTable where
  last  : BitVec 8
  entry : Vector Key 256
  deriving DecidableEq, Repr

/-- One entry of `FN_TABLE` (42_keyboard.md R204); the field `source` is the rule's `from`. -/
structure FnEntry where
  source : Key
  target : Key
  fkey   : Bool
  deriving DecidableEq, Repr

/-- One entry of `ISO_TABLE` (42_keyboard.md R204); the field `source` is the rule's `from`. -/
structure IsoEntry where
  source : Key
  target : Key
  deriving DecidableEq, Repr

/-- Offsets inside a finger record, `FO_<field>` (30_encoding.md R101), `FO_ORIGIN` among them (log entry 35). -/
structure FingerOffsets where
  origin      : Nat
  absX        : Nat
  absY        : Nat
  relX        : Nat
  relY        : Nat
  toolMajor   : Nat
  toolMinor   : Nat
  orientation : Nat
  touchMajor  : Nat
  touchMinor  : Nat
  pressure    : Nat
  deriving DecidableEq, Repr

/-- The parameters the spec leaves open (00_scope.md R7) and the constant tables (10_state.md R22). Plain data, an
argument of the step relation (R20), held in an immutable field of `State` (log entry 4). `cfgKeys` is `CFG_KEYS[0..7]`, which no
operation reads: the keys do not travel on the command port (30_encoding.md R102). `T_CS_TOGGLE` and the time units enter no rule
and are left out (R7, R5, U28; log entry 24); `ARB_POLICY` is `Config.arbReadFirst`. -/
structure Params where
  tags           : Tags
  crcPoly        : Word16
  ledTemplate    : Packet
  initPackets    : List Packet
  kbdOffCounter  : Nat
  kbdOffMods     : Nat
  kbdOffKeys     : Nat
  kbdOffFn       : Nat
  tpOffNFingers  : Fin 256
  tpOffClick     : Nat
  tpOffFingers   : Nat
  fingerStride   : Nat
  fo             : FingerOffsets
  scan           : ScanTable
  modCodes       : Vector Key 8
  fnTable        : List FnEntry
  isoTable       : List IsoEntry
  keyFn          : Key
  maxOrientation : Word32
  cfgKeys        : Vector String 8
  traceUnknown   : Bool
  deriving DecidableEq, Repr

namespace Config

/-! OPEN parameters (R7, D13, D17, D20): no byte of them is in the spec, so each is a constant without a value
(log entry 6). -/

/-- `LED_TEMPLATE` (30_encoding.md R96). -/
opaque ledTemplate : Packet

/-- `INIT_PACKETS` (30_encoding.md R99), `N_INIT` being its length. -/
opaque initPackets : List Packet

/-- `N_SCAN - 1` (42_keyboard.md R202). -/
opaque scanLast : BitVec 8

/-- The entries of `SCANCODE_TABLE` (42_keyboard.md R202). -/
opaque scanEntries : Vector Key 256

/-- `FN_TABLE` without the one entry that R204 recovers. -/
opaque fnTableRest : List FnEntry

/-- `TP_OFF_NFINGERS` (30_encoding.md R100); at most 255 by R76. -/
opaque tpOffNFingers : Fin 256

/-! Free values: nothing constrains them and no proof can see one. Each is applied to the counter `State.draws`. -/

/-- Byte `i` of the unspecified contents of a buffer after a failed transfer, `draw(n bytes)` of 40_transport.md R139,
R140, R142 (log entry 10). -/
opaque freeByte : Nat → Nat → Byte

/-- `ARB_POLICY` when a read and a write are both pending (40_transport.md R137, 93 U18): true starts the read first
(log entry 11). -/
opaque arbReadFirst : Nat → Bool

/-- The scancode table's key for a scancode outside `1..N_SCAN-1`, which 42_keyboard.md R205 leaves to its callers
(log entry 17). -/
opaque freeKey : Nat → Key

/-- Symbolic key codes of 42_keyboard.md R204 (PRESUMED, log entry 5). -/
def keyGrave : Key := 41
/-- `KEY_F1` (R204; PRESUMED, log entry 5). -/
def keyF1 : Key := 59
/-- `KEY_102ND` (R204; PRESUMED, log entry 5). -/
def key102nd : Key := 86
/-- `KEY_BRIGHTNESSDOWN` (R204; PRESUMED, log entry 5). -/
def keyBrightnessDown : Key := 224
/-- `KEY_FN` (R204; PRESUMED, log entry 5). -/
def keyFn : Key := 464

/-- The tag values of 30_encoding.md R92 (PRESUMED, log entry 5). -/
def tags : Tags := { keyboard := 0x0120, touchpad := 0x0220, nothing := 0xD040 }

/-- The finger record of 30_encoding.md R101 (PRESUMED, log entry 5). -/
def fingerOffsets : FingerOffsets :=
  { origin := 0, absX := 2, absY := 4, relX := 6, relY := 8, toolMajor := 10, toolMinor := 12, orientation := 14,
    touchMajor := 16, touchMinor := 18, pressure := 24 }

/-- `CFG_KEYS[0..7]`, the configuration keys in CSR order (10_state.md R24). -/
def cfgKeys : Vector String 8 :=
  #v["spi_sclk_period", "spi_word_size", "spi_bit_order", "spi_spo", "spi_sph", "spi_cs_delay", "reset_a2r_usec",
     "reset_rec_usec"]

/-- The parameter set of the machine after reset: the defaults of R7 (PRESUMED, log entry 5), the OPEN constants above
(log entry 6), and the table entries that 42_keyboard.md R204 recovers from the document. -/
def params : Params :=
  { tags := tags
    crcPoly := 0xA001
    ledTemplate := ledTemplate
    initPackets := initPackets
    kbdOffCounter := 11
    kbdOffMods := 17
    kbdOffKeys := 19
    kbdOffFn := 25
    tpOffNFingers := tpOffNFingers
    tpOffClick := 17
    tpOffFingers := 64
    fingerStride := 30
    fo := fingerOffsets
    scan := { last := scanLast, entry := scanEntries }
    modCodes := #v[29, 42, 56, 125, 97, 54, 100, 126]
    fnTable := { source := keyF1, target := keyBrightnessDown, fkey := true } :: fnTableRest
    isoTable := [{ source := keyGrave, target := key102nd }, { source := key102nd, target := keyGrave }]
    keyFn := keyFn
    maxOrientation := 16384
    cfgKeys := cfgKeys
    traceUnknown := false }

/-- What a byte of a buffer that nothing has written reads as (DESIGN CHOICE, log entry 8): 10_state.md R50 calls the
contents after reset unspecified. -/
def unlistedByte : Byte := 0

end Config

end Sys2Proof
end

