-- ==== Sys2Proof/Syntax.lean ====
section
/-! DEFINITION. The operands of the operations and the one inductive of all rows of spec/opcode_table.json. -/

namespace Sys2Proof

/-- One entry of `CFGREC` (30_encoding.md R102): a presence byte and a 64-bit value. -/
structure CfgEntry where
  present : Byte
  value   : Word64
  deriving DecidableEq, Repr

/-- The decoded view of a Keyboard packet (41_codec.md R172). -/
structure KeyboardFrame where
  counter   : Byte
  modifiers : Byte
  keys      : Vector Byte 6
  fn        : Bool
  deriving DecidableEq, Repr

/-- One finger record, each field widened to s32 (30_encoding.md R101, 41_codec.md R173); `origin` is decoded and no operation
reads it (43_touch.md R231; log entry 35). -/
structure FingerRec where
  origin      : Word32
  absX        : Word32
  absY        : Word32
  relX        : Word32
  relY        : Word32
  toolMajor   : Word32
  toolMinor   : Word32
  orientation : Word32
  touchMajor  : Word32
  touchMinor  : Word32
  pressure    : Word32
  deriving DecidableEq, Repr

/-- The decoded view of a Touchpad packet (41_codec.md R173). -/
structure TouchpadFrame where
  nFingers : Byte
  click    : Bool
  fingers  : Vector FingerRec 6
  deriving DecidableEq, Repr

/-- A transformed finger position (43_touch.md R233). -/
structure Pos where
  x : Word32
  y : Word32
  deriving DecidableEq, Repr, Inhabited

/-- One present finger as `TP_EMIT` sees it (43_touch.md R237): `cur[q]`, `pos[q]`, `slot_of[q]`. -/
structure TouchEntry where
  finger : Fin 6
  pos    : Pos
  slot   : Fin 6
  deriving DecidableEq, Repr

/-- The outcome of an exchange (40_transport.md R143). -/
inductive XferOutcome where
  | ok
  | failTransport
  | failProtocol
  deriving DecidableEq, Repr

/-- The operations and formats of spec/opcode_table.json, one constructor per row, in the table's order. An operand is
what the row's rule names under "Operands"; an operation whose operand is always a buffer has none here. -/
inductive Instr where
  /-- `NOP`, R280. -/
  | nop
  /-- `CFG_LOAD`, R281. -/
  | cfgLoad (entries : Vector CfgEntry 8)
  /-- `INIT`, R283. -/
  | init
  /-- `SHUTDOWN`, R288. -/
  | shutdown
  /-- `SET_TUNABLES`, R282. -/
  | setTunables (fnmode : BitVec 2) (iso : Bool)
  /-- `SET_CAL`, R289. -/
  | setCal (xMin xMax yMin yMax : Word32)
  /-- `WTR`, R145. -/
  | wtr (tx : Packet)
  /-- `RD`, R146. -/
  | rd
  /-- `LED_REQUEST`, R260. -/
  | ledRequest (on : Bool)
  /-- `GPE`, R284. -/
  | gpe
  /-- `RD_COMPLETE`, R286. -/
  | rdComplete (o : XferOutcome)
  /-- `DISPATCH` of `rx_buf`, R287. -/
  | dispatch
  /-- `RDA`, R147. -/
  | rda
  /-- `WTRA`, R148. -/
  | wtra
  /-- `STATUS_CHECK` of `tx_status`, R144. -/
  | statusCheck
  /-- `T_START`, R137. -/
  | tStart
  /-- `T_XFER`, R138 to R142. -/
  | tXfer
  /-- `T_COMPLETE`, R143. -/
  | tComplete
  /-- `CLASSIFY` of `rx_buf`, R171. -/
  | classify
  /-- `DECODE_KBD` of `rx_buf`, R172. -/
  | decodeKbd
  /-- `DECODE_TP` of `rx_buf`, R173. -/
  | decodeTp
  /-- `CRC16` of a byte sequence, R176. -/
  | crc16 (d : List Byte)
  /-- `CRC_CHECK` of `tx_buf`, R178 and R46. -/
  | crcCheck
  /-- `BUILD_LED`, R177. -/
  | buildLed (sequence : Byte) (on : Bool)
  /-- `KBD_APPLY`, R207. -/
  | kbdApply (f : KeyboardFrame)
  /-- `CODE_TO_KEY`, R205. -/
  | codeToKey (code : Byte) (fn : Bool)
  /-- `TP_APPLY`, R230. -/
  | tpApply (f : TouchpadFrame)
  /-- `TP_FILTER`, R232. -/
  | tpFilter (f : TouchpadFrame)
  /-- `TP_XFORM`, R233. -/
  | tpXform (f : FingerRec)
  /-- `TP_ASSIGN`, R235. -/
  | tpAssign (pos : List Pos)
  /-- `TP_EMIT`, R237. `released` is the set of released slots. -/
  | tpEmit (f : TouchpadFrame) (entries : List TouchEntry) (released : Vector Bool 6)
  /-- `LED_SEND`, R262. -/
  | ledSend
  /-- `LED_COMPLETE`, R264. -/
  | ledComplete (o : XferOutcome)
  /-- A packet with the keyboard tag, R97. -/
  | pktKeyboard (payload : Vector Byte 254)
  /-- A packet with the touchpad tag, R100. -/
  | pktTouchpad (payload : Vector Byte 254)
  /-- A packet with the nothing tag, R93. -/
  | pktNothing (payload : Vector Byte 254)
  /-- The accepted write status, R95. -/
  | statusAccept
  /-- The value byte of the LED command, R96. -/
  | ledcmdVal (on : Bool)
  deriving DecidableEq, Repr

end Sys2Proof
end

