-- ==== Sys2Proof/Decode.lean ====
section
/-! DEFINITION. Byte-order helpers, the decoder of the five formats of 30_encoding.md R90 that reach the model as words, and the
encoder. Decoding is total and rejects by name. The three ports keep apart what the spec keeps apart: a host word is
never an internal operation (R280), a packet tag is never a host word. -/

namespace Sys2Proof

/-! ## Byte order (20_memory.md R61 to R63) -/

/-- The little-endian value of a byte sequence, lowest index least significant (R61). -/
def leNat : List Byte → Nat
  | [] => 0
  | b :: t => b.toNat + 256 * leNat t

/-- The `n` low bytes of `v`, least significant first (R62). -/
def leBytes : Nat → Nat → List Byte
  | 0, _ => []
  | n + 1, v => BitVec.ofNat 8 v :: leBytes n (v / 256)

/-- Byte `k` of an item's bytes; a byte that was not supplied is zero (log entry 21). -/
def byteAt (bs : List Byte) (k : Nat) : Byte := bs.getD k 0

/-- The `n` bytes from `off` on, absent ones zero (log entry 21). -/
def slice (bs : List Byte) (off n : Nat) : List Byte := (bs.drop off ++ List.replicate n 0).take n

/-- The `n`-byte little-endian field at `off`, as a `w`-bit value. -/
def wordAt (w : Nat) (bs : List Byte) (off n : Nat) : BitVec w := BitVec.ofNat w (leNat (slice bs off n))

/-- The `n` bytes from `off` on as an array of that length. -/
def bytesAt (bs : List Byte) (off n : Nat) : Vector Byte n := ⟨(slice bs off n).toArray, by simp [slice]⟩

/-- A boolean operand: zero is false, any other byte is true (30_encoding.md R103). -/
def boolOf (b : Byte) : Bool := b != 0

/-- The byte of a boolean operand. -/
def byteOfBool (b : Bool) : Byte := if b then 1 else 0

/-! ## Ports and rejections -/

/-- Where an encoded item arrives: the format of its row in spec/opcode_table.json. -/
inductive Port where
  /-- The host command port, format `HOST16` (30_encoding.md R104). -/
  | host
  /-- An internal operation by its number, format `OP8` (R105). -/
  | op
  /-- A packet, format `PKT` (R91). -/
  | packet
  /-- A write status, format `STATUS32` (R95). -/
  | status
  /-- The value byte of the LED command, format `LEDVAL8` (R96). -/
  | ledVal
  deriving DecidableEq, Repr

/-- Why an item decodes to no instruction (30_encoding.md R106). -/
inductive Reject where
  /-- A host `op` outside R104's table, or an undefined argument bit (R106 (5)). -/
  | usage (op : Byte)
  /-- A number that names no internal operation (R105). -/
  | unknownOperation (op : Byte)
  /-- The operand bytes of an internal operation are outside the model's own operand encoding (log entry 15). -/
  | badOperands (op : Byte)
  /-- A tag that is none of the three known ones (R94, R106 (1)). -/
  | unknownTag (tag : Word16)
  /-- A write status other than the accepted pattern (R95, R106 (2)). -/
  | statusMismatch (s : List Byte)
  /-- An LED value byte other than 0 and 2 (R106 (3)). -/
  | ledValue (v : Byte)
  deriving DecidableEq, Repr

/-! ## Host commands (30_encoding.md R104) -/

/-- `CFGREC`: eight entries of a presence byte and an 8-byte value (R102). -/
def decodeCfgEntry (bs : List Byte) (off : Nat) : CfgEntry :=
  { present := byteAt bs off, value := wordAt 64 bs (off + 1) 8 }

def decodeCfg (bs : List Byte) : Vector CfgEntry 8 :=
  #v[decodeCfgEntry bs 2, decodeCfgEntry bs 11, decodeCfgEntry bs 20, decodeCfgEntry bs 29,
     decodeCfgEntry bs 38, decodeCfgEntry bs 47, decodeCfgEntry bs 56, decodeCfgEntry bs 65]

/-- A command whose argument byte must be zero. -/
def noArg (op arg : Byte) (i : Instr) : Except Reject Instr := if arg = 0 then .ok i else .error (.usage op)

/-- The host command word and its payload: `op` in byte 0, `arg` in byte 1, payload from byte 2 (R104, R280). -/
def decodeHost (bs : List Byte) : Except Reject Instr :=
  let op := byteAt bs 0
  let arg := byteAt bs 1
  if op = 0x00 then noArg op arg .nop
  else if op = 0x01 then noArg op arg (.cfgLoad (decodeCfg bs))
  else if op = 0x02 then noArg op arg .init
  else if op = 0x03 then noArg op arg .shutdown
  else if op = 0x04 then
    if arg.extractLsb' 3 5 = 0 then .ok (.setTunables (arg.extractLsb' 0 2) (arg.getLsbD 2)) else .error (.usage op)
  else if op = 0x05 then
    noArg op arg (.setCal (wordAt 32 bs 2 4) (wordAt 32 bs 6 4) (wordAt 32 bs 10 4) (wordAt 32 bs 14 4))
  else if op = 0x10 then noArg op arg (.wtr (bytesAt bs 2 256))
  else if op = 0x11 then noArg op arg .rd
  else if op = 0x50 then
    if arg.extractLsb' 1 7 = 0 then .ok (.ledRequest (arg.getLsbD 0)) else .error (.usage op)
  else .error (.usage op)

/-! ## Internal operations (30_encoding.md R105): the number in byte 0, operands in the model's own encoding after it
(log entry 15) -/

def decodeOutcome (b : Byte) : Option XferOutcome :=
  if b = 0 then some .ok else if b = 1 then some .failTransport else if b = 2 then some .failProtocol else none

def decodeFinger (bs : List Byte) (off : Nat) : FingerRec :=
  { origin := wordAt 32 bs off 4, absX := wordAt 32 bs (off + 4) 4, absY := wordAt 32 bs (off + 8) 4
    relX := wordAt 32 bs (off + 12) 4, relY := wordAt 32 bs (off + 16) 4, toolMajor := wordAt 32 bs (off + 20) 4
    toolMinor := wordAt 32 bs (off + 24) 4, orientation := wordAt 32 bs (off + 28) 4
    touchMajor := wordAt 32 bs (off + 32) 4, touchMinor := wordAt 32 bs (off + 36) 4
    pressure := wordAt 32 bs (off + 40) 4 }

def decodeTouchFrame (bs : List Byte) (off : Nat) : TouchpadFrame :=
  { nFingers := byteAt bs off, click := boolOf (byteAt bs (off + 1))
    fingers := #v[decodeFinger bs (off + 2), decodeFinger bs (off + 46), decodeFinger bs (off + 90),
                  decodeFinger bs (off + 134), decodeFinger bs (off + 178), decodeFinger bs (off + 222)] }

def decodeKeyFrame (bs : List Byte) (off : Nat) : KeyboardFrame :=
  { counter := byteAt bs off, modifiers := byteAt bs (off + 1), keys := bytesAt bs (off + 2) 6
    fn := boolOf (byteAt bs (off + 8)) }

def decodePos (bs : List Byte) (off : Nat) : Pos := { x := wordAt 32 bs off 4, y := wordAt 32 bs (off + 4) 4 }

def decodePosList (bs : List Byte) : Nat → Nat → List Pos
  | 0, _ => []
  | n + 1, off => decodePos bs off :: decodePosList bs n (off + 8)

def decodeIndex6 (b : Byte) : Option (Fin 6) := if h : b.toNat < 6 then some ⟨b.toNat, h⟩ else none

def decodeEntry (bs : List Byte) (off : Nat) : Option TouchEntry :=
  match decodeIndex6 (byteAt bs off), decodeIndex6 (byteAt bs (off + 1)) with
  | some f, some s => some { finger := f, pos := decodePos bs (off + 2), slot := s }
  | _, _ => none

def decodeEntries (bs : List Byte) : Nat → Nat → Option (List TouchEntry)
  | 0, _ => some []
  | n + 1, off =>
    match decodeEntry bs off, decodeEntries bs n (off + 10) with
    | some e, some es => some (e :: es)
    | _, _ => none

/-- A set of slots as a mask, bit `s` for slot `s`. -/
def slotSetOf (b : Byte) : Vector Bool 6 :=
  #v[b.getLsbD 0, b.getLsbD 1, b.getLsbD 2, b.getLsbD 3, b.getLsbD 4, b.getLsbD 5]

/-- A decoded operand or a rejection of the operand bytes. -/
def orBad (op : Byte) : Option Instr → Except Reject Instr
  | some i => .ok i
  | none => .error (.badOperands op)

def decodeOutcomeOp (op : Byte) (mk : XferOutcome → Option Instr) (b : Byte) : Except Reject Instr :=
  orBad op ((decodeOutcome b).bind mk)

/-- The bytes of a touchpad frame among the operands of an internal operation: two, and 44 for each of six fingers. -/
def touchFrameLen : Nat := 266

/-- The operands of `TP_EMIT`: the frame, the number of entries, the set of released slots, the entries. -/
def decodeTpEmit (bs : List Byte) : Option Instr :=
  if (byteAt bs (1 + touchFrameLen)).toNat ≤ 6 then
    (decodeEntries bs (byteAt bs (1 + touchFrameLen)).toNat (3 + touchFrameLen)).map
      (fun es => .tpEmit (decodeTouchFrame bs 1) es (slotSetOf (byteAt bs (2 + touchFrameLen))))
  else none

def decodeTpAssign (bs : List Byte) : Option Instr :=
  if (byteAt bs 1).toNat ≤ 6 then some (.tpAssign (decodePosList bs (byteAt bs 1).toNat 2)) else none

def decodeOp (bs : List Byte) : Except Reject Instr :=
  let op := byteAt bs 0
  if op = 0x06 then .ok .gpe
  else if op = 0x07 then
    decodeOutcomeOp op (fun o => if o = .failProtocol then none else some (.rdComplete o)) (byteAt bs 1)
  else if op = 0x08 then .ok .dispatch
  else if op = 0x12 then .ok .rda
  else if op = 0x13 then .ok .wtra
  else if op = 0x14 then .ok .statusCheck
  else if op = 0x15 then .ok .tStart
  else if op = 0x16 then .ok .tXfer
  else if op = 0x17 then .ok .tComplete
  else if op = 0x20 then .ok .classify
  else if op = 0x21 then .ok .decodeKbd
  else if op = 0x22 then .ok .decodeTp
  else if op = 0x23 then .ok (.crc16 (slice bs 3 (wordAt 16 bs 1 2).toNat))
  else if op = 0x24 then .ok .crcCheck
  else if op = 0x25 then .ok (.buildLed (byteAt bs 1) (boolOf (byteAt bs 2)))
  else if op = 0x30 then .ok (.kbdApply (decodeKeyFrame bs 1))
  else if op = 0x31 then .ok (.codeToKey (byteAt bs 1) (boolOf (byteAt bs 2)))
  else if op = 0x40 then .ok (.tpApply (decodeTouchFrame bs 1))
  else if op = 0x41 then .ok (.tpFilter (decodeTouchFrame bs 1))
  else if op = 0x42 then .ok (.tpXform (decodeFinger bs 1))
  else if op = 0x43 then orBad op (decodeTpAssign bs)
  else if op = 0x44 then orBad op (decodeTpEmit bs)
  else if op = 0x51 then .ok .ledSend
  else if op = 0x52 then decodeOutcomeOp op (fun o => some (.ledComplete o)) (byteAt bs 1)
  else .error (.unknownOperation op)

/-! ## Data formats -/

/-- A packet by its tag at offset 0 (30_encoding.md R91, R92, R94). -/
def decodePacket (t : Tags) (bs : List Byte) : Except Reject Instr :=
  let tag := wordAt 16 bs 0 2
  if tag = t.nothing then .ok (.pktNothing (bytesAt bs 2 254))
  else if tag = t.keyboard then .ok (.pktKeyboard (bytesAt bs 2 254))
  else if tag = t.touchpad then .ok (.pktTouchpad (bytesAt bs 2 254))
  else .error (.unknownTag tag)

/-- The accepted write status in wire order (00_scope.md R6 `STATUS_ACCEPT`, 30_encoding.md R95). -/
def statusAcceptBytes : List Byte := [0xAC, 0x27, 0x68, 0xD5]

def decodeStatus (bs : List Byte) : Except Reject Instr :=
  if slice bs 0 4 = statusAcceptBytes then .ok .statusAccept else .error (.statusMismatch (slice bs 0 4))

/-- `LED_ON_VAL` and `LED_OFF_VAL` (00_scope.md R6). -/
def ledValueByte (on : Bool) : Byte := if on then 2 else 0

def decodeLedVal (bs : List Byte) : Except Reject Instr :=
  if byteAt bs 0 = ledValueByte true then .ok (.ledcmdVal true)
  else if byteAt bs 0 = ledValueByte false then .ok (.ledcmdVal false)
  else .error (.ledValue (byteAt bs 0))

/-- The decoder: what the bytes `bs` at port `p` stand for, under the tag assignment `t`. -/
def decode (t : Tags) (p : Port) (bs : List Byte) : Except Reject Instr :=
  match p with
  | .host => decodeHost bs
  | .op => decodeOp bs
  | .packet => decodePacket t bs
  | .status => decodeStatus bs
  | .ledVal => decodeLedVal bs

/-! ## Words of the opcode table -/

def accepts (r : Except Reject Instr) : Bool :=
  match r with
  | .ok _ => true
  | .error _ => false

/-- The port at which a table word of `nbits` bits arrives (log entry 22). The rows of one width never overlap: 0 and 2 are no
internal operation numbers, and no tag is a host command. -/
def portOf (t : Tags) (nbits : Nat) (bs : List Byte) : Port :=
  if nbits ≤ 8 then if accepts (decodeLedVal bs) then .ledVal else .op
  else if nbits ≤ 16 then
    if accepts (decodeHost bs) then .host else if accepts (decodePacket t bs) then .packet else .host
  else .status

/-- The bytes of a table word, bit 0 the least significant bit of the first byte. -/
def tableBytes (nbits w : Nat) : List Byte := leBytes ((nbits + 7) / 8) w

/-- The instruction the decoder reads from a table word. -/
def decodeTableWord (nbits w : Nat) : Option Instr :=
  (decode Config.tags (portOf Config.tags nbits (tableBytes nbits w)) (tableBytes nbits w)).toOption

/-! ## The encoder -/

/-- The port of an instruction: its row's format. -/
def portOfInstr : Instr → Port
  | .nop | .cfgLoad _ | .init | .shutdown | .setTunables _ _ | .setCal _ _ _ _ | .wtr _ | .rd | .ledRequest _ => .host
  | .gpe | .rdComplete _ | .dispatch | .rda | .wtra | .statusCheck | .tStart | .tXfer | .tComplete | .classify | .decodeKbd
  | .decodeTp | .crc16 _ | .crcCheck | .buildLed _ _ | .kbdApply _ | .codeToKey _ _ | .tpApply _ | .tpFilter _ | .tpXform _
  | .tpAssign _ | .tpEmit _ _ _ | .ledSend | .ledComplete _ => .op
  | .pktKeyboard _ | .pktTouchpad _ | .pktNothing _ => .packet
  | .statusAccept => .status
  | .ledcmdVal _ => .ledVal

def encodeCfgEntry (e : CfgEntry) : List Byte := e.present :: leBytes 8 e.value.toNat

def encodeOutcome : XferOutcome → Byte
  | .ok => 0
  | .failTransport => 1
  | .failProtocol => 2

def encodeWord32 (v : Word32) : List Byte := leBytes 4 v.toNat

def encodeFinger (f : FingerRec) : List Byte :=
  encodeWord32 f.origin ++ encodeWord32 f.absX ++ encodeWord32 f.absY ++ encodeWord32 f.relX ++ encodeWord32 f.relY
    ++ encodeWord32 f.toolMajor ++ encodeWord32 f.toolMinor ++ encodeWord32 f.orientation ++ encodeWord32 f.touchMajor ++ encodeWord32 f.touchMinor
    ++ encodeWord32 f.pressure

def encodeTouchFrame (f : TouchpadFrame) : List Byte :=
  f.nFingers :: byteOfBool f.click :: f.fingers.toList.flatMap encodeFinger

def encodeKeyFrame (f : KeyboardFrame) : List Byte :=
  f.counter :: f.modifiers :: (f.keys.toList ++ [byteOfBool f.fn])

def encodePos (p : Pos) : List Byte := encodeWord32 p.x ++ encodeWord32 p.y

def encodeEntry (e : TouchEntry) : List Byte :=
  BitVec.ofNat 8 e.finger.val :: BitVec.ofNat 8 e.slot.val :: encodePos e.pos

def byteOfSlotSet (v : Vector Bool 6) : Byte :=
  BitVec.ofNat 8 (v[0].toNat + 2 * v[1].toNat + 4 * v[2].toNat + 8 * v[3].toNat + 16 * v[4].toNat + 32 * v[5].toNat)

/-- `arg` of `SET_TUNABLES`: fnmode in bits 1:0, iso in bit 2 (30_encoding.md R104). -/
def tunablesArg (fnmode : BitVec 2) (iso : Bool) : Byte := BitVec.ofNat 8 (fnmode.toNat + 4 * iso.toNat)

def encodeTag (tag : Word16) : List Byte := leBytes 2 tag.toNat

/-- The bytes of an instruction at its port, from the encoding tables of 30_encoding.md. -/
def encode (t : Tags) : Instr → List Byte
  | .nop => [0x00, 0x00]
  | .cfgLoad entries => 0x01 :: 0x00 :: entries.toList.flatMap encodeCfgEntry
  | .init => [0x02, 0x00]
  | .shutdown => [0x03, 0x00]
  | .setTunables fnmode iso => [0x04, tunablesArg fnmode iso]
  | .setCal xMin xMax yMin yMax =>
    0x05 :: 0x00 :: (encodeWord32 xMin ++ encodeWord32 xMax ++ encodeWord32 yMin ++ encodeWord32 yMax)
  | .wtr tx => 0x10 :: 0x00 :: tx.toList
  | .rd => [0x11, 0x00]
  | .ledRequest on => [0x50, byteOfBool on]
  | .gpe => [0x06]
  | .rdComplete o => [0x07, encodeOutcome o]
  | .dispatch => [0x08]
  | .rda => [0x12]
  | .wtra => [0x13]
  | .statusCheck => [0x14]
  | .tStart => [0x15]
  | .tXfer => [0x16]
  | .tComplete => [0x17]
  | .classify => [0x20]
  | .decodeKbd => [0x21]
  | .decodeTp => [0x22]
  | .crc16 d => 0x23 :: (leBytes 2 d.length ++ d)
  | .crcCheck => [0x24]
  | .buildLed sequence on => [0x25, sequence, byteOfBool on]
  | .kbdApply f => 0x30 :: encodeKeyFrame f
  | .codeToKey code fn => [0x31, code, byteOfBool fn]
  | .tpApply f => 0x40 :: encodeTouchFrame f
  | .tpFilter f => 0x41 :: encodeTouchFrame f
  | .tpXform f => 0x42 :: encodeFinger f
  | .tpAssign pos => 0x43 :: BitVec.ofNat 8 pos.length :: pos.flatMap encodePos
  | .tpEmit f entries released =>
    0x44 :: (encodeTouchFrame f
      ++ BitVec.ofNat 8 entries.length :: byteOfSlotSet released :: entries.flatMap encodeEntry)
  | .ledSend => [0x51]
  | .ledComplete o => [0x52, encodeOutcome o]
  | .pktKeyboard payload => encodeTag t.keyboard ++ payload.toList
  | .pktTouchpad payload => encodeTag t.touchpad ++ payload.toList
  | .pktNothing payload => encodeTag t.nothing ++ payload.toList
  | .statusAccept => statusAcceptBytes
  | .ledcmdVal on => [ledValueByte on]

end Sys2Proof
end

