-- ==== Sys2Proof/Machine/State.lean ====
section
/-! DEFINITION. The state of the block (10_state.md R20), the records of its streams (R45), the reasons a step can stop, and the
state after reset (R50). INVENTORY.md lists every field with its rule and its reset value. -/

namespace Sys2Proof.Machine

/-- One byte buffer (10_state.md R21): cells (offset, byte), offsets strictly rising, no cell equal to what an unlisted
offset reads as (log entry 8). -/
abbrev Memory := List Host.Cell

/-- `tstate`, the phase of the Transport sequencer (R31); the reserved value 7 is never taken and has no constructor. -/
inductive TState where
  | idle
  | wrCmd
  | wrStatus
  | wrResp
  | rdArm
  | rdData
  | complete
  deriving DecidableEq, Repr

/-- `texch`, which exchange is performed (R32); the reserved values 5 to 7 are never taken and have no constructor. -/
inductive TExch where
  | none
  | syncWtr
  | syncRd
  | asyncRd
  | asyncWtr
  deriving DecidableEq, Repr

/-- CSR 0 to 7, the document's SpiSettings (R24). -/
structure SpiSettings where
  sclkPeriod : Word64
  wordSize   : Word64
  bitOrder   : Word64
  spo        : Word64
  sph        : Word64
  csDelay    : Word64
  resetA2r   : Word64
  resetRec   : Word64
  deriving DecidableEq, Repr

/-- CSR 9 to 12, the touchpad calibration, each s32 (R26). -/
structure Calibration where
  xMin : Word32
  xMax : Word32
  yMin : Word32
  yMax : Word32
  deriving DecidableEq, Repr

/-- The Transport sequencer registers (R31 to R34); `tRes` is s32. -/
structure Transport where
  tstate    : TState
  texch     : TExch
  tRes      : Word32
  rdPending : Bool
  wrPending : Bool
  deriving DecidableEq, Repr

/-- The keyboard history (R35). -/
structure KbdHistory where
  lastKeys   : Vector Byte 6
  lastKeysFn : Vector Bool 6
  lastFn     : Bool
  deriving DecidableEq, Repr

/-- One tracking slot (R36): `slot_active`, `slot_x`, `slot_y`. -/
structure Slot where
  active : Bool
  x      : Word32
  y      : Word32
  deriving DecidableEq, Repr

/-- The LED registers (R37); `sent` is `led_have`, `seq` is CSR 15 (R30). -/
structure LedRegs where
  want     : Bool
  sent     : Bool
  inflight : Bool
  seq      : Byte
  deriving DecidableEq, Repr

/-- The six error kinds with the value each records (60_exceptions.md R300). -/
inductive ErrRec where
  /-- Code 0; `t_res`. -/
  | transportFailure (r : Word32)
  /-- Code 1; `MemRead(tx_status, 0, 4)`. -/
  | protocolRejection (status : Word32)
  /-- Code 2; the tag. -/
  | unrecognizedPacket (tag : Word16)
  /-- Code 3; the index of the lowest absent parameter. -/
  | configurationMissing (i : Fin 8)
  /-- Code 4; the scancode. -/
  | boundsViolation (c : Byte)
  /-- Code 5; the operation number. -/
  | usageError (op : Byte)
  deriving DecidableEq, Repr

/-- A record of the event stream (R45). -/
inductive Event where
  | key (code : Key) (pressed : Bool)
  | finger (slot : Fin 6) (x y touchMajor touchMinor toolMajor toolMinor orientation : Word32)
  | slotReleased (slot : Fin 6)
  | frameSync
  | click (pressed : Bool)
  deriving DecidableEq, Repr

/-- A record of the log stream (R45). -/
inductive LogRec where
  | err (e : ErrRec)
  | traceUnknown (tag : Word16)
  deriving DecidableEq, Repr

/-- A record of the SPI wire trace (R45). -/
inductive WireRec where
  /-- The 256 bytes sent. -/
  | tx (bytes : List Byte)
  /-- A receive transfer of `n` bytes with its result, s32. -/
  | rx (n : Nat) (result : Word32)
  /-- Chip select asserted (true) or deasserted. -/
  | cs (asserted : Bool)
  deriving DecidableEq, Repr

/-- What the host waits for: nothing, or the blocking command that runs (45_system.md R280); `init k` holds the loop index
of `INIT` that R283 puts into the host agent's continuation (log entry 12). -/
inductive HostCont where
  | ready
  | wtr
  | rd
  | init (k : Nat)
  deriving DecidableEq, Repr

/-- What the command port returned to the host (40_transport.md R143, R145, R146; 45_system.md R283; log entry 13). -/
inductive HostRet where
  /-- `REFUSED`, with the refused command's number. -/
  | refused (op : Byte)
  | wtr (o : XferOutcome) (status rx : List Byte)
  | rd (o : XferOutcome) (rx : List Byte)
  | init (o : XferOutcome)
  deriving DecidableEq, Repr

/-- The result of `CLASSIFY` (41_codec.md R171). -/
inductive PktClass where
  | nothing
  | keyboard
  | touchpad
  | unknown (tag : Word16)
  deriving DecidableEq, Repr

/-- The value an operation that writes nothing hands to its caller (log entry 14). -/
inductive OpResult where
  | none
  | flag (b : Bool)
  | pktClass (c : PktClass)
  | keyFrame (f : KeyboardFrame)
  | touchFrame (f : TouchpadFrame)
  | crc (c : Word16)
  | key (k : Key)
  | fingers (cur : List (Fin 6))
  | pos (p : Pos)
  | assignment (slotOf released : List (Fin 6))
  deriving DecidableEq, Repr

/-- One answer of the device oracle (40_transport.md R133). `ok` is the full-length result with the bytes a receive transfer
delivers (a transmit transfer ignores them, R132; a 4-byte receive takes the first four); `fail low` is the negative
s32 whose low 31 bits are `low`, so every negative result is expressible and no other (log entries 9, 28). -/
inductive DevAnswer where
  | ok (data : Packet)
  | fail (low : BitVec 31)
  deriving DecidableEq, Repr

/-- One move of the schedule (30_encoding.md R108, log entry 1): an encoded item at a port, an answer the device will give, or
the reset input (70_reset_and_hazards.md R340). -/
inductive Stim where
  | item (port : Port) (bytes : List Byte)
  | dev (a : DevAnswer)
  | reset
  deriving DecidableEq, Repr

/-- Why the machine stops with a fault. -/
inductive Fault where
  /-- A field of a packet would be read outside the 256 bytes of its buffer (20_memory.md R61, R76). Raised by the
  operations that decode or dispatch a packet, only under a parameter set that R76 calls ill-formed, which `step` refuses
  before any operation runs. Safe. -/
  | outsideBuffer
  deriving DecidableEq, Repr

/-- Why a step refuses. -/
inductive Refusal where
  /-- An arm of `exec` without a meaning; no arm raises it. Safe. -/
  | notModelled (mnemonic : String)
  /-- The parameter set is ill-formed (20_memory.md R76: "refuse a parameter set that fails them"; 41_codec.md R171).
  Raised by `step`. Safe. -/
  | parameters
  /-- A schedule item names no internal operation (30_encoding.md R105). Raised by `runItem`. Safe. -/
  | unknownOperation (op : Byte)
  /-- The operand bytes of an internal operation encode no operand (log entry 15). Raised by `runItem`. Safe. -/
  | badOperands (op : Byte)
  /-- An LED value byte other than 0 and 2: "what the device would do with another value is not in the document"
  (30_encoding.md R106 (3)). Raised by `runItem`. Safe. -/
  | ledValue (v : Byte)
  deriving DecidableEq, Repr

/-- The state of the block (R20) and the model's own fields, which INVENTORY.md marks. -/
structure State where
  /-- The parameters and constant tables; no step writes them (log entry 4). -/
  par      : Params
  txBuf    : Memory
  txStatus : Memory
  rxBuf    : Memory
  spi      : SpiSettings
  cfgValid : Bool
  /-- CSR 8: fnmode in bits 1:0, iso in bit 2 (R25). -/
  tunables : BitVec 3
  cal      : Calibration
  xport    : Transport
  kbd      : KbdHistory
  slots    : Vector Slot 6
  led      : LedRegs
  initDone : Bool
  gpeArmed : Bool
  /-- CSR 14, the sticky error bits (R29). -/
  err      : BitVec 6
  /-- The event stream, oldest record first (R45). -/
  events   : List Event
  /-- The log stream, oldest record first (R45). -/
  log      : List LogRec
  /-- The SPI wire trace, oldest record first (R45). -/
  wire     : List WireRec
  /-- The blocked host command (log entry 12). -/
  host     : HostCont
  /-- The returns to the host, oldest first (log entry 13). -/
  returns  : List HostRet
  /-- The last value an operation handed out (log entry 14). -/
  result   : OpResult
  /-- The device's coming answers, next first (log entry 9). -/
  dev      : List DevAnswer
  /-- The moves still to come, next first (log entry 1). -/
  stim     : List Stim
  /-- How many free values were drawn (log entry 10). -/
  draws    : Nat
  deriving DecidableEq, Repr

/-- The block right after reset (R50; 70_reset_and_hazards.md R341): the spec's values; zero where the spec says
"unspecified" (DESIGN CHOICE, log entry 7); the model's own fields as log entries 5, 6, 9, 10, 12 to 14 say. -/
def State.reset : State :=
  { par := Config.params
    txBuf := []
    txStatus := []
    rxBuf := []
    spi := { sclkPeriod := 0, wordSize := 0, bitOrder := 0, spo := 0, sph := 0, csDelay := 0, resetA2r := 0
             resetRec := 0 }
    cfgValid := false
    tunables := 0
    cal := { xMin := 0, xMax := 0, yMin := 0, yMax := 0 }
    xport := { tstate := .idle, texch := .none, tRes := 0, rdPending := false, wrPending := false }
    kbd := { lastKeys := #v[0, 0, 0, 0, 0, 0], lastKeysFn := #v[false, false, false, false, false, false]
             lastFn := false }
    slots := #v[{ active := false, x := 0, y := 0 }, { active := false, x := 0, y := 0 },
                { active := false, x := 0, y := 0 }, { active := false, x := 0, y := 0 },
                { active := false, x := 0, y := 0 }, { active := false, x := 0, y := 0 }]
    led := { want := false, sent := false, inflight := false, seq := 0 }
    initDone := false
    gpeArmed := false
    err := 0
    events := []
    log := []
    wire := []
    host := .ready
    returns := []
    result := .none
    dev := []
    stim := []
    draws := 0 }

end Sys2Proof.Machine
end

