-- ==== Sys2Proof/Machine/Flags.lean ====
section
/-! DEFINITION. The one-bit registers seen as register bits: the codes of `tstate` and `texch`, the `STATUS` mirror, the `ERR`
bits, and the read-out of every control register (10_state.md R23, R28, R29, R31, R32). -/

namespace Sys2Proof.Machine

/-- The value of `tstate` (R31). -/
def TState.code : TState → BitVec 3
  | .idle => 0
  | .wrCmd => 1
  | .wrStatus => 2
  | .wrResp => 3
  | .rdArm => 4
  | .rdData => 5
  | .complete => 6

/-- The value of `texch` (R32). -/
def TExch.code : TExch → BitVec 3
  | .none => 0
  | .syncWtr => 1
  | .syncRd => 2
  | .asyncRd => 3
  | .asyncWtr => 4

/-- One bit as a bit vector. -/
def bit (b : Bool) : BitVec 1 := BitVec.ofBool b

/-- CSR 13 `STATUS`, the read-only mirror (R28): bit 15 is 0, then `last_fn`, `texch`, `tstate`, `led_have`, `led_want`,
`led_inflight`, `wr_pending`, `rd_pending`, `gpe_armed`, `init_done`, `cfg_valid` down to bit 0. -/
def State.statusReg (s : State) : Word16 :=
  bit false ++ bit s.kbd.lastFn ++ s.xport.texch.code ++ s.xport.tstate.code ++ bit s.led.sent ++ bit s.led.want
    ++ bit s.led.inflight ++ bit s.xport.wrPending ++ bit s.xport.rdPending ++ bit s.gpeArmed ++ bit s.initDone
    ++ bit s.cfgValid

/-- The code of an error kind, which is its bit number in `ERR` (60_exceptions.md R300). -/
def ErrRec.code : ErrRec → Fin 6
  | .transportFailure _ => 0
  | .protocolRejection _ => 1
  | .unrecognizedPacket _ => 2
  | .configurationMissing _ => 3
  | .boundsViolation _ => 4
  | .usageError _ => 5

/-- The `ERR` bit of an error kind (R29). -/
def ErrRec.mask (e : ErrRec) : BitVec 6 := BitVec.twoPow 6 e.code.val

/-- `fnmode`, CSR 8 bits 1:0 (R25). -/
def State.fnmode (s : State) : BitVec 2 := s.tunables.extractLsb' 0 2

/-- `iso`, CSR 8 bit 2 (R25). -/
def State.iso (s : State) : Bool := s.tunables.getLsbD 2

/-- `csr[n]` of 00_scope.md R11: the value of control register `n` (R23) as 64 bits; no operation reads through it. The widening is
DESIGN CHOICE, log entry 34: the signed CSR 9 to 12 are sign-extended, so that CSR 11 reads as the -50 of 45_system.md R289's
example, and the unsigned registers zero-extended. -/
def State.readCsr (s : State) (n : BitVec 4) : Word64 :=
  if n = 0 then s.spi.sclkPeriod
  else if n = 1 then s.spi.wordSize
  else if n = 2 then s.spi.bitOrder
  else if n = 3 then s.spi.spo
  else if n = 4 then s.spi.sph
  else if n = 5 then s.spi.csDelay
  else if n = 6 then s.spi.resetA2r
  else if n = 7 then s.spi.resetRec
  else if n = 8 then s.tunables.setWidth 64
  else if n = 9 then s.cal.xMin.signExtend 64
  else if n = 10 then s.cal.xMax.signExtend 64
  else if n = 11 then s.cal.yMin.signExtend 64
  else if n = 12 then s.cal.yMax.signExtend 64
  else if n = 13 then s.statusReg.setWidth 64
  else if n = 14 then s.err.setWidth 64
  else s.led.seq.setWidth 64

end Sys2Proof.Machine
end

