-- ==== Sys2Proof/Machine/Ops.lean ====
section
/-! DEFINITION. The named operations over buffers, parameters, streams and registers that the meanings share: memory access
(20_memory.md R61, R62), the parameter check (R76), the error action (60_exceptions.md R301), the start of an exchange
(40_transport.md R137, R145, R146). -/

namespace Sys2Proof.Machine

/-! ## Buffers -/

/-- Byte `a` of a buffer (20_memory.md R60); what nothing has written reads as `Config.unlistedByte` (log entry 8). -/
def Memory.get : Memory → Nat → Byte
  | [], _ => Config.unlistedByte
  | c :: t, a => if c.1 = a then c.2 else Memory.get t a

/-- The cell of byte `a` in front of a canonical rest: no cell for a byte equal to what an unlisted one reads as. -/
def Memory.cons (a : Nat) (b : Byte) (t : Memory) : Memory := if b = Config.unlistedByte then t else (a, b) :: t

/-- Store one byte; every other byte is kept (20_memory.md R62). -/
def Memory.put : Memory → Nat → Byte → Memory
  | [], a, b => Memory.cons a b []
  | c :: t, a, b =>
    if a < c.1 then Memory.cons a b (c :: t)
    else if a = c.1 then Memory.cons a b t
    else c :: Memory.put t a b

/-- Store consecutive bytes from offset `a` on. -/
def Memory.putBytes : Memory → Nat → List Byte → Memory
  | m, _, [] => m
  | m, a, b :: t => Memory.putBytes (Memory.put m a b) (a + 1) t

/-- The buffer that holds `bs` from offset `a` on and nothing else. -/
def Memory.loadFrom : Nat → List Byte → Memory
  | _, [] => []
  | a, b :: t => Memory.cons a b (Memory.loadFrom (a + 1) t)

/-- A whole-buffer write: "replace every byte of the buffer" (20_memory.md R62). -/
def Memory.load (bs : List Byte) : Memory := Memory.loadFrom 0 bs

/-- The bytes `off .. off + n - 1` of a buffer, lowest offset first. -/
def Memory.bytes (m : Memory) (off n : Nat) : List Byte := (List.range' off n).map (Memory.get m)

/-- `MemRead(B, off, n)` (20_memory.md R61). -/
def Memory.read (m : Memory) (off n : Nat) : Nat := leNat (Memory.bytes m off n)

/-- `MemWrite(B, off, n, v)` (20_memory.md R62). -/
def Memory.write (m : Memory) (off n v : Nat) : Memory := Memory.putBytes m off (leBytes n v)

/-- Cells strictly rising from `lo`, below `size`, none equal to what an unlisted byte reads as. -/
def Memory.wfFrom (lo size : Nat) : Memory → Bool
  | [] => true
  | c :: t => decide (lo ≤ c.1) && decide (c.1 < size) && (c.2 != Config.unlistedByte) && Memory.wfFrom (c.1 + 1) size t

/-- The canonical form of a buffer of `size` bytes. -/
def Memory.wf (size : Nat) (m : Memory) : Bool := Memory.wfFrom 0 size m

/-- `PACKET_LEN` (00_scope.md R6): the length of `tx_buf` and `rx_buf`. -/
def packetLen : Nat := 256

/-- `STATUS_LEN` (R6): the length of `tx_status`. -/
def statusLen : Nat := 4

/-- The three buffers are in canonical form. -/
def State.buffersWf (s : State) : Bool :=
  Memory.wf packetLen s.txBuf && Memory.wf statusLen s.txStatus && Memory.wf packetLen s.rxBuf

/-! ## Parameters -/

/-- The offsets of a finger record, in the order of 30_encoding.md R101. -/
def fingerOffsetList (o : FingerOffsets) : List Nat :=
  [o.origin, o.absX, o.absY, o.relX, o.relY, o.toolMajor, o.toolMinor, o.orientation, o.touchMajor, o.touchMinor, o.pressure]

/-- The conditions of 20_memory.md R76 on the open offsets. -/
def offsetsFit (p : Params) : Bool :=
  decide (p.kbdOffCounter ≤ 255) && decide (p.kbdOffMods ≤ 255) && decide (p.kbdOffFn ≤ 255)
    && decide (p.kbdOffKeys + 5 ≤ 255) && decide (p.tpOffClick ≤ 255)
    && decide (p.tpOffFingers + 6 * p.fingerStride ≤ 256)
    && (fingerOffsetList p.fo).all (fun o => decide (o + 2 ≤ p.fingerStride))

/-- "the three tag parameters must be pairwise distinct" (41_codec.md R171). -/
def tagsDistinct (t : Tags) : Bool :=
  (t.keyboard != t.touchpad) && (t.keyboard != t.nothing) && (t.touchpad != t.nothing)

/-- A well-formed parameter set: R76's conditions and R171's. -/
def paramsWf (p : Params) : Bool := offsetsFit p && tagsDistinct p.tags

/-- `N_SCAN` (42_keyboard.md R202). -/
def nScan (p : Params) : Nat := p.scan.last.toNat + 1

/-! ## Streams, returns, results (10_state.md R45; log entries 13, 14) -/

/-- `emit E` for each event of the list, in order. -/
def State.emit (es : List Event) (s : State) : State := { s with events := s.events ++ es }

/-- `log L`. -/
def State.logRec (l : LogRec) (s : State) : State := { s with log := s.log ++ [l] }

/-- `wire W` for each record of the list, in order. -/
def State.wireOut (ws : List WireRec) (s : State) : State := { s with wire := s.wire ++ ws }

/-- A value handed back to the host through the command port; the host is no longer blocked. -/
def State.giveBack (r : HostRet) (s : State) : State := { s with returns := s.returns ++ [r], host := .ready }

/-- The value an operation hands to its caller. -/
def State.setResult (r : OpResult) (s : State) : State := { s with result := r }

/-- One more free value has been drawn. -/
def State.drawn (s : State) : State := { s with draws := s.draws + 1 }

/-! ## Errors: the block's only exceptions (60_exceptions.md R301, R313)

`raise` is the whole of "trap entry": the sticky bit and the log record; nothing is saved, no mode changes, and the rule
that raised the error goes on. There is no return from it (R314). -/

/-- `raise K(info)`: "ERR[code(K)] <- 1; log Err(K, info)" (R301). -/
def State.raise (e : ErrRec) (s : State) : State := { s with err := s.err ||| e.mask, log := s.log ++ [.err e] }

/-- The refusal of a blocking command: UsageError and `REFUSED` at once, nothing else (40_transport.md R145, R146,
45_system.md R283); the host is not blocked. -/
def State.refuse (op : Byte) (s : State) : State :=
  { s with err := s.err ||| (ErrRec.usageError op).mask, log := s.log ++ [.err (.usageError op)]
           returns := s.returns ++ [.refused op] }

/-! ## The Transport's registers -/

/-- `texch <- x; tstate <- t`. -/
def State.goExchange (x : TExch) (t : TState) (s : State) : State :=
  { s with xport := { s.xport with texch := x, tstate := t } }

/-- `tstate <- t`. -/
def State.goPhase (t : TState) (s : State) : State := { s with xport := { s.xport with tstate := t } }

/-- `t_res <- r; tstate <- t`: the end of a transfer. -/
def State.endTransfer (r : Word32) (t : TState) (s : State) : State :=
  { s with xport := { s.xport with tRes := r, tstate := t } }

def State.setRdPending (b : Bool) (s : State) : State := { s with xport := { s.xport with rdPending := b } }

def State.setWrPending (b : Bool) (s : State) : State := { s with xport := { s.xport with wrPending := b } }

/-- `tx_buf <- P`, all 256 bytes. -/
def State.loadTx (p : Packet) (s : State) : State := { s with txBuf := Memory.load p.toList }

/-- The precondition of `WTR`, `RD` and `INIT` (40_transport.md R145; 45_system.md R283, R291). -/
def State.syncReady (s : State) : Bool :=
  s.cfgValid && !s.gpeArmed && !s.initDone && decide (s.xport.tstate = .idle) && !s.xport.rdPending
    && !s.xport.wrPending && !s.led.inflight

/-- The start of an exchange: `texch`, `tstate`, chip select asserted (40_transport.md R137, R145). -/
def State.startExchange (x : TExch) (t : TState) (s : State) : State := (s.goExchange x t).wireOut [.cs true]

/-- The start of a synchronous write exchange of the packet `p`, for the blocked host command `c` (R145, R283). -/
def State.startSyncWrite (c : HostCont) (p : Packet) (s : State) : State :=
  { (s.loadTx p).startExchange .syncWtr .wrCmd with host := c }

/-- `n` bytes of unspecified contents (log entry 10). -/
def freeBytes (draw n : Nat) : List Byte := (List.range n).map (Config.freeByte draw)

/-- The result of a failed transfer: negative, s32 (40_transport.md R133). -/
def failResult (low : BitVec 31) : Word32 := 1#1 ++ low

/-! ## Reset (70_reset_and_hazards.md R340) -/

/-- The reset input: every piece of the block's state to R50's value, "empties nothing outside the block": the parameters, the
device's coming answers, the coming moves and the draw counter are not the block's (log entry 23). -/
def State.assertReset (s : State) : State :=
  { State.reset with par := s.par, dev := s.dev, stim := s.stim, draws := s.draws }

end Sys2Proof.Machine
end

