-- ==== Sys2Proof/Machine/Operands.lean ====
section
/-! DEFINITION. How operands are assembled from the bytes of a packet (30_encoding.md R97, R98, R100, R101, R103; 41_codec.md R172,
R173). -/

namespace Sys2Proof.Machine

/-- `le16(P, off)` (00_scope.md R11). -/
def le16 (m : Memory) (off : Nat) : Word16 := BitVec.ofNat 16 (Memory.read m off 2)

/-- `sle16(P, off)` widened to s32 (R11, R103). -/
def sle16 (m : Memory) (off : Nat) : Word32 := (le16 m off).signExtend 32

/-- A byte read as a boolean: any non-zero value is true (R97, R100). -/
def flagAt (m : Memory) (off : Nat) : Bool := Memory.get m off != 0

/-- The six slot, scancode and finger indices, ascending. -/
def six : List (Fin 6) := [0, 1, 2, 3, 4, 5]

/-- The eight modifier bit positions, ascending. -/
def eight : List (Fin 8) := [0, 1, 2, 3, 4, 5, 6, 7]

/-- The KeyboardFrame of a packet, `DECODE_KBD` (41_codec.md R172). -/
def keyFrameOf (p : Params) (m : Memory) : KeyboardFrame :=
  { counter := Memory.get m p.kbdOffCounter
    modifiers := Memory.get m p.kbdOffMods
    keys := #v[Memory.get m p.kbdOffKeys, Memory.get m (p.kbdOffKeys + 1), Memory.get m (p.kbdOffKeys + 2),
               Memory.get m (p.kbdOffKeys + 3), Memory.get m (p.kbdOffKeys + 4), Memory.get m (p.kbdOffKeys + 5)]
    fn := flagAt m p.kbdOffFn }

/-- Finger record `k` of a packet (30_encoding.md R100, R101): the record starts at `TP_OFF_FINGERS + k*FINGER_STRIDE`. `origin` is
log entry 35. -/
def fingerOf (p : Params) (m : Memory) (k : Nat) : FingerRec :=
  let b := p.tpOffFingers + k * p.fingerStride
  { origin := sle16 m (b + p.fo.origin)
    absX := sle16 m (b + p.fo.absX)
    absY := sle16 m (b + p.fo.absY)
    relX := sle16 m (b + p.fo.relX)
    relY := sle16 m (b + p.fo.relY)
    toolMajor := sle16 m (b + p.fo.toolMajor)
    toolMinor := sle16 m (b + p.fo.toolMinor)
    orientation := sle16 m (b + p.fo.orientation)
    touchMajor := sle16 m (b + p.fo.touchMajor)
    touchMinor := sle16 m (b + p.fo.touchMinor)
    pressure := sle16 m (b + p.fo.pressure) }

/-- The TouchpadFrame of a packet, `DECODE_TP` (41_codec.md R173); all six records whatever `n_fingers` says. -/
def touchFrameOf (p : Params) (m : Memory) : TouchpadFrame :=
  { nFingers := Memory.get m p.tpOffNFingers.val
    click := flagAt m p.tpOffClick
    fingers := #v[fingerOf p m 0, fingerOf p m 1, fingerOf p m 2, fingerOf p m 3, fingerOf p m 4, fingerOf p m 5] }

/-- Whether a configuration entry was supplied: any non-zero presence byte (30_encoding.md R102, R106 (9)). -/
def supplied (e : CfgEntry) : Bool := e.present != 0

/-- The SpiSettings of a complete configuration record, in the CSR order of 10_state.md R24. -/
def spiOf (entries : Vector CfgEntry 8) : SpiSettings :=
  { sclkPeriod := entries[0].value, wordSize := entries[1].value, bitOrder := entries[2].value, spo := entries[3].value
    sph := entries[4].value, csDelay := entries[5].value, resetA2r := entries[6].value, resetRec := entries[7].value }

/-- CSR 8 from the operands of `SET_TUNABLES`: `csr[8] <- arg[2:0]` (45_system.md R282). -/
def tunablesOf (fnmode : BitVec 2) (iso : Bool) : BitVec 3 := BitVec.ofBool iso ++ fnmode

/-- A packet given as its tag and payload (30_encoding.md R91), as a buffer. -/
def packetMemory (tag : Word16) (payload : Vector Byte 254) : Memory :=
  Memory.load (leBytes 2 tag.toNat ++ payload.toList)

end Sys2Proof.Machine
end

