-- ==== Sys2Proof/Machine/Codec.lean ====
section
/-! DEFINITION. The Packet Codec (41_codec.md): classification, payload extraction, CRC-16, the LED command. -/

namespace Sys2Proof.Machine

/-! ## Operations -/

/-- `CLASSIFY(P)` (R171). -/
def classifyTag (t : Tags) (tag : Word16) : PktClass :=
  if tag = t.nothing then .nothing
  else if tag = t.keyboard then .keyboard
  else if tag = t.touchpad then .touchpad
  else .unknown tag

/-- `CLASSIFY` of a buffer: only bytes 0 and 1 are read (R171). -/
def classifyPacket (t : Tags) (m : Memory) : PktClass := classifyTag t (le16 m 0)

/-- One shift of the CRC register (R176). -/
def crcShift (poly crc : Word16) : Word16 := if crc.getLsbD 0 then (crc >>> 1) ^^^ poly else crc >>> 1

/-- `n` shifts of the CRC register. -/
def crcShifts (poly : Word16) : Nat → Word16 → Word16
  | 0, crc => crc
  | n + 1, crc => crcShifts poly n (crcShift poly crc)

/-- One byte enters the low 8 bits, then eight shifts (R176). -/
def crcByte (poly crc : Word16) (b : Byte) : Word16 := crcShifts poly 8 (crc ^^^ b.setWidth 16)

/-- `CRC16(D)` (R176), seeded at `CRC_SEED` = 0. -/
def crcOf (poly : Word16) (d : List Byte) : Word16 := d.foldl (crcByte poly) 0

/-- The CRC of the LED command's region: 10 bytes from offset 8 (R177; 00_scope.md R6 `LED_CRC_OFF`, `LED_CRC_LEN`). -/
def ledCrc (poly : Word16) (m : Memory) : Word16 := crcOf poly (Memory.bytes m 8 10)

/-- `CRC_CHECK(B)` (R178). -/
def crcCheckOf (poly : Word16) (m : Memory) : Bool := le16 m 18 == ledCrc poly m

/-- The LED template with the sequence and value bytes in place, the CRC not yet (R177). -/
def ledFields (p : Params) (sequence : Byte) (on : Bool) : Memory :=
  Memory.write (Memory.write (Memory.load p.ledTemplate.toList) 11 1 sequence.toNat) 17 1 (ledValueByte on).toNat

/-- `BUILD_LED(sequence, on)`: the LED command (R177); the two field bytes are written before the CRC is computed. -/
def ledCommand (p : Params) (sequence : Byte) (on : Bool) : Memory :=
  Memory.write (ledFields p sequence on) 18 2 (ledCrc p.crcPoly (ledFields p sequence on)).toNat

/-- `BUILD_LED`: `tx_buf` holds the LED command. -/
def State.buildLed (sequence : Byte) (on : Bool) (s : State) : State := { s with txBuf := ledCommand s.par sequence on }

/-! ## Meanings -/

/-- `CLASSIFY` of `rx_buf` (R171): writes nothing; the class goes to the caller. -/
def execClassify (s : State) : Host.Outcome State Fault Refusal :=
  .next (s.setResult (.pktClass (classifyPacket s.par.tags s.rxBuf)))

/-- `DECODE_KBD` of `rx_buf` (R172): total, writes nothing; the frame goes to the caller. -/
def execDecodeKbd (s : State) : Host.Outcome State Fault Refusal :=
  if offsetsFit s.par then .next (s.setResult (.keyFrame (keyFrameOf s.par s.rxBuf))) else .fault .outsideBuffer

/-- `DECODE_TP` of `rx_buf` (R173): total, writes nothing; the frame goes to the caller. -/
def execDecodeTp (s : State) : Host.Outcome State Fault Refusal :=
  if offsetsFit s.par then .next (s.setResult (.touchFrame (touchFrameOf s.par s.rxBuf))) else .fault .outsideBuffer

/-- `CRC16` of a byte sequence (R176): writes nothing; the CRC goes to the caller. -/
def execCrc16 (d : List Byte) (s : State) : Host.Outcome State Fault Refusal :=
  .next (s.setResult (.crc (crcOf s.par.crcPoly d)))

/-- `CRC_CHECK` of `tx_buf` (R178; 10_state.md R46): writes nothing; the verdict goes to the caller. -/
def execCrcCheck (s : State) : Host.Outcome State Fault Refusal :=
  .next (s.setResult (.flag (crcCheckOf s.par.crcPoly s.txBuf)))

/-- `BUILD_LED` (R177). -/
def execBuildLed (sequence : Byte) (on : Bool) (s : State) : Host.Outcome State Fault Refusal :=
  .next (s.buildLed sequence on)

end Sys2Proof.Machine
end

