-- ==== Sys2Proof/Machine/Led.lean ====
section
/-! DEFINITION. The LED Command Queue (44_led_queue.md). Each operation is one atomic step, which is the lock of R265. -/

namespace Sys2Proof.Machine

/-- `WTRA`: request an asynchronous write exchange of the command in `tx_buf` (40_transport.md R148). -/
def requestWrite (s : State) : State := s.setWrPending true

/-- `led_have <- led_want; led_inflight <- 1; led_seq <- (led_seq + 1) mod 256` (R262). -/
def State.markSent (s : State) : State :=
  { s with led := { s.led with sent := s.led.want, inflight := true, seq := s.led.seq + 1 } }

/-- `LED_SEND` (R262): the command carries the sequence number before its increment. -/
def ledSend (s : State) : State := requestWrite ((s.buildLed s.led.seq s.led.want).markSent)

def State.setWant (on : Bool) (s : State) : State := { s with led := { s.led with want := on } }

def State.clearInflight (s : State) : State := { s with led := { s.led with inflight := false } }

/-- `LED_REQUEST(on)` (R260): the wanted value is updated in every accepted request; a send starts only when it differs from
the sent value and nothing is in flight (R261). -/
def ledRequest (on : Bool) (s : State) : State :=
  if s.initDone then
    if on ≠ s.led.sent ∧ s.led.inflight = false then ledSend (s.setWant on) else s.setWant on
  else s.raise (.usageError 0x50)

/-- `LED_COMPLETE(o)` (R264): the outcome is not used; a new command is dispatched only while `init_done = 1`. -/
def ledComplete (_o : XferOutcome) (s : State) : State :=
  if s.led.want ≠ s.led.sent ∧ s.initDone then ledSend s.clearInflight else s.clearInflight

/-! ## Meanings -/

/-- `LED_REQUEST` (R260). -/
def execLedRequest (on : Bool) (s : State) : Host.Outcome State Fault Refusal := .next (ledRequest on s)

/-- `LED_SEND` (R262). -/
def execLedSend (s : State) : Host.Outcome State Fault Refusal := .next (ledSend s)

/-- `LED_COMPLETE` (R264). -/
def execLedComplete (o : XferOutcome) (s : State) : Host.Outcome State Fault Refusal := .next (ledComplete o s)

end Sys2Proof.Machine
end

