-- ==== Sys2Proof/Machine/Keyboard.lean ====
section
/-! DEFINITION. The Keyboard State Machine (42_keyboard.md): translation and key-state diffing. -/

namespace Sys2Proof.Machine

/-! ## Translation (R204 to R206) -/

/-- The first entry of `FN_TABLE`, in order and before any entry with from-code 0, whose from-code is `key` (R204, R205). -/
def fnLookup : List FnEntry → Key → Option FnEntry
  | [], _ => none
  | e :: t, key => if e.source = 0 then none else if e.source = key then some e else fnLookup t key

/-- The same for `ISO_TABLE`. -/
def isoLookup : List IsoEntry → Key → Option IsoEntry
  | [], _ => none
  | e :: t, key => if e.source = 0 then none else if e.source = key then some e else isoLookup t key

/-- Whether an entry translates: a flagged entry by mode and Fn state, any other when Fn is held (R205, 90_conflicts.md C1). -/
def fnApplies (fnmode : BitVec 2) (fn : Bool) (e : FnEntry) : Bool :=
  if e.fkey then (fnmode == 1 && !fn) || (fnmode == 2 && fn) else fn

/-- The Fn translation of a key (R205): none in mode `disabled`, first match only (R206 (1)). -/
def fnTranslate (p : Params) (fnmode : BitVec 2) (fn : Bool) (key : Key) : Key :=
  if fnmode = 0 then key
  else
    match fnLookup p.fnTable key with
    | some e => if fnApplies fnmode fn e then e.target else key
    | none => key

/-- The ISO swap of a key (R205), applied once (R206 (4)). -/
def isoTranslate (p : Params) (iso : Bool) (key : Key) : Key :=
  if iso then
    match isoLookup p.isoTable key with
    | some e => e.target
    | none => key
  else key

/-- Both translations of a key from the scancode table, ISO after Fn (R205, R206 (3)). -/
def translateKey (s : State) (fn : Bool) (key : Key) : Key :=
  isoTranslate s.par s.iso (fnTranslate s.par s.fnmode fn key)

/-- `SCANCODE_TABLE[code]` (R202). -/
def scanKey (p : Params) (code : Byte) : Key := p.scan.entry[code.toNat]'(code.isLt)

/-- `CODE_TO_KEY(code, fn)` for a scancode of the table (R205). -/
def codeToKey (s : State) (code : Byte) (fn : Bool) : Key := translateKey s fn (scanKey s.par code)

/-! ## The five steps of `KBD_APPLY` -/

/-- Whether a scancode appears in any of the frame's six slots (R208). -/
def inFrame (f : KeyboardFrame) (c : Byte) : Bool := six.any (fun j => f.keys[j] == c)

def State.setKeyFn (i : Fin 6) (b : Bool) (s : State) : State :=
  { s with kbd := { s.kbd with lastKeysFn := s.kbd.lastKeysFn.set i b } }

/-- What a history slot that holds scancode `c` with Fn bit `fn` reports when it is released (R208 (a) to (c)). -/
def reportRelease (c : Byte) (fn : Bool) (s : State) : State :=
  if c = 0 then s
  else if nScan s.par ≤ c.toNat then s.raise (.boundsViolation c)
  else s.emit [.key (codeToKey s c fn) false]

/-- Step 1 for history slot `i` (R208). -/
def releaseSlot (f : KeyboardFrame) (s : State) (i : Fin 6) : State :=
  if inFrame f s.kbd.lastKeys[i] then s
  else (reportRelease s.kbd.lastKeys[i] s.kbd.lastKeysFn[i] s).setKeyFn i false

/-- Step 2 for frame slot `i` (R209). -/
def pressSlot (f : KeyboardFrame) (s : State) (i : Fin 6) : State :=
  if f.keys[i] = 0 then s
  else if nScan s.par ≤ f.keys[i].toNat then s.raise (.boundsViolation f.keys[i])
  else (s.emit [.key (codeToKey s f.keys[i] f.fn) true]).setKeyFn i f.fn

/-- The eight modifier events of step 3 (R210). -/
def modifierEvents (p : Params) (f : KeyboardFrame) : List Event :=
  eight.map (fun i => .key p.modCodes[i] (f.modifiers.getLsbD i.val))

/-- The Fn event of step 4 (R211). -/
def fnEvents (p : Params) (f : KeyboardFrame) (lastFn : Bool) : List Event :=
  if f.fn = lastFn then [] else [.key p.keyFn f.fn]

/-- Steps 4 and 5: `last_fn <- F.fn`, `last_keys <- F.keys` (R211, R212). -/
def State.persistFrame (f : KeyboardFrame) (s : State) : State :=
  { s with kbd := { s.kbd with lastFn := f.fn, lastKeys := f.keys } }

/-- Step 1, all six history slots in order (R208). -/
def kbdReleases (f : KeyboardFrame) (s : State) : State := six.foldl (releaseSlot f) s

/-- Step 2, all six frame slots in order (R209). -/
def kbdPresses (f : KeyboardFrame) (s : State) : State := six.foldl (pressSlot f) s

/-- `KBD_APPLY(F)` (R207): releases, presses, modifiers, Fn key, persist, in this order. -/
def kbdApply (f : KeyboardFrame) (s : State) : State :=
  let s2 := kbdPresses f (kbdReleases f s)
  (s2.emit (modifierEvents s2.par f ++ fnEvents s2.par f s2.kbd.lastFn)).persistFrame f

/-! ## Meanings -/

/-- `KBD_APPLY` (R207). -/
def execKbdApply (f : KeyboardFrame) (s : State) : Host.Outcome State Fault Refusal := .next (kbdApply f s)

/-- `CODE_TO_KEY` (R205): writes nothing; the key goes to the caller. Its callers guarantee `1 <= code < N_SCAN`; outside that
range no entry is defined and the table's key is a free value (log entry 17). -/
def execCodeToKey (code : Byte) (fn : Bool) (s : State) : Host.Outcome State Fault Refusal :=
  if code ≠ 0 ∧ code.toNat < nScan s.par then .next (s.setResult (.key (codeToKey s code fn)))
  else .next ((s.setResult (.key (translateKey s fn (Config.freeKey s.draws)))).drawn)

end Sys2Proof.Machine
end

