-- ==== Sys2Proof/Machine/Touch.lean ====
section
/-! DEFINITION. The Touch Tracker (43_touch.md): filter, transform, slot assignment, events. -/

namespace Sys2Proof.Machine

/-! ## Filter and transform -/

/-- `TP_FILTER(F)`: the indices of the present fingers, ascending (R232). -/
def presentFingers (f : TouchpadFrame) : List (Fin 6) := six.filter (fun k => f.fingers[k].touchMajor != 0)

/-- `TP_XFORM(f)`: X as it is, Y flipped, wrapped to s32 (R233). -/
def transformFinger (c : Calibration) (f : FingerRec) : Pos := { x := f.absX, y := c.yMin + c.yMax - f.absY }

/-- The transformed positions of the present fingers, in list order (R230). -/
def presentPositions (c : Calibration) (f : TouchpadFrame) : List Pos :=
  (presentFingers f).map (fun k => transformFinger c f.fingers[k])

/-! ## Slot assignment (R234 to R236) -/

/-- The squared distance of a slot and a position, on mathematical integers (R234). -/
def sqDist (sl : Slot) (p : Pos) : Int :=
  (sl.x.toInt - p.x.toInt) * (sl.x.toInt - p.x.toInt) + (sl.y.toInt - p.y.toInt) * (sl.y.toInt - p.y.toInt)

/-- The previously active slots, ascending (R235). -/
def activeSlots (slots : Vector Slot 6) : List (Fin 6) := six.filter (fun s => slots[s].active)

/-- A candidate pair of the greedy loop: distance, slot, finger position in the filtered list. -/
structure Pairing where
  dist   : Int
  slot   : Fin 6
  finger : Nat
  deriving DecidableEq, Repr

/-- The lexicographic order `(d(s, q), s, q)` of R235. -/
def precedes (a b : Pairing) : Bool :=
  decide (a.dist < b.dist)
    || (decide (a.dist = b.dist) && (decide (a.slot < b.slot)
      || (decide (a.slot = b.slot) && decide (a.finger < b.finger))))

/-- The least pairing of a list. -/
def leastPairing : List Pairing → Option Pairing
  | [] => none
  | a :: t =>
    match leastPairing t with
    | none => some a
    | some b => if precedes b a then some b else some a

/-- The pairs of a still unmatched slot and a still unmatched finger. -/
def candidates (slots : Vector Slot 6) (pos : List Pos) (free : List (Fin 6)) (left : List Nat) : List Pairing :=
  free.flatMap (fun s => left.map (fun q => { dist := sqDist slots[s] (pos.getD q default), slot := s, finger := q }))

/-- The state of the loop of R235: unmatched slots `P`, unmatched fingers `Q`, the matches made. -/
structure Matching where
  free    : List (Fin 6)
  left    : List Nat
  matched : List (Nat × Fin 6)
  deriving DecidableEq, Repr

/-- The loop of R235: take the least pair while one is left; at most `n` times. -/
def greedyMatch (slots : Vector Slot 6) (pos : List Pos) : Nat → Matching → Matching
  | 0, m => m
  | n + 1, m =>
    match leastPairing (candidates slots pos m.free m.left) with
    | none => m
    | some c =>
      greedyMatch slots pos n
        { free := m.free.erase c.slot, left := m.left.erase c.finger, matched := (c.finger, c.slot) :: m.matched }

/-- "the least index in 0..5 that is not in prev and not yet in the range of slot_of" (R235, R236). One always exists for at
most six fingers (R236 (2)); the index 5 in the last place is never reached for them (log entry 27). -/
def freshSlot (prev : List (Fin 6)) (matched : List (Nat × Fin 6)) : Fin 6 :=
  (six.find? (fun s => !prev.contains s && !(matched.map Prod.snd).contains s)).getD 5

/-- Fresh slots for the unmatched fingers, in ascending order (R236). -/
def allocateFresh (prev : List (Fin 6)) : List Nat → List (Nat × Fin 6) → List (Nat × Fin 6)
  | [], matched => matched
  | q :: t, matched => allocateFresh prev t ((q, freshSlot prev matched) :: matched)

/-- The slot of finger `q` among the matches. -/
def slotOfFinger (matched : List (Nat × Fin 6)) (q : Nat) : Fin 6 := (matched.lookup q).getD 5

/-- The greedy matching of a list of positions with the previously active slots (R235). -/
def matchFingers (slots : Vector Slot 6) (pos : List Pos) : Matching :=
  greedyMatch slots pos 6 { free := activeSlots slots, left := List.range pos.length, matched := [] }

/-- `TP_ASSIGN(pos)`: `slot_of` as a list over the fingers, and the released slots, ascending (R235). -/
def assignSlots (slots : Vector Slot 6) (pos : List Pos) : List (Fin 6) × List (Fin 6) :=
  let m := matchFingers slots pos
  let all := allocateFresh (activeSlots slots) m.left m.matched
  ((List.range pos.length).map (slotOfFinger all), m.free)

/-! ## Events and slot update -/

/-- The `Finger` record of one present finger (R237): axes doubled, orientation flipped, on s32. -/
def fingerEvent (p : Params) (f : TouchpadFrame) (e : TouchEntry) : Event :=
  .finger e.slot e.pos.x e.pos.y (2 * f.fingers[e.finger].touchMajor) (2 * f.fingers[e.finger].touchMinor)
    (2 * f.fingers[e.finger].toolMajor) (2 * f.fingers[e.finger].toolMinor)
    (p.maxOrientation - f.fingers[e.finger].orientation)

/-- `TP_EMIT(F, cur, pos, slot_of, released)`: the events in order (R237). -/
def touchEvents (p : Params) (f : TouchpadFrame) (entries : List TouchEntry) (released : List (Fin 6)) : List Event :=
  entries.map (fingerEvent p f) ++ released.map .slotReleased ++ [.frameSync, .click f.click]

/-- The list `cur`, `pos`, `slot_of` of R230, zipped. -/
def touchEntries (c : Calibration) (f : TouchpadFrame) (slotOf : List (Fin 6)) : List TouchEntry :=
  (presentFingers f).zipWith
    (fun k s => { finger := k, pos := transformFinger c f.fingers[k], slot := s }) slotOf

/-- `slot_active[s] <- 0`, the position stays (R238). -/
def releaseTouchSlot (slots : Vector Slot 6) (s : Fin 6) : Vector Slot 6 :=
  slots.set s { slots[s] with active := false }

/-- A current finger's slot: active, at the finger's position (R238). -/
def occupySlot (slots : Vector Slot 6) (e : TouchEntry) : Vector Slot 6 :=
  slots.set e.slot { active := true, x := e.pos.x, y := e.pos.y }

/-- The slot update (R238): released slots first, then the fingers in order. -/
def updateSlots (slots : Vector Slot 6) (entries : List TouchEntry) (released : List (Fin 6)) : Vector Slot 6 :=
  entries.foldl occupySlot (released.foldl releaseTouchSlot slots)

def State.setSlots (v : Vector Slot 6) (s : State) : State := { s with slots := v }

/-- `TP_APPLY(F)` (R230). -/
def tpApply (f : TouchpadFrame) (s : State) : State :=
  let a := assignSlots s.slots (presentPositions s.cal f)
  let entries := touchEntries s.cal f a.1
  (s.emit (touchEvents s.par f entries a.2)).setSlots (updateSlots s.slots entries a.2)

/-! ## Meanings -/

/-- `TP_APPLY` (R230). -/
def execTpApply (f : TouchpadFrame) (s : State) : Host.Outcome State Fault Refusal := .next (tpApply f s)

/-- `TP_FILTER` (R232): writes nothing; the list goes to the caller. -/
def execTpFilter (f : TouchpadFrame) (s : State) : Host.Outcome State Fault Refusal :=
  .next (s.setResult (.fingers (presentFingers f)))

/-- `TP_XFORM` (R233): writes nothing; the position goes to the caller. -/
def execTpXform (f : FingerRec) (s : State) : Host.Outcome State Fault Refusal :=
  .next (s.setResult (.pos (transformFinger s.cal f)))

/-- `TP_ASSIGN` (R235): writes nothing; the assignment goes to the caller. -/
def execTpAssign (pos : List Pos) (s : State) : Host.Outcome State Fault Refusal :=
  .next (s.setResult (.assignment (assignSlots s.slots pos).1 (assignSlots s.slots pos).2))

/-- `TP_EMIT` (R237): the event stream only; the released slots in ascending order. -/
def execTpEmit (f : TouchpadFrame) (entries : List TouchEntry) (released : Vector Bool 6) (s : State) :
    Host.Outcome State Fault Refusal :=
  .next (s.emit (touchEvents s.par f entries (six.filter (fun k => released[k]))))

end Sys2Proof.Machine
end

