-- ==== Sys2Proof/Machine/System.lean ====
section
/-! DEFINITION. System operations (45_system.md): configuration, initialisation, shutdown, the event path, dispatch. -/

namespace Sys2Proof.Machine

/-! ## Configuration (R281, R282, R289) -/

/-- The least index of an absent configuration entry (R281, 60_exceptions.md R311 (1)). -/
def leastAbsent (entries : Vector CfgEntry 8) : Option (Fin 8) := eight.find? (fun i => !supplied entries[i])

/-- CSR 0 to 7 and `cfg_valid` after a successful `CFG_LOAD` (R281). -/
def State.storeConfig (v : SpiSettings) (s : State) : State := { s with spi := v, cfgValid := true }

/-- `CFG_LOAD(rec)` (R281): already loaded, absent parameters, word size, in this order (60_exceptions.md R311 (1)). -/
def cfgLoad (entries : Vector CfgEntry 8) (s : State) : State :=
  if s.cfgValid then s.raise (.usageError 0x01)
  else
    match leastAbsent entries with
    | some i => s.raise (.configurationMissing i)
    | none => if entries[1].value ≠ 8 then s.raise (.usageError 0x01) else s.storeConfig (spiOf entries)

def State.setTunablesReg (v : BitVec 3) (s : State) : State := { s with tunables := v }

def State.setCalibration (c : Calibration) (s : State) : State := { s with cal := c }

/-! ## Initialisation and shutdown (R283, R288) -/

/-- `init_done` and `gpe_armed`, which the last lines of `INIT` set and `SHUTDOWN` clears (10_state.md R38). -/
def State.setMode (b : Bool) (s : State) : State := { s with gpeArmed := b, initDone := b }

/-- The loop of `INIT` from index `k` on: start the exchange of packet `k`, or after the last one set both flags and return
`OK` (R283). -/
def initFrom (k : Nat) (s : State) : State :=
  match s.par.initPackets[k]? with
  | some p => s.startSyncWrite (.init k) p
  | none => (s.setMode true).giveBack (.init .ok)

/-- `INIT` when the exchange of packet `k` has outcome `o`: the first failure ends it with both flags 0 (R283). -/
def initResume (o : XferOutcome) (k : Nat) (s : State) : State :=
  if o = .ok then initFrom (k + 1) s else s.giveBack (.init o)

/-! ## The event path (R284, R286, R287) -/

/-- `RDA`: request an asynchronous read; a pending request coalesces (40_transport.md R147). -/
def requestRead (s : State) : State := s.setRdPending true

/-- The GPE trigger: latched while the event source is armed, otherwise lost (R284). -/
def gpeTrigger (s : State) : State := if s.gpeArmed then requestRead s else s

/-- A packet with an unknown tag: the diagnostic error, and a trace record under `TRACE_UNKNOWN` (R287). -/
def dropUnknown (tag : Word16) (s : State) : State :=
  if s.par.traceUnknown then (s.raise (.unrecognizedPacket tag)).logRec (.traceUnknown tag)
  else s.raise (.unrecognizedPacket tag)

/-- `DISPATCH(P)` (R287). -/
def dispatchPacket (m : Memory) (s : State) : State :=
  match classifyPacket s.par.tags m with
  | .nothing => s
  | .keyboard => kbdApply (keyFrameOf s.par m) s
  | .touchpad => tpApply (touchFrameOf s.par m) s
  | .unknown tag => dropUnknown tag s

/-- `RD_COMPLETE(o)`: dispatch the received packet, or discard it (R286). -/
def rdComplete (o : XferOutcome) (s : State) : State := if o = .ok then dispatchPacket s.rxBuf s else s

/-! ## Meanings -/

/-- `NOP` "changes nothing at all and raises nothing" (R280). -/
def execNop (s : State) : Host.Outcome State Fault Refusal := .next s

/-- `CFG_LOAD` (R281). -/
def execCfgLoad (entries : Vector CfgEntry 8) (s : State) : Host.Outcome State Fault Refusal := .next (cfgLoad entries s)

/-- `SET_TUNABLES` (R282): fnmode 3 is refused (10_state.md R25); the undefined argument bits are refused by the decoder. -/
def execSetTunables (fnmode : BitVec 2) (iso : Bool) (s : State) : Host.Outcome State Fault Refusal :=
  if fnmode = 3 then .next (s.raise (.usageError 0x04)) else .next (s.setTunablesReg (tunablesOf fnmode iso))

/-- `SET_CAL` (R289): no precondition, no check. -/
def execSetCal (xMin xMax yMin yMax : Word32) (s : State) : Host.Outcome State Fault Refusal :=
  .next (s.setCalibration { xMin := xMin, xMax := xMax, yMin := yMin, yMax := yMax })

/-- `INIT`, its first step (R283); the later ones are in the completion steps of its exchanges (log entry 12). -/
def execInit (s : State) : Host.Outcome State Fault Refusal :=
  if s.syncReady then .next (initFrom 0 s) else .next (s.refuse 0x02)

/-- `SHUTDOWN` (R288): accepted in any state, cancels nothing. -/
def execShutdown (s : State) : Host.Outcome State Fault Refusal := .next (s.setMode false)

/-- `GPE` (R284). -/
def execGpe (s : State) : Host.Outcome State Fault Refusal := .next (gpeTrigger s)

/-- `RD_COMPLETE` (R286). -/
def execRdComplete (o : XferOutcome) (s : State) : Host.Outcome State Fault Refusal :=
  if o = .ok ∧ offsetsFit s.par = false then .fault .outsideBuffer else .next (rdComplete o s)

/-- `DISPATCH` of `rx_buf` (R287). -/
def execDispatch (s : State) : Host.Outcome State Fault Refusal :=
  if offsetsFit s.par then .next (dispatchPacket s.rxBuf s) else .fault .outsideBuffer

end Sys2Proof.Machine
end

