-- ==== Sys2Proof/Machine/Transport.lean ====
section
/-! DEFINITION. The Transport (40_transport.md): the sequencer, the transfers, completion, the four operations. -/

namespace Sys2Proof.Machine

/-! ## Sharing the channel (R137) -/

def startRead (s : State) : State := (s.setRdPending false).startExchange .asyncRd .rdArm

def startWrite (s : State) : State := (s.setWrPending false).startExchange .asyncWtr .wrCmd

/-- `T_START` (R137). When both requests are pending the choice is `ARB_POLICY`, a free value (log entry 11). Not enabled, the
sequencer has no step and nothing changes (log entry 2). -/
def transportStart (s : State) : State :=
  if s.xport.tstate ≠ .idle then s
  else
    match s.xport.rdPending, s.xport.wrPending with
    | true, true => if Config.arbReadFirst s.draws then startRead s.drawn else startWrite s.drawn
    | true, false => startRead s
    | false, true => startWrite s
    | false, false => s

/-! ## The transfers (R138 to R142) -/

def State.setStatus (bs : List Byte) (s : State) : State := { s with txStatus := Memory.load bs }

def State.setRx (bs : List Byte) (s : State) : State := { s with rxBuf := Memory.load bs }

/-- Transfer 1 of the write exchange (R138). -/
def sendCommand (a : DevAnswer) (s : State) : State :=
  let s1 := s.wireOut [.tx (Memory.bytes s.txBuf 0 packetLen)]
  match a with
  | .fail low => (s1.wireOut [.cs false]).endTransfer (failResult low) .complete
  | .ok _ => s1.endTransfer 256 .wrStatus

/-- Transfer 2 of the write exchange (R139); after a failure `tx_status` holds free bytes (log entry 10). -/
def receiveStatus (a : DevAnswer) (s : State) : State :=
  match a with
  | .fail low =>
    (((s.setStatus (freeBytes s.draws statusLen)).drawn).wireOut [.rx 4 (failResult low), .cs false]).endTransfer
      (failResult low) .complete
  | .ok data =>
    ((s.setStatus (data.toList.take statusLen)).wireOut [.rx 4 4, .cs false, .cs true]).endTransfer
      (s.xport.tRes + 4) .wrResp

/-- Transfer 3 of the write exchange (R140). -/
def receiveResponse (a : DevAnswer) (s : State) : State :=
  match a with
  | .fail low =>
    (((s.setRx (freeBytes s.draws packetLen)).drawn).wireOut [.rx 256 (failResult low), .cs false]).endTransfer
      (failResult low) .complete
  | .ok data =>
    ((s.setRx data.toList).wireOut [.rx 256 256, .cs false]).endTransfer (s.xport.tRes + 256) .complete

/-- The transfer of the read exchange (R142). -/
def receivePacket (a : DevAnswer) (s : State) : State :=
  match a with
  | .fail low =>
    (((s.setRx (freeBytes s.draws packetLen)).drawn).wireOut [.rx 256 (failResult low), .cs false]).endTransfer
      (failResult low) .complete
  | .ok data => ((s.setRx data.toList).wireOut [.rx 256 256, .cs false]).endTransfer 256 .complete

/-- The device's next answer is taken; while it gives none the transfer is not performed and nothing changes
(R149, 70_reset_and_hazards.md R354; log entry 9). -/
def withAnswer (act : DevAnswer → State → State) (s : State) : State :=
  match s.dev with
  | [] => s
  | a :: rest => act a { s with dev := rest }

/-- `T_XFER` (R138 to R142): by `tstate`. Without an exchange at a transfer the sequencer has no step (log entry 2). -/
def transportTransfer (s : State) : State :=
  match s.xport.tstate with
  | .wrCmd => withAnswer sendCommand s
  | .wrStatus => withAnswer receiveStatus s
  | .wrResp => withAnswer receiveResponse s
  | .rdArm => s.goPhase .rdData
  | .rdData => withAnswer receivePacket s
  | .idle => s
  | .complete => s

/-! ## Completion (R143, R144) -/

/-- `STATUS_CHECK` (R144): all four bytes of the accepted pattern, no mask. -/
def statusAccepted (m : Memory) : Bool := Memory.bytes m 0 statusLen == statusAcceptBytes

/-- `ReadOutcome()` without its error action (R143). -/
def readOutcome (s : State) : XferOutcome := if s.xport.tRes.msb then .failTransport else .ok

/-- `WriteOutcome()` without its error action (R143); a failed transfer is tested first (60_exceptions.md R310). -/
def writeOutcome (s : State) : XferOutcome :=
  if s.xport.tRes.msb then .failTransport else if statusAccepted s.txStatus then .ok else .failProtocol

/-- The error an outcome raises (R143). -/
def raiseOutcome (o : XferOutcome) (s : State) : State :=
  match o with
  | .ok => s
  | .failTransport => s.raise (.transportFailure s.xport.tRes)
  | .failProtocol => s.raise (.protocolRejection (BitVec.ofNat 32 (Memory.read s.txStatus 0 4)))

/-- `texch <- X_NONE; tstate <- T_IDLE`: the channel is free. -/
def freeChannel (s : State) : State := s.goExchange .none .idle

/-- The return of a synchronous write exchange: to `INIT`'s loop, or to the host (R143, 45_system.md R283). -/
def returnWrite (o : XferOutcome) (s : State) : State :=
  match s.host with
  | .init k => initResume o k s
  | .ready | .wtr | .rd => s.giveBack (.wtr o (Memory.bytes s.txStatus 0 statusLen) (Memory.bytes s.rxBuf 0 packetLen))

/-- `T_COMPLETE` at `tstate = T_COMPLETE` (R143): outcome, handler, and the channel freed, in one atomic step. `X_NONE` does not
occur there (10_state.md R32). -/
def completeExchange (s : State) : State :=
  match s.xport.texch with
  | .syncWtr => returnWrite (writeOutcome s) (freeChannel (raiseOutcome (writeOutcome s) s))
  | .syncRd =>
    (freeChannel (raiseOutcome (readOutcome s) s)).giveBack (.rd (readOutcome s) (Memory.bytes s.rxBuf 0 packetLen))
  | .asyncRd => freeChannel (rdComplete (readOutcome s) (raiseOutcome (readOutcome s) s))
  | .asyncWtr => ledComplete (writeOutcome s) (freeChannel (raiseOutcome (writeOutcome s) s))
  | .none => freeChannel s

/-- Whether the completion step will dispatch a packet. -/
def willDispatch (s : State) : Bool := decide (s.xport.texch = .asyncRd) && decide (readOutcome s = .ok)

/-! ## Meanings -/

/-- `WTR` (R145). -/
def execWtr (tx : Packet) (s : State) : Host.Outcome State Fault Refusal :=
  if s.syncReady then .next (s.startSyncWrite .wtr tx) else .next (s.refuse 0x10)

/-- `RD` (R146). -/
def execRd (s : State) : Host.Outcome State Fault Refusal :=
  if s.syncReady then .next { s.startExchange .syncRd .rdArm with host := .rd } else .next (s.refuse 0x11)

/-- `RDA` (R147). -/
def execRda (s : State) : Host.Outcome State Fault Refusal := .next (requestRead s)

/-- `WTRA` (R148). -/
def execWtra (s : State) : Host.Outcome State Fault Refusal := .next (requestWrite s)

/-- `STATUS_CHECK` of `tx_status` (R144): writes nothing; the verdict goes to the caller. -/
def execStatusCheck (s : State) : Host.Outcome State Fault Refusal :=
  .next (s.setResult (.flag (statusAccepted s.txStatus)))

/-- `T_START` (R137). -/
def execTStart (s : State) : Host.Outcome State Fault Refusal := .next (transportStart s)

/-- `T_XFER` (R138 to R142). -/
def execTXfer (s : State) : Host.Outcome State Fault Refusal := .next (transportTransfer s)

/-- `T_COMPLETE` (R143). Not enabled, the completion agent has no step (log entry 2). -/
def execTComplete (s : State) : Host.Outcome State Fault Refusal :=
  if s.xport.tstate ≠ .complete then .next s
  else if willDispatch s = true ∧ offsetsFit s.par = false then .fault .outsideBuffer
  else .next (completeExchange s)

end Sys2Proof.Machine
end

