-- ==== Sys2Proof/Machine/Formats.lean ====
section
/-! DEFINITION. The data formats of spec/opcode_table.json: what the block does with a datum of each (30_encoding.md R93, R95, R96,
R97, R100; log entries 18 to 20). -/

namespace Sys2Proof.Machine

/-- A packet with the keyboard tag: dispatched as 45_system.md R287 says (R97). -/
def execPktKeyboard (payload : Vector Byte 254) (s : State) : Host.Outcome State Fault Refusal :=
  if offsetsFit s.par then .next (dispatchPacket (packetMemory s.par.tags.keyboard payload) s) else .fault .outsideBuffer

/-- A packet with the touchpad tag: dispatched as 45_system.md R287 says (R100). -/
def execPktTouchpad (payload : Vector Byte 254) (s : State) : Host.Outcome State Fault Refusal :=
  if offsetsFit s.par then .next (dispatchPacket (packetMemory s.par.tags.touchpad payload) s) else .fault .outsideBuffer

/-- A packet with the nothing tag: "no event, no error and no state change" (R93). -/
def execPktNothing (payload : Vector Byte 254) (s : State) : Host.Outcome State Fault Refusal :=
  .next (dispatchPacket (packetMemory s.par.tags.nothing payload) s)

/-- A write status arrives: `tx_status` holds its four bytes and the status check gives its verdict (R95, 40_transport.md
R144; log entry 19). -/
def receiveStatusWord (bs : List Byte) (s : State) : State :=
  (s.setStatus bs).setResult (.flag (statusAccepted (Memory.load bs)))

/-- The accepted write status (R95). -/
def execStatusAccept (s : State) : Host.Outcome State Fault Refusal := .next (receiveStatusWord statusAcceptBytes s)

/-- The value byte of the LED command: byte 17 of `tx_buf`, 2 = on, 0 = off (R96); no other byte changes. -/
def execLedcmdVal (on : Bool) (s : State) : Host.Outcome State Fault Refusal :=
  .next { s with txBuf := Memory.write s.txBuf 17 1 (ledValueByte on).toNat }

end Sys2Proof.Machine
end

