-- ==== Sys2Proof/Machine/Dispatch.lean ====
section
/-! DEFINITION. The dispatcher: one arm per constructor of `Instr`, each one direct call of its meaning. -/

namespace Sys2Proof.Machine

def exec (i : Instr) (s : State) : Host.Outcome State Fault Refusal :=
  match i with
  | .nop => Sys2Proof.Machine.execNop s
  | .cfgLoad entries => Sys2Proof.Machine.execCfgLoad entries s
  | .init => Sys2Proof.Machine.execInit s
  | .shutdown => Sys2Proof.Machine.execShutdown s
  | .setTunables fnmode iso => Sys2Proof.Machine.execSetTunables fnmode iso s
  | .setCal xMin xMax yMin yMax => Sys2Proof.Machine.execSetCal xMin xMax yMin yMax s
  | .wtr tx => Sys2Proof.Machine.execWtr tx s
  | .rd => Sys2Proof.Machine.execRd s
  | .ledRequest on => Sys2Proof.Machine.execLedRequest on s
  | .gpe => Sys2Proof.Machine.execGpe s
  | .rdComplete o => Sys2Proof.Machine.execRdComplete o s
  | .dispatch => Sys2Proof.Machine.execDispatch s
  | .rda => Sys2Proof.Machine.execRda s
  | .wtra => Sys2Proof.Machine.execWtra s
  | .statusCheck => Sys2Proof.Machine.execStatusCheck s
  | .tStart => Sys2Proof.Machine.execTStart s
  | .tXfer => Sys2Proof.Machine.execTXfer s
  | .tComplete => Sys2Proof.Machine.execTComplete s
  | .classify => Sys2Proof.Machine.execClassify s
  | .decodeKbd => Sys2Proof.Machine.execDecodeKbd s
  | .decodeTp => Sys2Proof.Machine.execDecodeTp s
  | .crc16 d => Sys2Proof.Machine.execCrc16 d s
  | .crcCheck => Sys2Proof.Machine.execCrcCheck s
  | .buildLed sequence on => Sys2Proof.Machine.execBuildLed sequence on s
  | .kbdApply f => Sys2Proof.Machine.execKbdApply f s
  | .codeToKey code fn => Sys2Proof.Machine.execCodeToKey code fn s
  | .tpApply f => Sys2Proof.Machine.execTpApply f s
  | .tpFilter f => Sys2Proof.Machine.execTpFilter f s
  | .tpXform f => Sys2Proof.Machine.execTpXform f s
  | .tpAssign pos => Sys2Proof.Machine.execTpAssign pos s
  | .tpEmit f entries released => Sys2Proof.Machine.execTpEmit f entries released s
  | .ledSend => Sys2Proof.Machine.execLedSend s
  | .ledComplete o => Sys2Proof.Machine.execLedComplete o s
  | .pktKeyboard payload => Sys2Proof.Machine.execPktKeyboard payload s
  | .pktTouchpad payload => Sys2Proof.Machine.execPktTouchpad payload s
  | .pktNothing payload => Sys2Proof.Machine.execPktNothing payload s
  | .statusAccept => Sys2Proof.Machine.execStatusAccept s
  | .ledcmdVal on => Sys2Proof.Machine.execLedcmdVal on s

end Sys2Proof.Machine
end

