-- ==== Sys2Proof/Machine/Fetch.lean ====
section
/-! DEFINITION. What one move of the schedule does: an item is decoded at its port and run; an item that decodes to no instruction
has the effect the spec gives it, or is refused by name (30_encoding.md R106). -/

namespace Sys2Proof.Machine

/-- Whether an item is `LED_REQUEST`, the one host item that may arrive while the host is blocked: "from the sink"
(45_system.md R280). -/
def fromSink (bs : List Byte) : Bool := byteAt bs 0 == 0x50

/-- Whether the agent of an item has no step because the host is blocked (45_system.md R280; log entry 3). -/
def portClosed (p : Port) (bs : List Byte) (s : State) : Bool :=
  decide (p = .host) && decide (s.host ≠ .ready) && !fromSink bs

/-- What an item that decodes to no instruction does. -/
def runReject (r : Reject) (s : State) : Host.Outcome State Fault Refusal :=
  match r with
  | .usage op => .next (s.raise (.usageError op))
  | .unknownTag tag => .next (dropUnknown tag s)
  | .statusMismatch bs => .next (receiveStatusWord bs s)
  | .unknownOperation op => .refused (.unknownOperation op)
  | .badOperands op => .refused (.badOperands op)
  | .ledValue v => .refused (.ledValue v)

/-- An encoded item at a port. -/
def runItem (p : Port) (bs : List Byte) (s : State) : Host.Outcome State Fault Refusal :=
  if portClosed p bs s then .next s
  else
    match decode s.par.tags p bs with
    | .ok i => exec i s
    | .error r => runReject r s

/-- One move of the schedule. -/
def runStim (m : Stim) (s : State) : Host.Outcome State Fault Refusal :=
  match m with
  | .item p bs => runItem p bs s
  | .dev a => .next { s with dev := s.dev ++ [a] }
  | .reset => .next s.assertReset

/-- The schedule item that stands for a table word: its bytes at the port of its row (log entry 22). -/
def tableItem (t : Tags) (nbits w : Nat) : Stim := .item (portOf t nbits (tableBytes nbits w)) (tableBytes nbits w)

/-- The host register under which a move of the host is taken: ready; for any other move it stays. -/
def openHost (m : Stim) (h : HostCont) : HostCont :=
  match m with
  | .item .host _ => .ready
  | _ => h

end Sys2Proof.Machine
end

