-- ==== Sys2Proof/Machine/Step.lean ====
section
/-! DEFINITION. One step of the machine: the next move of the schedule. -/

namespace Sys2Proof.Machine

/-- One step. An ill-formed parameter set is refused (20_memory.md R76). With no move left no agent steps and nothing changes
(70_reset_and_hazards.md R341; log entry 2); otherwise the first move is taken from the schedule and performed. -/
def step (s : State) : Host.Outcome State Fault Refusal :=
  if paramsWf s.par then
    match s.stim with
    | [] => .next s
    | m :: rest => runStim m { s with stim := rest }
  else .refused .parameters

/-- `s` with the table word `w` of `nbits` bits as the next move, before the moves it had (log entries 1, 22). Bytes beyond
`nbits` are zero: the decoder reads bytes that were not supplied as zero. A blocked host is let go where the item is the
host's, since a blocked host has no move. -/
def State.withFetchWord (s : State) (nbits w : Nat) : State :=
  { s with stim := tableItem s.par.tags nbits w :: s.stim, host := openHost (tableItem s.par.tags nbits w) s.host }

end Sys2Proof.Machine
end

