-- ==== Sys2Proof/Safety.lean ====
section
/-! DEFINITION. What counts as a safe run, in the terms the claims use: the consistency of a state (10_state.md R25, R31, R32, R38;
45_system.md R283), the LED queue's consistency (44_led_queue.md R263), the exclusion of synchronous and interrupt-driven
traffic (R283), quiescence (70_reset_and_hazards.md R343), which moves are moves of the block's agents (00_scope.md R8); and
the results of the rules in their own words, with which the claims compare the operations. -/

namespace Sys2Proof.Machine

/-- The exchange kind fits the phase of the sequencer (R31, R32): `X_NONE` exactly at `T_IDLE`, the write phases with a write
exchange, the read phases with a read exchange. -/
def phaseFits (t : TState) (x : TExch) : Bool :=
  match t, x with
  | .idle, .none => true
  | .wrCmd, .syncWtr | .wrCmd, .asyncWtr => true
  | .wrStatus, .syncWtr | .wrStatus, .asyncWtr => true
  | .wrResp, .syncWtr | .wrResp, .asyncWtr => true
  | .rdArm, .syncRd | .rdArm, .asyncRd => true
  | .rdData, .syncRd | .rdData, .asyncRd => true
  | .complete, .syncWtr | .complete, .syncRd | .complete, .asyncRd | .complete, .asyncWtr => true
  | _, _ => false

/-- The host is blocked exactly while its synchronous exchange runs (40_transport.md R145, R146; 45_system.md R283). -/
def hostFits (h : HostCont) (x : TExch) : Bool :=
  match h, x with
  | .ready, .none | .ready, .asyncRd | .ready, .asyncWtr => true
  | .wtr, .syncWtr => true
  | .init _, .syncWtr => true
  | .rd, .syncRd => true
  | _, _ => false

/-- A consistent state: buffers in canonical form, phase, exchange and blocked host agree, no reserved `fnmode`, the two mode
flags equal, and a configuration behind every initialised or blocked host. -/
abbrev Consistent (s : State) : Prop :=
  s.buffersWf = true ∧ phaseFits s.xport.tstate s.xport.texch = true ∧ hostFits s.host s.xport.texch = true
    ∧ s.fnmode ≠ 3 ∧ s.initDone = s.gpeArmed ∧ (s.initDone = true → s.cfgValid = true)
    ∧ (s.host ≠ .ready → s.cfgValid = true)

/-- The LED queue's invariants (R263): at most one command, pending or on the wire, and one exactly while `led_inflight`. -/
abbrev LedConsistent (s : State) : Prop :=
  (s.led.inflight = false → s.xport.wrPending = false ∧ s.xport.texch ≠ .asyncWtr)
    ∧ ¬ (s.xport.wrPending = true ∧ s.xport.texch = .asyncWtr)

/-- Convergence of the LED queue while no `SHUTDOWN` has been executed (R263): an idle queue has sent what is wanted. -/
abbrev LedConverged (s : State) : Prop :=
  (s.led.inflight = true → s.initDone = true) ∧ (s.led.inflight = false → s.led.want = s.led.sent)

/-- The block is quiescent (45_system.md R288, 70_reset_and_hazards.md R343). -/
def quiescent (s : State) : Bool :=
  decide (s.xport.tstate = .idle) && !s.xport.rdPending && !s.xport.wrPending && !s.led.inflight

/-- Whether an operation is issued by an agent of the block's surroundings or one of its own agents, and not by another
operation (00_scope.md R8, 30_encoding.md R105). -/
def byAgent : Instr → Bool
  | .nop | .cfgLoad _ | .init | .shutdown | .setTunables _ _ | .setCal _ _ _ _ | .wtr _ | .rd | .ledRequest _ => true
  | .gpe | .tStart | .tXfer | .tComplete => true
  | .rdComplete _ | .dispatch | .rda | .wtra | .statusCheck | .classify | .decodeKbd | .decodeTp | .crc16 _ | .crcCheck
  | .buildLed _ _ | .kbdApply _ | .codeToKey _ _ | .tpApply _ | .tpFilter _ | .tpXform _ | .tpAssign _ | .tpEmit _ _ _
  | .ledSend | .ledComplete _ | .pktKeyboard _ | .pktTouchpad _ | .pktNothing _ | .statusAccept | .ledcmdVal _ => false

/-- Whether a move of the schedule is an agent's: the reset input, a device answer, any word at the host port, and the internal
operations that the GPE source, the sequencer and the completion agent perform. -/
def agentMove (t : Tags) : Stim → Bool
  | .dev _ => true
  | .reset => true
  | .item .host _ => true
  | .item p bs =>
    match decode t p bs with
    | .ok i => byAgent i
    | .error _ => false

/-- The next move is not the reset input. -/
def notReset (s : State) : Bool :=
  match s.stim with
  | .reset :: _ => false
  | _ => true

/-- A step that ends neither in a fault nor in a refusal. -/
def goesOn (o : Host.Outcome State Fault Refusal) : Bool :=
  match o with
  | .next _ => true
  | .fault _ => false
  | .refused _ => false

/-- `n` steps that go on lead from `s` to `t`. -/
def Steps : Nat → State → State → Prop
  | 0, s, t => t = s
  | n + 1, s, t => ∃ u : State, step s = .next u ∧ Steps n u t

/-! ## Invariants and moves of a run -/

/-- While a synchronous command runs, the event source is off and nothing asynchronous is pending or in flight (45_system.md
R283; 70_reset_and_hazards.md R350 (1)). -/
abbrev SyncExclusive (s : State) : Prop :=
  s.host ≠ .ready → s.initDone = false ∧ s.gpeArmed = false ∧ s.xport.rdPending = false ∧ s.xport.wrPending = false
    ∧ s.led.inflight = false

/-- Every `ERR` bit is set exactly when the log holds a record of its error (60_exceptions.md R301). -/
abbrev ErrLogged (s : State) : Prop :=
  ∀ j : Fin 6, s.err.getLsbD j.val = true ↔ ∃ e : ErrRec, LogRec.err e ∈ s.log ∧ e.code = j

/-- The next move is a `SHUTDOWN` command (45_system.md R288). -/
abbrev ShutdownNext (s : State) : Prop :=
  ∃ bs rest, s.stim = .item .host bs :: rest ∧ decode s.par.tags .host bs = .ok .shutdown

/-- The next move is the completion step (40_transport.md R143). -/
abbrev CompletionNext (s : State) : Prop :=
  ∃ p bs rest, s.stim = .item p bs :: rest ∧ decode s.par.tags p bs = .ok .tComplete

/-- A block as the table of 10_state.md R50 leaves it: every entry of the table that has a value. -/
abbrev AfterReset (s : State) : Prop :=
  s.cfgValid = false ∧ s.tunables = 0 ∧ s.xport.tstate = .idle ∧ s.xport.texch = .none
    ∧ s.xport.rdPending = false ∧ s.xport.wrPending = false
    ∧ (∀ i : Fin 6, s.kbd.lastKeys[i] = 0) ∧ (∀ i : Fin 6, s.kbd.lastKeysFn[i] = false) ∧ s.kbd.lastFn = false
    ∧ (∀ i : Fin 6, s.slots[i].active = false)
    ∧ s.led.want = false ∧ s.led.sent = false ∧ s.led.inflight = false ∧ s.led.seq = 0
    ∧ s.initDone = false ∧ s.gpeArmed = false ∧ s.err = 0 ∧ s.events = [] ∧ s.log = [] ∧ s.wire = []

/-! ## Host words -/

/-- Whether 30_encoding.md R104's table defines the host word: the operation numbers of the table, and the argument bits it
leaves undefined zero. -/
def hostWordDefined (op arg : Byte) : Bool :=
  (([0x00, 0x01, 0x02, 0x03, 0x05, 0x10, 0x11] : List Byte).contains op && arg == 0)
    || (op == 0x04 && arg &&& 0xF8 == 0) || (op == 0x50 && arg &&& 0xFE == 0)

/-! ## Bytes -/

/-- The first `n` bytes of a buffer, lowest offset first. -/
def firstBytes (m : Memory) (n : Nat) : List Byte := (List.range n).map m.get

/-- `sle16` as an integer (00_scope.md R11): two bytes, the lower offset the less significant, in two's complement. -/
def signed16At (m : Memory) (off : Nat) : Int := (m.get (off + 1) ++ m.get off : BitVec 16).toInt

/-- Byte `a` of the packet with the given tag and payload (30_encoding.md R91). -/
def packetByte (tag : Word16) (payload : Vector Byte 254) (a : Nat) : Byte :=
  if a = 0 then tag.extractLsb' 0 8 else if a = 1 then tag.extractLsb' 8 8 else payload.toList.getD (a - 2) 0

/-! ## Keyboard (42_keyboard.md R205, R208 to R212) -/

/-- The first entry of a table, in order and before any entry with from-code 0, whose from-code is `key` (R205). -/
def firstMatch {α : Type} (source : α → Key) (table : List α) (key : Key) : Option α :=
  (table.takeWhile (fun e => source e != 0)).find? (fun e => source e == key)

/-- The key after Fn translation, in R205's words: a flagged entry in `fkeys-last` without Fn or in `fkeys-first` with it, any other
entry with Fn, none in mode `disabled`. -/
def keyAfterFn (p : Params) (fnmode : BitVec 2) (fn : Bool) (key : Key) : Key :=
  match firstMatch FnEntry.source p.fnTable key with
  | none => key
  | some e =>
    if fnmode ≠ 0 ∧ ((e.fkey = true ∧ ((fnmode = 1 ∧ fn = false) ∨ (fnmode = 2 ∧ fn = true)))
        ∨ (e.fkey = false ∧ fn = true)) then e.target else key

/-- The key after the ISO swap (R205). -/
def keyAfterIso (p : Params) (iso : Bool) (key : Key) : Key :=
  match firstMatch IsoEntry.source p.isoTable key with
  | none => key
  | some e => if iso then e.target else key

/-- `CODE_TO_KEY` on a key of the scancode table: the ISO swap after Fn translation (R205). -/
def keyFor (p : Params) (fnmode : BitVec 2) (iso fn : Bool) (key : Key) : Key :=
  keyAfterIso p iso (keyAfterFn p fnmode fn key)

/-- A scancode of the table that stands for a key: `1 <= c < N_SCAN`. -/
def isKey (p : Params) (c : Byte) : Bool := decide (c ≠ 0) && decide (c.toNat < p.scan.last.toNat + 1)

/-- A scancode at or above `N_SCAN` (R214). -/
def outOfBounds (p : Params) (c : Byte) : Bool := decide (p.scan.last.toNat + 1 ≤ c.toNat)

/-- The key of a scancode of the table under the tunables of `s`. -/
def keyOfCode (s : State) (fn : Bool) (c : Byte) : Key := keyFor s.par s.fnmode s.iso fn s.par.scan.entry[c.toNat]

/-- Whether the scancode of history slot `i` is in none of the frame's slots (R208). -/
def goneFrom (f : KeyboardFrame) (s : State) (i : Fin 6) : Bool := decide (¬ ∃ j : Fin 6, f.keys[j] = s.kbd.lastKeys[i])

/-- The history slots whose key is released (R208 (c)), and the frame slots whose key is pressed (R209), ascending. -/
def releasedKeys (f : KeyboardFrame) (s : State) : List (Fin 6) :=
  six.filter (fun i => goneFrom f s i && isKey s.par s.kbd.lastKeys[i])

def pressedKeys (f : KeyboardFrame) (s : State) : List (Fin 6) := six.filter (fun i => isKey s.par f.keys[i])

/-- The scancodes that raise `BoundsViolation`, step 1 before step 2, slots ascending (R214; 60_exceptions.md R311 (3)). -/
def violations (f : KeyboardFrame) (s : State) : List Byte :=
  (six.filter (fun i => goneFrom f s i && outOfBounds s.par s.kbd.lastKeys[i])).map (fun i => s.kbd.lastKeys[i])
    ++ (six.filter (fun i => outOfBounds s.par f.keys[i])).map (fun i => f.keys[i])

/-- The events of one `KBD_APPLY`: releases, presses, eight modifier events, the Fn event (R208 to R211). -/
def frameEvents (f : KeyboardFrame) (s : State) : List Event :=
  (releasedKeys f s).map (fun i => .key (keyOfCode s s.kbd.lastKeysFn[i] s.kbd.lastKeys[i]) false)
    ++ (pressedKeys f s).map (fun i => .key (keyOfCode s f.fn f.keys[i]) true)
    ++ eight.map (fun i => .key s.par.modCodes[i] (f.modifiers.getLsbD i.val))
    ++ (if f.fn = s.kbd.lastFn then [] else [.key s.par.keyFn f.fn])

/-! ## Touch (43_touch.md R233 to R238) -/

/-- The squared distance of R234. -/
def distance (sl : Slot) (p : Pos) : Int := (sl.x.toInt - p.x.toInt) ^ 2 + (sl.y.toInt - p.y.toInt) ^ 2

/-- `(d(s', q'), s', q') <= (d(s, q), s, q)` in the lexicographic order of R235. -/
def pairNotAfter (slots : Vector Slot 6) (s' : Fin 6) (q' : Nat) (p' : Pos) (s : Fin 6) (q : Nat) (p : Pos) : Prop :=
  distance slots[s'] p' < distance slots[s] p
    ∨ (distance slots[s'] p' = distance slots[s] p ∧ (s' < s ∨ (s' = s ∧ q' ≤ q)))

/-- What `TP_ASSIGN` answers, without the loop (R235, R236, R239 (1), (2)). `slot_of` gives every finger a slot of its own;
the released slots are the active ones that no finger got, ascending; the greedy choice: for every active slot and every
finger a pair was taken that shares one of the two and does not come after them in R235's order; the fresh slots are the
least ones that were not active and not given out before. -/
structure Assigned (slots : Vector Slot 6) (pos : List Pos) (slotOf released : List (Fin 6)) : Prop where
  length   : slotOf.length = pos.length
  distinct : slotOf.Nodup
  ascending : released.Pairwise (· < ·)
  released_iff : ∀ s : Fin 6, s ∈ released ↔ slots[s].active = true ∧ s ∉ slotOf
  greedy   : ∀ (s : Fin 6) (q : Nat) (p : Pos), slots[s].active = true → pos[q]? = some p →
    ∃ (s' : Fin 6) (q' : Nat) (p' : Pos), slotOf[q']? = some s' ∧ pos[q']? = some p' ∧ slots[s'].active = true
      ∧ (s' = s ∨ q' = q) ∧ pairNotAfter slots s' q' p' s q p
  fresh    : ∀ (q : Nat) (s : Fin 6), slotOf[q]? = some s → slots[s].active = false →
    ∀ s' : Fin 6, s' < s → slots[s'].active = true ∨ ∃ q' : Nat, q' < q ∧ slotOf[q']? = some s'

/-- The `Finger` record of finger `k` in slot `j` (R237), its numbers wrapped to s32. -/
def fingerRecord (c : Calibration) (p : Params) (f : TouchpadFrame) (k j : Fin 6) : Event :=
  .finger j f.fingers[k].absX (BitVec.ofInt 32 (c.yMin.toInt + c.yMax.toInt - f.fingers[k].absY.toInt))
    (BitVec.ofInt 32 (2 * f.fingers[k].touchMajor.toInt)) (BitVec.ofInt 32 (2 * f.fingers[k].touchMinor.toInt))
    (BitVec.ofInt 32 (2 * f.fingers[k].toolMajor.toInt)) (BitVec.ofInt 32 (2 * f.fingers[k].toolMinor.toInt))
    (BitVec.ofInt 32 (p.maxOrientation.toInt - f.fingers[k].orientation.toInt))

/-- The fingers with a touch-major other than zero, ascending (R232). -/
def touching (f : TouchpadFrame) : List (Fin 6) := six.filter (fun k => decide (f.fingers[k].touchMajor ≠ 0))

/-- Where the touching fingers are, X as it is and Y flipped and wrapped to s32 (R233). -/
def touchPositions (c : Calibration) (f : TouchpadFrame) : List Pos :=
  (touching f).map (fun k =>
    { x := f.fingers[k].absX, y := BitVec.ofInt 32 (c.yMin.toInt + c.yMax.toInt - f.fingers[k].absY.toInt) })

/-- The events of one `TP_APPLY` (R237). -/
def touchRecords (s : State) (f : TouchpadFrame) (slotOf released : List (Fin 6)) : List Event :=
  List.zipWith (fingerRecord s.cal s.par f) (touching f) slotOf ++ released.map .slotReleased
    ++ [.frameSync, .click f.click]

/-! ## LED command (41_codec.md R177) -/

/-- Byte `a` of the LED command, in R96's table; the CRC is that of the bytes 8 to 17 before it. -/
def ledByte (p : Params) (sequence : Byte) (on : Bool) (a : Nat) : Byte :=
  if a = 11 then sequence else if a = 17 then (if on then 2 else 0) else p.ledTemplate.toList.getD a 0

/-- The buffer `m` holds the LED command and nothing else (30_encoding.md R96). -/
structure HoldsLedCommand (p : Params) (sequence : Byte) (on : Bool) (m : Memory) : Prop where
  canonical : Memory.wf packetLen m = true
  fields    : ∀ a : Nat, a < 256 → a ≠ 18 → a ≠ 19 → m.get a = ledByte p sequence on a
  checksum  : m.get 19 ++ m.get 18 = crcOf p.crcPoly ((List.range 10).map (fun i => ledByte p sequence on (8 + i)))

/-! ## Completion (40_transport.md R143) -/

/-- `WriteOutcome()` in state `s`: the outcome `o` and the state `t` after its error action. -/
def WriteVerdict (s : State) (o : XferOutcome) (t : State) : Prop :=
  (s.xport.tRes.toInt < 0 ∧ o = .failTransport ∧ t = s.raise (.transportFailure s.xport.tRes))
    ∨ (0 ≤ s.xport.tRes.toInt ∧ firstBytes s.txStatus 4 ≠ [0xAC, 0x27, 0x68, 0xD5] ∧ o = .failProtocol
        ∧ t = s.raise (.protocolRejection
            (s.txStatus.get 3 ++ s.txStatus.get 2 ++ s.txStatus.get 1 ++ s.txStatus.get 0)))
    ∨ (0 ≤ s.xport.tRes.toInt ∧ firstBytes s.txStatus 4 = [0xAC, 0x27, 0x68, 0xD5] ∧ o = .ok ∧ t = s)

/-- `ReadOutcome()` in state `s`. -/
def ReadVerdict (s : State) (o : XferOutcome) (t : State) : Prop :=
  (s.xport.tRes.toInt < 0 ∧ o = .failTransport ∧ t = s.raise (.transportFailure s.xport.tRes))
    ∨ (0 ≤ s.xport.tRes.toInt ∧ o = .ok ∧ t = s)

end Sys2Proof.Machine
end

