-- ==== Sys2Proof/WellFormed.lean ====
section
/-! DEFINITION. Which terms of `Instr` are operations of the block: the bounds its rules put on operands that the types of
the operands do not already enforce. -/

namespace Sys2Proof

/-- `RD_COMPLETE` gets `OK` or `FAIL_TRANSPORT` only: a read exchange has no status (45_system.md R286,
60_exceptions.md R303). -/
def rdOutcomeOk : XferOutcome → Bool
  | .failProtocol => false
  | _ => true

/-- A frame has at most six present fingers (43_touch.md R232). -/
def fingerCountOk (n : Nat) : Bool := n ≤ 6

/-- The operand of `CRC16` is any byte sequence (R176); the model's own operand encoding carries its length in 16 bits
(log entry 15). -/
def crcLengthOk (n : Nat) : Bool := n < 65536

/-- The operands are in the ranges the rules give them. -/
def Instr.wellFormed : Instr → Bool
  | .rdComplete o => rdOutcomeOk o
  | .crc16 d => crcLengthOk d.length
  | .tpAssign pos => fingerCountOk pos.length
  | .tpEmit _ entries _ => fingerCountOk entries.length
  | .nop | .cfgLoad _ | .init | .shutdown | .setTunables _ _ | .setCal _ _ _ _ | .wtr _ | .rd | .ledRequest _
  | .gpe | .dispatch | .rda | .wtra | .statusCheck | .tStart | .tXfer | .tComplete | .classify | .decodeKbd
  | .decodeTp | .crcCheck | .buildLed _ _ | .kbdApply _ | .codeToKey _ _ | .tpApply _ | .tpFilter _ | .tpXform _
  | .ledSend | .ledComplete _ | .pktKeyboard _ | .pktTouchpad _ | .pktNothing _ | .statusAccept | .ledcmdVal _ => true

end Sys2Proof
end

