-- ==== Sys2Proof/Certificates/Slice0/Obligations.lean ====
section
/-! DEFINITION. The statements for the provers. Each docstring names the rules of spec/ it rests on, and the log entry where a
clause is the model's own choice. "n" in "entry n" is notes/assumptions/n.md. -/

open Sys2Proof Sys2Proof.Machine

/-! ## Reset, steps, parameters -/

/-- 10_state.md R50: the values of the table; the entries it calls unspecified are not spoken of. -/
def Obligations.ResetGivesTheTable : Prop := AfterReset State.reset

/-- 70_reset_and_hazards.md R340: the reset input, in any state, also in the middle of an exchange; the parameters, the device's
answers and the coming moves are outside the block (entry 23). -/
def Obligations.ResetInputRestoresTheTable : Prop :=
  ∀ (s : State) (rest : List Stim), paramsWf s.par = true → s.stim = .reset :: rest →
    ∃ t : State, step s = .next t ∧ AfterReset t ∧ t.host = .ready ∧ t.par = s.par ∧ t.dev = s.dev ∧ t.stim = rest

/-- One step of the machine runs the instruction that its next item decodes to, the item being taken from the schedule
(00_scope.md R9, 45_system.md R280; the schedule is entry 1). -/
def Obligations.StepRunsDecodedInstruction : Prop :=
  ∀ (s : State) (p : Port) (bs : List Byte) (rest : List Stim) (i : Instr), paramsWf s.par = true →
    s.stim = .item p bs :: rest → portClosed p bs s = false → decode s.par.tags p bs = .ok i →
      step s = exec i { s with stim := rest }

/-- The model's choices of entries 1, 2, 3 and 9: with no move left nothing changes (70_reset_and_hazards.md R341: no agent has an
enabled step); a device answer is queued; while the host is blocked (40_transport.md R145: "it has no step") a host word other than
`LED_REQUEST` is taken from the schedule and nothing else changes; a transfer that the device has not answered is not taken
(R354); without a transfer to perform, or an exchange to complete, the agent changes nothing. -/
def Obligations.WaitingChangesNothing : Prop :=
  (∀ s : State, paramsWf s.par = true → s.stim = [] → step s = .next s)
  ∧ (∀ (s : State) (a : DevAnswer) (rest : List Stim), paramsWf s.par = true → s.stim = .dev a :: rest →
      step s = .next { s with stim := rest, dev := s.dev ++ [a] })
  ∧ (∀ (s : State) (bs : List Byte) (rest : List Stim), paramsWf s.par = true → s.stim = .item .host bs :: rest →
      s.host ≠ .ready → byteAt bs 0 ≠ 0x50 → step s = .next { s with stim := rest })
  ∧ (∀ s : State, s.dev = [] → s.xport.tstate ≠ .rdArm → exec .tXfer s = .next s)
  ∧ (∀ s : State, s.xport.tstate = .idle ∨ s.xport.tstate = .complete → exec .tXfer s = .next s)
  ∧ (∀ s : State, s.xport.tstate ≠ .complete → exec .tComplete s = .next s)

/-- 30_encoding.md R104, R106 (5), 45_system.md R280: a host word outside the table, or with an argument bit the table leaves
undefined, gives `UsageError(op)` and changes nothing else. Two clauses are the model's choice: that such a word returns nothing to
the host, also with the number of `INIT`, `WTR` or `RD` (0x0102), is entry 30 (DEDUCED); that a word with the operation byte 0x50 is
the sink's and arrives while the host is blocked is entry 3 (DEDUCED). -/
def Obligations.ReservedHostWordRaisesUsageError : Prop :=
  ∀ (s : State) (bs : List Byte) (rest : List Stim), paramsWf s.par = true → s.stim = .item .host bs :: rest →
    s.host = .ready ∨ byteAt bs 0 = 0x50 → hostWordDefined (byteAt bs 0) (byteAt bs 1) = false →
      step s = .next { s with stim := rest, err := s.err ||| 0b100000
                              log := s.log ++ [.err (.usageError (byteAt bs 0))] }

/-- 20_memory.md R76: a parameter set that fails the conditions is refused, and under one that passes no field is read outside
the 256 bytes of its buffer. The proposed defaults satisfy them. The model's choices: the refusal is `step`'s, at every step, since
the parameters are a field of the state (entry 4, DESIGN CHOICE); no step ends in the model's only fault (entry 29, DESIGN CHOICE);
the default set is that of `Config.params` (entry 5, PRESUMED). -/
def Obligations.OffsetsCheckedOnParameters : Prop :=
  (∀ s : State,
    ¬ (s.par.kbdOffCounter ≤ 255 ∧ s.par.kbdOffMods ≤ 255 ∧ s.par.kbdOffFn ≤ 255 ∧ s.par.kbdOffKeys + 5 ≤ 255
        ∧ s.par.tpOffNFingers.val ≤ 255 ∧ s.par.tpOffClick ≤ 255 ∧ s.par.tpOffFingers + 6 * s.par.fingerStride ≤ 256
        ∧ ∀ o ∈ fingerOffsetList s.par.fo, o + 2 ≤ s.par.fingerStride) →
      step s = .refused .parameters)
  ∧ (∀ (p : Params) (k o : Nat), offsetsFit p = true → k < 6 → o ∈ fingerOffsetList p.fo →
      p.tpOffFingers + k * p.fingerStride + o + 2 ≤ 256)
  ∧ (∀ (s : State) (r : Fault), step s ≠ .fault r)
  ∧ offsetsFit Config.params = true ∧ Config.params.tpOffFingers + 6 * Config.params.fingerStride = 244

/-- 60_exceptions.md R301: the error action sets the kind's sticky bit and appends one log record, and does nothing else. R300,
10_state.md R29: the code of each kind, which is its bit number. -/
def Obligations.ErrorActionSetsBitAndLogs : Prop :=
  (∀ (e : ErrRec) (s : State),
    s.raise e = { s with err := (s.raise e).err, log := s.log ++ [.err e] }
      ∧ ∀ j : Fin 6, (s.raise e).err.getLsbD j.val = (s.err.getLsbD j.val || decide (j = e.code)))
  ∧ (∀ r : Word32, (ErrRec.transportFailure r).code = 0) ∧ (∀ status : Word32, (ErrRec.protocolRejection status).code = 1)
  ∧ (∀ tag : Word16, (ErrRec.unrecognizedPacket tag).code = 2) ∧ (∀ i : Fin 8, (ErrRec.configurationMissing i).code = 3)
  ∧ (∀ c : Byte, (ErrRec.boundsViolation c).code = 4) ∧ (∀ op : Byte, (ErrRec.usageError op).code = 5)

/-- 10_state.md R28: the bits of CSR 13 `STATUS`, with the values of `tstate` (R31) and `texch` (R32). That the
64-bit read-out has zeros above bit 15 is entry 34. -/
def Obligations.StatusRegisterMirrors : Prop :=
  (∀ s : State,
    (s.readCsr 13).getLsbD 0 = s.cfgValid ∧ (s.readCsr 13).getLsbD 1 = s.initDone
    ∧ (s.readCsr 13).getLsbD 2 = s.gpeArmed ∧ (s.readCsr 13).getLsbD 3 = s.xport.rdPending
    ∧ (s.readCsr 13).getLsbD 4 = s.xport.wrPending ∧ (s.readCsr 13).getLsbD 5 = s.led.inflight
    ∧ (s.readCsr 13).getLsbD 6 = s.led.want ∧ (s.readCsr 13).getLsbD 7 = s.led.sent
    ∧ (s.readCsr 13).extractLsb' 8 3 = s.xport.tstate.code ∧ (s.readCsr 13).extractLsb' 11 3 = s.xport.texch.code
    ∧ (s.readCsr 13).getLsbD 14 = s.kbd.lastFn ∧ (s.readCsr 13).extractLsb' 15 49 = 0)
  ∧ TState.idle.code = 0 ∧ TState.wrCmd.code = 1 ∧ TState.wrStatus.code = 2 ∧ TState.wrResp.code = 3 ∧ TState.rdArm.code = 4
  ∧ TState.rdData.code = 5 ∧ TState.complete.code = 6
  ∧ TExch.none.code = 0 ∧ TExch.syncWtr.code = 1 ∧ TExch.syncRd.code = 2 ∧ TExch.asyncRd.code = 3 ∧ TExch.asyncWtr.code = 4

/-! ## Encoding -/

/-- Words written out from 30_encoding.md R92, R95, R96, R104, R105 decode to what they stand for. The model's choices: the tags' values
(entry 5, PRESUMED); that an internal operation is decoded at all, which R105 says it never is from anything (entry 15, DESIGN CHOICE);
that bytes not supplied read as zero, the operands of `TP_APPLY` and the payload of the packet (entry 21, DESIGN CHOICE); the port
that a table word of each width arrives at (entry 22, DESIGN CHOICE). -/
def Obligations.TableWordsDecode : Prop :=
  decodeTableWord 16 0x0504 = some (.setTunables 1 true) ∧ decodeTableWord 16 0x0150 = some (.ledRequest true)
  ∧ decodeTableWord 16 0x0011 = some .rd ∧ decodeTableWord 8 0x15 = some .tStart
  ∧ decodeTableWord 8 0x40 = some (.tpApply (decodeTouchFrame [0x40] 1)) ∧ decodeTableWord 32 0xD56827AC = some .statusAccept
  ∧ decodeTableWord 8 2 = some (.ledcmdVal true) ∧ decodeTableWord 16 0xD040 = some (.pktNothing (Vector.replicate 254 0))
  ∧ decodeTableWord 16 0x0009 = none ∧ decodeTableWord 32 0xD46827AC = none

/-- Decoding an encoded instruction gives it back, every operand at every value, under any assignment of distinct tags
(30_encoding.md R91, R92, R95, R96, R102, R104, R105; the operand bytes of `OP8` operations are entry 15). -/
def Obligations.DecodeInvertsEncode : Prop :=
  ∀ (t : Tags) (i : Instr), tagsDistinct t = true → i.wellFormed = true → decode t (portOfInstr i) (encode t i) = .ok i

/-- What a port accepts is a well-formed instruction of that port's format: a host word never is an internal operation
(45_system.md R280), a packet never a host command. -/
def Obligations.DecodedInstructionBelongsToPort : Prop :=
  ∀ (t : Tags) (p : Port) (bs : List Byte) (i : Instr), decode t p bs = .ok i → i.wellFormed = true ∧ portOfInstr i = p

/-! ## System operations -/

/-- 45_system.md R280, R288, R289: `NOP` changes nothing at all; `SHUTDOWN` clears the two flags in any state and cancels nothing;
`SET_CAL` writes the four values to CSR 9 to 12 in any state. -/
def Obligations.UnconditionalHostCommands : Prop :=
  (∀ s : State, exec .nop s = .next s)
  ∧ (∀ s : State, exec .shutdown s = .next { s with gpeArmed := false, initDone := false })
  ∧ (∀ (xMin xMax yMin yMax : Word32) (s : State),
      exec (.setCal xMin xMax yMin yMax) s
        = .next { s with cal := { xMin := xMin, xMax := xMax, yMin := yMin, yMax := yMax } })

/-- 45_system.md R281, accepted: the eight CSRs take the eight values and `cfg_valid` is set. -/
def Obligations.CfgLoadStoresEightValues : Prop :=
  ∀ (entries : Vector CfgEntry 8) (s : State), s.cfgValid = false → (∀ i : Fin 8, entries[i].present ≠ 0) →
    entries[1].value = 8 →
      ∃ t : State, exec (.cfgLoad entries) s = .next t ∧ t = { s with spi := t.spi, cfgValid := true }
        ∧ ∀ i : Fin 8, t.readCsr (BitVec.ofNat 4 i.val) = entries[i].value

/-- 45_system.md R281 and 60_exceptions.md R311 (1), turned away: already loaded before absent parameters before the word size, the
lowest absent index reported, no CSR written. -/
def Obligations.CfgLoadRefusedInOrder : Prop :=
  ∀ (entries : Vector CfgEntry 8) (s : State),
    (s.cfgValid = true → exec (.cfgLoad entries) s = .next (s.raise (.usageError 0x01)))
    ∧ (s.cfgValid = false → ∀ i : Fin 8, entries[i].present = 0 → (∀ j : Fin 8, j < i → entries[j].present ≠ 0) →
        exec (.cfgLoad entries) s = .next (s.raise (.configurationMissing i)))
    ∧ (s.cfgValid = false → (∀ i : Fin 8, entries[i].present ≠ 0) → entries[1].value ≠ 8 →
        exec (.cfgLoad entries) s = .next (s.raise (.usageError 0x01)))

/-- 45_system.md R282, 10_state.md R25: CSR 8 takes `fnmode` and `iso`; `fnmode = 3` is turned away. That CSR 8 reads
zero-extended is entry 34. -/
def Obligations.SetTunablesWritesCsr8 : Prop :=
  ∀ (fnmode : BitVec 2) (iso : Bool) (s : State),
    (fnmode ≠ 3 → ∃ t : State, exec (.setTunables fnmode iso) s = .next t ∧ t = { s with tunables := t.tunables }
      ∧ t.fnmode = fnmode ∧ t.iso = iso ∧ (t.readCsr 8).toNat = fnmode.toNat + 4 * iso.toNat)
    ∧ (fnmode = 3 → exec (.setTunables fnmode iso) s = .next (s.raise (.usageError 0x04)))

/-- 45_system.md R283: an accepted `INIT` starts the exchange of packet 0 and blocks the host; with no packets it sets both flags
and returns `OK` at once. -/
def Obligations.InitStartsFirstPacket : Prop :=
  ∀ s : State, s.cfgValid = true → s.gpeArmed = false → s.initDone = false → s.xport.tstate = .idle →
    s.xport.rdPending = false → s.xport.wrPending = false → s.led.inflight = false →
      (∀ (p : Packet) (more : List Packet), s.par.initPackets = p :: more →
        ∃ t : State, exec .init s = .next t
          ∧ t = { s with txBuf := t.txBuf, wire := s.wire ++ [.cs true], host := .init 0
                         xport := { s.xport with texch := .syncWtr, tstate := .wrCmd } }
          ∧ firstBytes t.txBuf 256 = p.toList ∧ Memory.wf packetLen t.txBuf = true)
      ∧ (s.par.initPackets = [] →
        exec .init s = .next { s with initDone := true, gpeArmed := true, returns := s.returns ++ [.init .ok]
                                      host := .ready })

/-- 40_transport.md R145, R146, 45_system.md R283, R291: outside its window a blocking command raises `UsageError`, returns
`REFUSED`, and changes nothing else. -/
def Obligations.BlockingCommandRefusedOutsideWindow : Prop :=
  ∀ (s : State) (i : Instr) (op : Byte), (i = .init ∧ op = 0x02 ∨ (∃ tx : Packet, i = .wtr tx ∧ op = 0x10) ∨ i = .rd ∧ op = 0x11) →
    ¬ (s.cfgValid = true ∧ s.gpeArmed = false ∧ s.initDone = false ∧ s.xport.tstate = .idle ∧ s.xport.rdPending = false
        ∧ s.xport.wrPending = false ∧ s.led.inflight = false) →
      exec i s = .next { s with err := s.err ||| 0b100000, log := s.log ++ [.err (.usageError op)]
                                returns := s.returns ++ [.refused op] }

/-- 45_system.md R284, 40_transport.md R147, R148: a GPE trigger sets `rd_pending` while the event source is armed and is lost
otherwise; `RDA` and `WTRA` set their flag; nothing else changes. -/
def Obligations.RequestsLatchPendingFlags : Prop :=
  ∀ s : State,
    exec .gpe s = .next { s with xport := { s.xport with rdPending := s.xport.rdPending || s.gpeArmed } }
    ∧ exec .rda s = .next { s with xport := { s.xport with rdPending := true } }
    ∧ exec .wtra s = .next { s with xport := { s.xport with wrPending := true } }

/-- 45_system.md R286, R287: `DISPATCH` runs the operation the tag selects on the decoded frame, does nothing for the nothing tag,
and drops any other packet with `UnrecognizedPacket`; `RD_COMPLETE(OK)` dispatches `rx_buf`, and after a failed transfer the
packet is discarded. -/
def Obligations.DispatchFollowsTag : Prop :=
  (∀ (s : State) (tag : Word16), offsetsFit s.par = true → tagsDistinct s.par.tags = true →
    tag = s.rxBuf.get 1 ++ s.rxBuf.get 0 →
      (tag = s.par.tags.nothing → exec .dispatch s = .next s)
      ∧ (tag = s.par.tags.keyboard →
          ∃ t : State, exec .dispatch s = .next t ∧ exec (.kbdApply (keyFrameOf s.par s.rxBuf)) s = .next t)
      ∧ (tag = s.par.tags.touchpad →
          ∃ t : State, exec .dispatch s = .next t ∧ exec (.tpApply (touchFrameOf s.par s.rxBuf)) s = .next t)
      ∧ (tag ≠ s.par.tags.nothing → tag ≠ s.par.tags.keyboard → tag ≠ s.par.tags.touchpad →
          exec .dispatch s = .next { s with err := s.err ||| 0b000100
                                            log := s.log ++ [.err (.unrecognizedPacket tag)]
                                              ++ (if s.par.traceUnknown then [.traceUnknown tag] else []) }))
  ∧ (∀ s : State, offsetsFit s.par = true → ∃ t : State, exec (.rdComplete .ok) s = .next t ∧ exec .dispatch s = .next t)
  ∧ (∀ s : State, exec (.rdComplete .failTransport) s = .next s)

/-! ## Codec -/

/-- 41_codec.md R171: the class by the tag in bytes 0 and 1; nothing is written. -/
def Obligations.ClassifyReadsTag : Prop :=
  ∀ (s : State) (tag : Word16), tagsDistinct s.par.tags = true → tag = s.rxBuf.get 1 ++ s.rxBuf.get 0 →
    ∃ c : PktClass, exec .classify s = .next { s with result := .pktClass c }
      ∧ (c = .nothing ↔ tag = s.par.tags.nothing) ∧ (c = .keyboard ↔ tag = s.par.tags.keyboard)
      ∧ (c = .touchpad ↔ tag = s.par.tags.touchpad)
      ∧ (∀ u : Word16, c = .unknown u ↔ u = tag ∧ tag ≠ s.par.tags.nothing ∧ tag ≠ s.par.tags.keyboard
          ∧ tag ≠ s.par.tags.touchpad)

/-- 41_codec.md R172: every packet decodes; nothing is written. -/
def Obligations.DecodeKbdReadsFields : Prop :=
  ∀ s : State, offsetsFit s.par = true →
    ∃ f : KeyboardFrame, exec .decodeKbd s = .next { s with result := .keyFrame f }
      ∧ f.counter = s.rxBuf.get s.par.kbdOffCounter ∧ f.modifiers = s.rxBuf.get s.par.kbdOffMods
      ∧ (∀ i : Fin 6, f.keys[i] = s.rxBuf.get (s.par.kbdOffKeys + i.val))
      ∧ (f.fn = true ↔ s.rxBuf.get s.par.kbdOffFn ≠ 0)

/-- 41_codec.md R173: all six records, each field of the record of 30_encoding.md R101 two bytes in two's complement widened to s32;
nothing is written. That `origin`, which R173's pseudocode leaves out, is among them is entry 35 (DEDUCED). -/
def Obligations.DecodeTpReadsFields : Prop :=
  ∀ s : State, offsetsFit s.par = true →
    ∃ f : TouchpadFrame, exec .decodeTp s = .next { s with result := .touchFrame f }
      ∧ f.nFingers = s.rxBuf.get s.par.tpOffNFingers.val ∧ (f.click = true ↔ s.rxBuf.get s.par.tpOffClick ≠ 0)
      ∧ ∀ (k : Fin 6) (b : Nat), b = s.par.tpOffFingers + k.val * s.par.fingerStride →
          f.fingers[k].origin.toInt = signed16At s.rxBuf (b + s.par.fo.origin)
          ∧ f.fingers[k].absX.toInt = signed16At s.rxBuf (b + s.par.fo.absX)
          ∧ f.fingers[k].absY.toInt = signed16At s.rxBuf (b + s.par.fo.absY)
          ∧ f.fingers[k].relX.toInt = signed16At s.rxBuf (b + s.par.fo.relX)
          ∧ f.fingers[k].relY.toInt = signed16At s.rxBuf (b + s.par.fo.relY)
          ∧ f.fingers[k].toolMajor.toInt = signed16At s.rxBuf (b + s.par.fo.toolMajor)
          ∧ f.fingers[k].toolMinor.toInt = signed16At s.rxBuf (b + s.par.fo.toolMinor)
          ∧ f.fingers[k].orientation.toInt = signed16At s.rxBuf (b + s.par.fo.orientation)
          ∧ f.fingers[k].touchMajor.toInt = signed16At s.rxBuf (b + s.par.fo.touchMajor)
          ∧ f.fingers[k].touchMinor.toInt = signed16At s.rxBuf (b + s.par.fo.touchMinor)
          ∧ f.fingers[k].pressure.toInt = signed16At s.rxBuf (b + s.par.fo.pressure)

/-- 41_codec.md R176: the CRC register byte by byte, its corner cases, and the rule's values under `CRC_POLY = 0xA001`. -/
def Obligations.Crc16FollowsRegister : Prop :=
  ∃ crc : Word16 → List Byte → Word16,
    (∀ (d : List Byte) (s : State), exec (.crc16 d) s = .next { s with result := .crc (crc s.par.crcPoly d) })
    ∧ (∀ poly : Word16, crc poly [] = 0)
    ∧ (∀ (poly : Word16) (d : List Byte) (b : Byte),
        crc poly (d ++ [b])
          = Nat.repeat (fun c : Word16 => if c.getLsbD 0 then (c >>> 1) ^^^ poly else c >>> 1) 8 (crc poly d ^^^ b.setWidth 16))
    ∧ (∀ (poly : Word16) (n : Nat) (d : List Byte), crc poly (List.replicate n 0 ++ d) = crc poly d)
    ∧ crc 0xA001 [0x01] = 0xC0C1 ∧ crc 0xA001 [0x80] = 0xA001 ∧ crc 0xA001 [0xFF] = 0x4040
    ∧ crc 0xA001 [0x31, 0x32, 0x33, 0x34, 0x35, 0x36, 0x37, 0x38, 0x39] = 0xBB3D
    ∧ crc 0xA001 [0x01, 0x02, 0x03, 0x04, 0x05, 0x06, 0x07, 0x08, 0x09, 0x0A] = 0xC4C3

/-- 41_codec.md R177, 30_encoding.md R96: `BUILD_LED` leaves the LED command in `tx_buf` and writes nothing else. -/
def Obligations.BuildLedMakesLedCommand : Prop :=
  ∀ (sequence : Byte) (on : Bool) (s : State),
    ∃ t : State, exec (.buildLed sequence on) s = .next t ∧ t = { s with txBuf := t.txBuf }
      ∧ HoldsLedCommand s.par sequence on t.txBuf

/-- 41_codec.md R178: the verdict of `CRC_CHECK`, and the round trip: after `BUILD_LED` it is true. -/
def Obligations.CrcCheckAfterBuildLed : Prop :=
  (∀ s : State, exec .crcCheck s
    = .next { s with result := .flag (decide (s.txBuf.get 19 ++ s.txBuf.get 18
        = crcOf s.par.crcPoly ((List.range 10).map (fun i => s.txBuf.get (8 + i))))) })
  ∧ (∀ (sequence : Byte) (on : Bool) (s t : State), exec (.buildLed sequence on) s = .next t →
      exec .crcCheck t = .next { t with result := .flag true })

/-! ## Keyboard -/

/-- 42_keyboard.md R205, R206: the key of a scancode in `1 .. N_SCAN-1`; nothing is written. For the scancodes that R205 leaves to
its callers the model's choice (entry 17): the operation runs and its key is one that nothing fixes. -/
def Obligations.CodeToKeyTranslates : Prop :=
  (∀ (code : Byte) (fn : Bool) (s : State), code ≠ 0 → code.toNat < nScan s.par →
    exec (.codeToKey code fn) s
      = .next { s with result := .key (keyFor s.par s.fnmode s.iso fn s.par.scan.entry[code.toNat]) })
  ∧ (∀ (code : Byte) (fn : Bool) (s : State), code = 0 ∨ nScan s.par ≤ code.toNat →
    ∃ k : Key, exec (.codeToKey code fn) s = .next { s with result := .key k, draws := s.draws + 1 })

/-- 42_keyboard.md R207 to R212, R214: the whole effect of `KBD_APPLY`. -/
def Obligations.KbdApplyFiveSteps : Prop :=
  ∀ (f : KeyboardFrame) (s : State),
    ∃ t : State, exec (.kbdApply f) s = .next t
      ∧ t = { s with events := s.events ++ frameEvents f s
                     log := s.log ++ (violations f s).map (fun c => .err (.boundsViolation c))
                     err := s.err ||| (if (violations f s).isEmpty then 0 else 0b010000)
                     kbd := { lastKeys := f.keys, lastKeysFn := t.kbd.lastKeysFn, lastFn := f.fn } }
      ∧ ∀ i : Fin 6, t.kbd.lastKeysFn[i]
          = (if isKey s.par f.keys[i] then f.fn
             else if goneFrom f s i then false else s.kbd.lastKeysFn[i])

/-- 42_keyboard.md R216: `r + p + 8 + t` events, and on a second application `0 + p + 8 + 0` with the history unchanged. -/
def Obligations.KbdEventCountAndFixedPoint : Prop :=
  ∀ (f : KeyboardFrame) (s t u : State), exec (.kbdApply f) s = .next t → exec (.kbdApply f) t = .next u →
    t.events.length = s.events.length + (releasedKeys f s).length + (pressedKeys f s).length + 8
        + (if f.fn = s.kbd.lastFn then 0 else 1)
    ∧ u.events.length = t.events.length + (pressedKeys f s).length + 8
    ∧ u.kbd = t.kbd

/-! ## Touch -/

/-- 43_touch.md R232: the present fingers, ascending; nothing is written. -/
def Obligations.TpFilterListsTouchingFingers : Prop :=
  ∀ (f : TouchpadFrame) (s : State),
    ∃ cur : List (Fin 6), exec (.tpFilter f) s = .next { s with result := .fingers cur }
      ∧ cur.Pairwise (· < ·) ∧ (∀ k : Fin 6, k ∈ cur ↔ f.fingers[k].touchMajor ≠ 0) ∧ cur.length ≤ 6

/-- 43_touch.md R233: X as it is, Y flipped and wrapped to s32, exact within the rule's bound; nothing is written. -/
def Obligations.TpXformFlipsY : Prop :=
  ∀ (f : FingerRec) (s : State),
    ∃ p : Pos, exec (.tpXform f) s = .next { s with result := .pos p } ∧ p.x = f.absX
      ∧ p.y = BitVec.ofInt 32 (s.cal.yMin.toInt + s.cal.yMax.toInt - f.absY.toInt)
      ∧ (-2 ^ 30 < s.cal.yMin.toInt + s.cal.yMax.toInt → s.cal.yMin.toInt + s.cal.yMax.toInt < 2 ^ 30 →
          -32768 ≤ f.absY.toInt → f.absY.toInt ≤ 32767 →
            p.y.toInt = s.cal.yMin.toInt + s.cal.yMax.toInt - f.absY.toInt)

/-- 43_touch.md R235, R236, R239 (1), (2): the greedy nearest-position assignment of up to six fingers; nothing is written. -/
def Obligations.TpAssignIsGreedy : Prop :=
  ∀ (pos : List Pos) (s : State), pos.length ≤ 6 →
    ∃ slotOf released : List (Fin 6), exec (.tpAssign pos) s = .next { s with result := .assignment slotOf released }
      ∧ Assigned s.slots pos slotOf released

/-- 43_touch.md R237: the records of one frame, in order; nothing but the event stream changes. -/
def Obligations.TpEmitAppendsFrame : Prop :=
  ∀ (f : TouchpadFrame) (entries : List TouchEntry) (released : Vector Bool 6) (s : State),
    exec (.tpEmit f entries released) s
      = .next { s with events := s.events
          ++ entries.map (fun e => .finger e.slot e.pos.x e.pos.y
              (BitVec.ofInt 32 (2 * f.fingers[e.finger].touchMajor.toInt))
              (BitVec.ofInt 32 (2 * f.fingers[e.finger].touchMinor.toInt))
              (BitVec.ofInt 32 (2 * f.fingers[e.finger].toolMajor.toInt))
              (BitVec.ofInt 32 (2 * f.fingers[e.finger].toolMinor.toInt))
              (BitVec.ofInt 32 (s.par.maxOrientation.toInt - f.fingers[e.finger].orientation.toInt)))
          ++ (six.filter (fun j => released[j])).map .slotReleased
          ++ [.frameSync, .click f.click] }

/-- 43_touch.md R230, R237, R238: the whole effect of `TP_APPLY`, on the assignment that R235 describes. -/
def Obligations.TpApplyEmitsAndTracks : Prop :=
  ∀ (f : TouchpadFrame) (s : State),
    ∃ (slotOf released : List (Fin 6)) (t : State), Assigned s.slots (touchPositions s.cal f) slotOf released
      ∧ exec (.tpApply f) s = .next t
      ∧ t = { s with events := s.events ++ touchRecords s f slotOf released, slots := t.slots }
      ∧ (∀ (q : Nat) (j : Fin 6) (p : Pos), slotOf[q]? = some j → (touchPositions s.cal f)[q]? = some p →
          t.slots[j] = { active := true, x := p.x, y := p.y })
      ∧ (∀ j : Fin 6, j ∈ released → t.slots[j] = { s.slots[j] with active := false })
      ∧ (∀ j : Fin 6, j ∉ slotOf → j ∉ released → t.slots[j] = s.slots[j])
      ∧ (∀ j : Fin 6, t.slots[j].active = true ↔ j ∈ slotOf)

/-- 43_touch.md R239 (3): with pairwise distinct positions the same frame again gives every finger its slot again, releases
nothing, allocates nothing, and leaves the slots as they are. -/
def Obligations.TouchAssignmentIsStable : Prop :=
  ∀ (f : TouchpadFrame) (s t : State), (touchPositions s.cal f).Nodup → exec (.tpApply f) s = .next t →
    ∃ (slotOf released : List (Fin 6)) (u : State),
      exec (.tpAssign (touchPositions s.cal f)) s = .next { s with result := .assignment slotOf released }
      ∧ exec (.tpAssign (touchPositions t.cal f)) t = .next { t with result := .assignment slotOf [] }
      ∧ exec (.tpApply f) t = .next u ∧ u.slots = t.slots ∧ u.events = t.events ++ touchRecords s f slotOf []

/-! ## LED queue -/

/-- 44_led_queue.md R262: what `LED_SEND` builds and marks. -/
def Obligations.LedSendDispatchesWanted : Prop :=
  ∀ s : State, ∃ t : State, exec .ledSend s = .next t
    ∧ t = { s with txBuf := t.txBuf, xport := { s.xport with wrPending := true }
                   led := { want := s.led.want, sent := s.led.want, inflight := true, seq := s.led.seq + 1 } }
    ∧ HoldsLedCommand s.par s.led.seq s.led.want t.txBuf

/-- 44_led_queue.md R260, R261: an accepted request updates the wanted value, and sends when that differs from the sent one and
nothing is in flight; before initialisation it is dropped, the wanted value included. -/
def Obligations.LedRequestSendsOnceNeeded : Prop :=
  ∀ (on : Bool) (s : State),
    (s.initDone = true → (on = s.led.sent ∨ s.led.inflight = true) →
      exec (.ledRequest on) s = .next { s with led := { s.led with want := on } })
    ∧ (s.initDone = true → on ≠ s.led.sent → s.led.inflight = false →
      ∃ t : State, exec (.ledRequest on) s = .next t
        ∧ t = { s with txBuf := t.txBuf, xport := { s.xport with wrPending := true }
                       led := { want := on, sent := on, inflight := true, seq := s.led.seq + 1 } }
        ∧ HoldsLedCommand s.par s.led.seq on t.txBuf)
    ∧ (s.initDone = false → exec (.ledRequest on) s = .next (s.raise (.usageError 0x50)))

/-- 44_led_queue.md R264: the completion handler clears in-flight and re-checks, whatever the outcome; after `SHUTDOWN` it starts
nothing new. -/
def Obligations.LedCompleteRechecks : Prop :=
  ∀ (o : XferOutcome) (s : State),
    ((s.led.want = s.led.sent ∨ s.initDone = false) →
      exec (.ledComplete o) s = .next { s with led := { s.led with inflight := false } })
    ∧ (s.led.want ≠ s.led.sent → s.initDone = true →
      ∃ t : State, exec (.ledComplete o) s = .next t ∧ exec .ledSend s = .next t)

/-- 44_led_queue.md R267: two requests for `true` while a command is in flight lead to one more command after it completes when
the one in flight carried `false`, and to none when it carried `true`. -/
def Obligations.TwoRequestsOneSend : Prop :=
  ∀ (o : XferOutcome) (s s1 s2 s3 : State), s.initDone = true → s.led.inflight = true →
    exec (.ledRequest true) s = .next s1 → exec (.ledRequest true) s1 = .next s2 → exec (.ledComplete o) s2 = .next s3 →
      s2.led.seq = s.led.seq ∧ s2.txBuf = s.txBuf
      ∧ (s.led.sent = false → s3.led.seq = s.led.seq + 1 ∧ s3.led.inflight = true ∧ s3.xport.wrPending = true
          ∧ HoldsLedCommand s.par s.led.seq true s3.txBuf)
      ∧ (s.led.sent = true → s3.led.seq = s.led.seq ∧ s3.led.inflight = false ∧ s3.txBuf = s.txBuf)

/-! ## Transport -/

/-- 40_transport.md R145, R146: an accepted `WTR` loads `tx_buf` and starts the write exchange, an accepted `RD` starts the read
exchange and loads nothing; both assert chip select and block the host. -/
def Obligations.WtrAndRdStartExchange : Prop :=
  ∀ s : State, s.cfgValid = true → s.gpeArmed = false → s.initDone = false → s.xport.tstate = .idle →
    s.xport.rdPending = false → s.xport.wrPending = false → s.led.inflight = false →
      (∀ tx : Packet, ∃ t : State, exec (.wtr tx) s = .next t
        ∧ t = { s with txBuf := t.txBuf, wire := s.wire ++ [.cs true], host := .wtr
                       xport := { s.xport with texch := .syncWtr, tstate := .wrCmd } }
        ∧ firstBytes t.txBuf 256 = tx.toList ∧ Memory.wf packetLen t.txBuf = true)
      ∧ exec .rd s = .next { s with wire := s.wire ++ [.cs true], host := .rd
                                    xport := { s.xport with texch := .syncRd, tstate := .rdArm } }

/-- 40_transport.md R144: the verdict on all 32 bits of `tx_status`; nothing is written. -/
def Obligations.StatusCheckComparesFourBytes : Prop :=
  ∀ s : State, ∃ b : Bool, exec .statusCheck s = .next { s with result := .flag b }
    ∧ (b = true ↔ s.txStatus.get 0 = 0xAC ∧ s.txStatus.get 1 = 0x27 ∧ s.txStatus.get 2 = 0x68 ∧ s.txStatus.get 3 = 0xD5)

/-- 40_transport.md R137: `T_START` starts a pending exchange; with both pending the free `ARB_POLICY` says which of the two
it starts (entry 11; nothing can be proved of `Config.arbReadFirst`, so both orders are admitted; asking it is counted). Not enabled
it changes nothing (entry 2). -/
def Obligations.TStartStartsPendingExchange : Prop :=
  ∀ (s startRd startWr : State),
    startRd = { s with wire := s.wire ++ [.cs true]
                       xport := { s.xport with rdPending := false, texch := .asyncRd, tstate := .rdArm } } →
    startWr = { s with wire := s.wire ++ [.cs true]
                       xport := { s.xport with wrPending := false, texch := .asyncWtr, tstate := .wrCmd } } →
      (s.xport.tstate = .idle → s.xport.rdPending = true → s.xport.wrPending = false → exec .tStart s = .next startRd)
      ∧ (s.xport.tstate = .idle → s.xport.rdPending = false → s.xport.wrPending = true → exec .tStart s = .next startWr)
      ∧ (s.xport.tstate = .idle → s.xport.rdPending = true → s.xport.wrPending = true →
          exec .tStart s = .next { (if Config.arbReadFirst s.draws then startRd else startWr) with draws := s.draws + 1 })
      ∧ (s.xport.tstate ≠ .idle ∨ (s.xport.rdPending = false ∧ s.xport.wrPending = false) → exec .tStart s = .next s)

/-- 40_transport.md R138 to R142, the device answering in full: each transfer of both exchanges, and the arm delay. -/
def Obligations.TXferMovesOneTransfer : Prop :=
  (∀ s : State, s.xport.tstate = .rdArm → exec .tXfer s = .next { s with xport := { s.xport with tstate := .rdData } })
  ∧ (∀ (s : State) (data : Packet) (rest : List DevAnswer), s.dev = .ok data :: rest →
      (s.xport.tstate = .wrCmd →
        exec .tXfer s = .next { s with dev := rest, wire := s.wire ++ [.tx (firstBytes s.txBuf 256)]
                                       xport := { s.xport with tRes := 256, tstate := .wrStatus } })
      ∧ (s.xport.tstate = .wrStatus →
        ∃ t : State, exec .tXfer s = .next t
          ∧ t = { s with dev := rest, txStatus := t.txStatus, wire := s.wire ++ [.rx 4 4, .cs false, .cs true]
                         xport := { s.xport with tRes := s.xport.tRes + 4, tstate := .wrResp } }
          ∧ firstBytes t.txStatus 4 = data.toList.take 4 ∧ Memory.wf statusLen t.txStatus = true)
      ∧ (s.xport.tstate = .wrResp →
        ∃ t : State, exec .tXfer s = .next t
          ∧ t = { s with dev := rest, rxBuf := t.rxBuf, wire := s.wire ++ [.rx 256 256, .cs false]
                         xport := { s.xport with tRes := s.xport.tRes + 256, tstate := .complete } }
          ∧ firstBytes t.rxBuf 256 = data.toList ∧ Memory.wf packetLen t.rxBuf = true)
      ∧ (s.xport.tstate = .rdData →
        ∃ t : State, exec .tXfer s = .next t
          ∧ t = { s with dev := rest, rxBuf := t.rxBuf, wire := s.wire ++ [.rx 256 256, .cs false]
                         xport := { s.xport with tRes := 256, tstate := .complete } }
          ∧ firstBytes t.rxBuf 256 = data.toList ∧ Memory.wf packetLen t.rxBuf = true))

/-- 40_transport.md R138 to R140, R142, the device failing: the exchange ends, chip select is released, `t_res` holds the negative
result, and the buffer of that transfer holds contents that nothing fixes (entry 10). -/
def Obligations.TXferFailureEndsExchange : Prop :=
  ∀ (s : State) (low : BitVec 31) (rest : List DevAnswer) (r : Word32), s.dev = .fail low :: rest → r = 1#1 ++ low →
    r.toInt < 0
    ∧ (s.xport.tstate = .wrCmd →
      exec .tXfer s = .next { s with dev := rest, wire := s.wire ++ [.tx (firstBytes s.txBuf 256), .cs false]
                                     xport := { s.xport with tRes := r, tstate := .complete } })
    ∧ (s.xport.tstate = .wrStatus →
      ∃ t : State, exec .tXfer s = .next t
        ∧ t = { s with dev := rest, txStatus := t.txStatus, wire := s.wire ++ [.rx 4 r, .cs false], draws := s.draws + 1
                       xport := { s.xport with tRes := r, tstate := .complete } }
        ∧ Memory.wf statusLen t.txStatus = true)
    ∧ (s.xport.tstate = .wrResp ∨ s.xport.tstate = .rdData →
      ∃ t : State, exec .tXfer s = .next t
        ∧ t = { s with dev := rest, rxBuf := t.rxBuf, wire := s.wire ++ [.rx 256 r, .cs false], draws := s.draws + 1
                       xport := { s.xport with tRes := r, tstate := .complete } }
        ∧ Memory.wf packetLen t.rxBuf = true)

/-- 40_transport.md R143, R144, 44_led_queue.md R264, 60_exceptions.md R310: completion of a write exchange for `WTR` and for the
LED queue. -/
def Obligations.TCompleteEndsWrite : Prop :=
  ∀ (s s1 freed : State) (o : XferOutcome), s.xport.tstate = .complete → WriteVerdict s o s1 →
    freed = { s1 with xport := { s1.xport with texch := .none, tstate := .idle } } →
      (s.xport.texch = .syncWtr → s.host = .wtr →
        exec .tComplete s
          = .next { freed with host := .ready
                               returns := s.returns ++ [.wtr o (firstBytes s.txStatus 4) (firstBytes s.rxBuf 256)] })
      ∧ (s.xport.texch = .asyncWtr →
        ∃ t : State, exec .tComplete s = .next t ∧ exec (.ledComplete o) freed = .next t)

/-- 40_transport.md R143, 45_system.md R283: completion of an exchange of `INIT`: the next packet, both flags after the last one, or
the first failure returned. The next exchange starts inside the completion step (entry 12). -/
def Obligations.TCompleteContinuesInit : Prop :=
  ∀ (s s1 freed : State) (o : XferOutcome) (k : Nat), s.xport.tstate = .complete → s.xport.texch = .syncWtr →
    s.host = .init k → WriteVerdict s o s1 →
    freed = { s1 with xport := { s1.xport with texch := .none, tstate := .idle } } →
      (o ≠ .ok → exec .tComplete s = .next { freed with host := .ready, returns := s.returns ++ [.init o] })
      ∧ (o = .ok → s.par.initPackets.length ≤ k + 1 →
        exec .tComplete s
          = .next { freed with host := .ready, returns := s.returns ++ [.init .ok], initDone := true, gpeArmed := true })
      ∧ (o = .ok → ∀ p : Packet, s.par.initPackets[k + 1]? = some p →
        ∃ t : State, exec .tComplete s = .next t
          ∧ t = { freed with txBuf := t.txBuf, wire := s.wire ++ [.cs true], host := .init (k + 1)
                             xport := { freed.xport with texch := .syncWtr, tstate := .wrCmd } }
          ∧ firstBytes t.txBuf 256 = p.toList ∧ Memory.wf packetLen t.txBuf = true)

/-- 40_transport.md R143, 45_system.md R286: completion of a read exchange: for `RD` the packet goes to the host and is not
dispatched; for the event path the handler runs and then the channel is free. -/
def Obligations.TCompleteEndsRead : Prop :=
  ∀ (s s1 : State) (o : XferOutcome), s.xport.tstate = .complete → offsetsFit s.par = true → ReadVerdict s o s1 →
    (s.xport.texch = .syncRd →
      exec .tComplete s
        = .next { s1 with host := .ready, returns := s.returns ++ [.rd o (firstBytes s.rxBuf 256)]
                          xport := { s1.xport with texch := .none, tstate := .idle } })
    ∧ (s.xport.texch = .asyncRd →
      ∃ u : State, exec (.rdComplete o) s1 = .next u
        ∧ exec .tComplete s = .next { u with xport := { u.xport with texch := .none, tstate := .idle } })

/-- 40_transport.md R134, R135, 45_system.md R290: a whole exchange, step after step. A `WTR` and its three transfers leave seven wire
records and return status and response to the host; a GPE trigger and its read leave three and have the packet dispatched. -/
def Obligations.ExchangesRunWhole : Prop :=
  (∀ (s : State) (tx sent status resp : Packet) (rest : List Stim) (more : List DevAnswer), paramsWf s.par = true →
    s.cfgValid = true → s.gpeArmed = false → s.initDone = false → s.xport.tstate = .idle → s.xport.rdPending = false →
    s.xport.wrPending = false → s.led.inflight = false → s.host = .ready →
    s.stim = .item .host (0x10 :: 0x00 :: tx.toList) :: .item .op [0x16] :: .item .op [0x16] :: .item .op [0x16]
      :: .item .op [0x17] :: rest →
    s.dev = .ok sent :: .ok status :: .ok resp :: more →
      ∃ (t : State) (o : XferOutcome), Steps 5 s t
        ∧ t.wire = s.wire ++ [.cs true, .tx tx.toList, .rx 4 4, .cs false, .cs true, .rx 256 256, .cs false]
        ∧ t.returns = s.returns ++ [.wtr o (status.toList.take 4) resp.toList]
        ∧ (o = .ok ↔ status.toList.take 4 = [0xAC, 0x27, 0x68, 0xD5]) ∧ o ≠ .failTransport
        ∧ t.xport = { tstate := .idle, texch := .none, tRes := 516, rdPending := false, wrPending := false }
        ∧ t.host = .ready ∧ t.dev = more ∧ t.stim = rest ∧ t.events = s.events)
  ∧ (∀ (s : State) (data : Packet) (rest : List Stim) (more : List DevAnswer), paramsWf s.par = true →
    s.gpeArmed = true → s.xport.tstate = .idle → s.xport.wrPending = false →
    s.stim = .item .op [0x06] :: .item .op [0x15] :: .item .op [0x16] :: .item .op [0x16] :: .item .op [0x17] :: rest →
    s.dev = .ok data :: more →
      ∃ (t u : State), Steps 5 s t ∧ firstBytes t.rxBuf 256 = data.toList
        ∧ exec .dispatch { s with rxBuf := t.rxBuf } = .next u
        ∧ t = { u with wire := s.wire ++ [.cs true, .rx 256 256, .cs false], dev := more, stim := rest
                       xport := { tstate := .idle, texch := .none, tRes := 256, rdPending := false, wrPending := false } })

/-! ## Data formats -/

/-- 30_encoding.md R97, R100, R93: a packet is dispatched by its tag: its keyboard or touchpad frame is applied, a nothing packet
changes nothing. That the three rows run `DISPATCH` of the packet is entry 18. -/
def Obligations.PacketRowsDispatch : Prop :=
  ∀ (payload : Vector Byte 254) (s : State), offsetsFit s.par = true → tagsDistinct s.par.tags = true →
    (∃ (f : KeyboardFrame) (t : State), exec (.pktKeyboard payload) s = .next t ∧ exec (.kbdApply f) s = .next t
      ∧ f.counter = packetByte s.par.tags.keyboard payload s.par.kbdOffCounter
      ∧ f.modifiers = packetByte s.par.tags.keyboard payload s.par.kbdOffMods
      ∧ (∀ i : Fin 6, f.keys[i] = packetByte s.par.tags.keyboard payload (s.par.kbdOffKeys + i.val))
      ∧ (f.fn = true ↔ packetByte s.par.tags.keyboard payload s.par.kbdOffFn ≠ 0))
    ∧ (∃ (m : Memory) (t : State), exec (.pktTouchpad payload) s = .next t
      ∧ exec (.tpApply (touchFrameOf s.par m)) s = .next t
      ∧ ∀ a : Nat, a < 256 → m.get a = packetByte s.par.tags.touchpad payload a)
    ∧ exec (.pktNothing payload) s = .next s

/-- 30_encoding.md R95, R96, 40_transport.md R144: the accepted status in `tx_status` with the verdict true (entry 19); the value
byte of the LED command, 2 for on and 0 for off, at offset 17 of `tx_buf`, every other byte and all else kept (entry 20). -/
def Obligations.StatusAndLedValueRows : Prop :=
  (∀ s : State, ∃ t : State, exec .statusAccept s = .next t
    ∧ t = { s with txStatus := t.txStatus, result := .flag true }
    ∧ firstBytes t.txStatus 4 = [0xAC, 0x27, 0x68, 0xD5] ∧ Memory.wf statusLen t.txStatus = true)
  ∧ (∀ (on : Bool) (s : State), Memory.wf packetLen s.txBuf = true →
    ∃ t : State, exec (.ledcmdVal on) s = .next t ∧ t = { s with txBuf := t.txBuf }
      ∧ t.txBuf.get 17 = (if on then 2 else 0) ∧ (∀ a : Nat, a ≠ 17 → t.txBuf.get a = s.txBuf.get a)
      ∧ Memory.wf packetLen t.txBuf = true)

/-! ## Buffers -/

/-- 20_memory.md R61, R62: a write stores its bytes, least significant first, and no other; a read gives them back; both on
canonical buffers. -/
def Obligations.MemWriteThenRead : Prop :=
  ∀ (m : Memory) (off n v size : Nat), off + n ≤ size → Memory.wf size m = true →
    Memory.wf size (m.write off n v) = true
    ∧ (∀ i : Nat, i < n → ((m.write off n v).get (off + i)).toNat = v / 256 ^ i % 256)
    ∧ (∀ a : Nat, a < off ∨ off + n ≤ a → (m.write off n v).get a = m.get a)
    ∧ (m.write off n v).read off n = v % 256 ^ n

/-! ## Whole machine -/

/-- The invariants of this section hold right after reset (10_state.md R50). -/
def Obligations.InvariantsHoldAfterReset : Prop :=
  Consistent State.reset ∧ SyncExclusive State.reset ∧ LedConsistent State.reset ∧ LedConverged State.reset
    ∧ ErrLogged State.reset

/-- Every step keeps it (10_state.md R25, R32, R38; 40_transport.md R145, R146; 20_memory.md R62). -/
def Obligations.ConsistentKeptByStep : Prop := ∀ s t : State, Consistent s → step s = .next t → Consistent t

/-- 10_state.md R31, 45_system.md R290 (1), 40_transport.md R137: the orders of the phases, and no other exchange until completion.
The step from `T_COMPLETE` to `T_WR_CMD` is `INIT`'s next exchange inside the completion step (entry 12). -/
def Obligations.PhasesInFixedOrder : Prop :=
  ∀ s t : State, Consistent s → notReset s = true → step s = .next t →
    ((s.xport.tstate, t.xport.tstate) ∈ ([(.idle, .wrCmd), (.idle, .rdArm), (.wrCmd, .wrStatus), (.wrStatus, .wrResp),
        (.wrResp, .complete), (.rdArm, .rdData), (.rdData, .complete), (.wrCmd, .complete), (.wrStatus, .complete),
        (.complete, .idle), (.complete, .wrCmd)] : List (TState × TState))
      ∨ t.xport.tstate = s.xport.tstate)
    ∧ (s.xport.tstate ≠ .idle → s.xport.tstate ≠ .complete → t.xport.texch = s.xport.texch)

/-- 60_exceptions.md R301, 10_state.md R29: an `ERR` bit is set exactly when the log holds a record of that error. -/
def Obligations.ErrLoggedKeptByStep : Prop := ∀ s t : State, ErrLogged s → step s = .next t → ErrLogged t

/-- 10_state.md R29, R24, R27, R38, 70_reset_and_hazards.md R340: only reset clears an `ERR` bit or `cfg_valid`; a loaded
configuration stays; `led_seq` changes only by one; `init_done` becomes 1 only where `INIT` returns `OK`, and 0 again only by
`SHUTDOWN`. -/
def Obligations.RegistersChangeOnlyAsStated : Prop :=
  ∀ s t : State, notReset s = true → step s = .next t →
    (∀ j : Fin 6, s.err.getLsbD j.val = true → t.err.getLsbD j.val = true)
    ∧ (s.cfgValid = true → t.cfgValid = true ∧ t.spi = s.spi)
    ∧ (t.led.seq = s.led.seq ∨ t.led.seq = s.led.seq + 1)
    ∧ (s.initDone = false → t.initDone = true → t.returns = s.returns ++ [.init .ok])
    ∧ (s.initDone = true → t.initDone = false → ShutdownNext s)

/-- 10_state.md R45, R22: the streams only grow at their end, and no step writes a parameter or a table. -/
def Obligations.StreamsOnlyGrow : Prop :=
  ∀ s t : State, step s = .next t →
    t.par = s.par
    ∧ (notReset s = true → s.events <+: t.events ∧ s.log <+: t.log ∧ s.wire <+: t.wire ∧ s.returns <+: t.returns)

/-- 45_system.md R283, 70_reset_and_hazards.md R350 (1): synchronous commands never overlap interrupt-driven traffic, whatever the
agents do. -/
def Obligations.SyncExclusiveKeptByAgents : Prop :=
  ∀ (s t : State) (m : Stim) (rest : List Stim), SyncExclusive s → s.stim = m :: rest → agentMove s.par.tags m = true →
    step s = .next t → SyncExclusive t

/-- 44_led_queue.md R263: at most one LED command is pending or on the wire, and none while nothing is in flight, whatever the
agents do. -/
def Obligations.LedConsistentKeptByAgents : Prop :=
  ∀ (s t : State) (m : Stim) (rest : List Stim), LedConsistent s → s.stim = m :: rest → agentMove s.par.tags m = true →
    step s = .next t → LedConsistent t

/-- 44_led_queue.md R263: while no `SHUTDOWN` is executed, an idle LED queue has sent the wanted value. -/
def Obligations.LedConvergesWithoutShutdown : Prop :=
  ∀ (s t : State) (m : Stim) (rest : List Stim), LedConsistent s → LedConverged s → s.stim = m :: rest →
    agentMove s.par.tags m = true → ¬ ShutdownNext s → step s = .next t → LedConverged t

/-- 10_state.md R51, 20_memory.md R74: while an LED command is in flight, `tx_buf` stays as it was built until the handler or reset: the
one agents' move left out, beside reset, is the completion of the command's own exchange (40_transport.md R151). -/
def Obligations.LedCommandStaysUntilCompleted : Prop :=
  ∀ (s t : State) (m : Stim) (rest : List Stim), SyncExclusive s → s.led.inflight = true → s.stim = m :: rest → m ≠ .reset →
    agentMove s.par.tags m = true → ¬ (s.xport.tstate = .complete ∧ s.xport.texch = .asyncWtr ∧ CompletionNext s) →
    step s = .next t →
      t.txBuf = s.txBuf ∧ t.led.inflight = true
end

