-- ==== Sys2Proof/Laws/Memory.lean ====
section
/-! SUPPORT. The laws of a buffer: what a read gives after a write, and that every operation keeps the canonical form
(20_memory.md R61, R62). -/

namespace Sys2Proof

/-! ## Byte order -/

@[simp] theorem leBytes_length (n v : Nat) : (leBytes n v).length = n := by
  induction n generalizing v with
  | zero => rfl
  | succ n ih => simp [leBytes, ih]

theorem leNat_leBytes (n v : Nat) : leNat (leBytes n v) = v % 256 ^ n := by
  induction n generalizing v with
  | zero => simp [leBytes, leNat, Nat.mod_one]
  | succ n ih =>
    have h : 256 ^ (n + 1) = 256 * 256 ^ n := Nat.pow_succ'
    simp only [leBytes, leNat, ih, BitVec.toNat_ofNat]
    rw [h, Nat.mod_mul, show (2 : Nat) ^ 8 = 256 from rfl]

theorem leNat_lt (bs : List Byte) : leNat bs < 256 ^ bs.length := by
  induction bs with
  | nil => simp [leNat]
  | cons b t ih =>
    simp only [leNat, List.length_cons, Nat.pow_succ]
    have := b.isLt
    omega

theorem leBytes_leNat (bs : List Byte) : leBytes bs.length (leNat bs) = bs := by
  induction bs with
  | nil => rfl
  | cons b t ih =>
    have h : (b.toNat + 256 * leNat t) / 256 = leNat t := by have := b.isLt; omega
    simp only [List.length_cons, leBytes, leNat, h, ih, List.cons.injEq, and_true]
    apply BitVec.eq_of_toNat_eq
    have := b.isLt
    simp only [BitVec.toNat_ofNat]
    omega

theorem leBytes_getElem (n v i : Nat) (h : i < (leBytes n v).length) :
    ((leBytes n v)[i]).toNat = v / 256 ^ i % 256 := by
  induction n generalizing v i with
  | zero => simp [leBytes] at h
  | succ n ih =>
    cases i with
    | zero => simp [leBytes]
    | succ i =>
      simp only [leBytes, List.getElem_cons_succ]
      rw [ih, Nat.div_div_eq_div_mul, Nat.pow_succ, Nat.mul_comm]

@[simp] theorem slice_length (bs : List Byte) (off n : Nat) : (slice bs off n).length = n := by simp [slice]

namespace Machine

/-! ## The canonical form -/

@[simp] theorem Memory.wfFrom_nil (lo size : Nat) : Memory.wfFrom lo size [] = true := rfl

theorem Memory.wfFrom_cons_iff (lo size : Nat) (c : Host.Cell) (t : Memory) :
    Memory.wfFrom lo size (c :: t) = true
      ↔ lo ≤ c.1 ∧ c.1 < size ∧ c.2 ≠ Config.unlistedByte ∧ Memory.wfFrom (c.1 + 1) size t = true := by
  simp [Memory.wfFrom, and_assoc]

theorem Memory.wfFrom_weaken {lo lo' size : Nat} {m : Memory} (h : Memory.wfFrom lo size m = true) (hle : lo' ≤ lo) :
    Memory.wfFrom lo' size m = true := by
  cases m with
  | nil => rfl
  | cons c t =>
    rw [Memory.wfFrom_cons_iff] at h ⊢
    exact ⟨Nat.le_trans hle h.1, h.2⟩

theorem Memory.wfFrom_widen {lo size size' : Nat} {m : Memory} (h : Memory.wfFrom lo size m = true) (hle : size ≤ size') :
    Memory.wfFrom lo size' m = true := by
  induction m generalizing lo with
  | nil => rfl
  | cons c t ih =>
    rw [Memory.wfFrom_cons_iff] at h ⊢
    exact ⟨h.1, Nat.lt_of_lt_of_le h.2.1 hle, h.2.2.1, ih h.2.2.2⟩

theorem Memory.get_below {lo size a : Nat} {m : Memory} (h : Memory.wfFrom lo size m = true) (ha : a < lo) :
    m.get a = Config.unlistedByte := by
  induction m generalizing lo with
  | nil => rfl
  | cons c t ih =>
    rw [Memory.wfFrom_cons_iff] at h
    have hne : c.1 ≠ a := by omega
    simp only [Memory.get, hne, if_false]
    exact ih h.2.2.2 (by omega)

theorem Memory.get_beyond {lo size a : Nat} {m : Memory} (h : Memory.wfFrom lo size m = true) (ha : size ≤ a) :
    m.get a = Config.unlistedByte := by
  induction m generalizing lo with
  | nil => rfl
  | cons c t ih =>
    rw [Memory.wfFrom_cons_iff] at h
    have hne : c.1 ≠ a := by omega
    simp only [Memory.get, hne, if_false]
    exact ih h.2.2.2

theorem Memory.cons_wf {lo size a : Nat} {b : Byte} {t : Memory} (hlo : lo ≤ a) (ha : a < size)
    (h : Memory.wfFrom (a + 1) size t = true) : Memory.wfFrom lo size (Memory.cons a b t) = true := by
  unfold Memory.cons
  split
  · exact Memory.wfFrom_weaken h (by omega)
  · rw [Memory.wfFrom_cons_iff]; exact ⟨hlo, ha, ‹_›, h⟩

theorem Memory.get_cons {size a : Nat} {b : Byte} {t : Memory} (h : Memory.wfFrom (a + 1) size t = true) (a' : Nat) :
    (Memory.cons a b t).get a' = if a' = a then b else t.get a' := by
  unfold Memory.cons
  split
  · split
    · subst_vars; exact Memory.get_below h (by omega)
    · rfl
  · simp only [Memory.get, eq_comm]

/-! ## One byte -/

theorem Memory.put_wf {lo size a : Nat} {m : Memory} (h : Memory.wfFrom lo size m = true) (hlo : lo ≤ a) (ha : a < size)
    (b : Byte) : Memory.wfFrom lo size (m.put a b) = true := by
  induction m generalizing lo with
  | nil => exact Memory.cons_wf hlo ha rfl
  | cons c t ih =>
    obtain ⟨h1, h2, h3, h4⟩ := (Memory.wfFrom_cons_iff ..).1 h
    simp only [Memory.put]
    split
    · exact Memory.cons_wf hlo ha ((Memory.wfFrom_cons_iff ..).2 ⟨by omega, h2, h3, h4⟩)
    · split
      · subst_vars; exact Memory.cons_wf hlo ha h4
      · exact (Memory.wfFrom_cons_iff ..).2 ⟨h1, h2, h3, ih h4 (by omega)⟩

theorem Memory.get_put {lo size a : Nat} {m : Memory} (h : Memory.wfFrom lo size m = true) (b : Byte) (a' : Nat) :
    (m.put a b).get a' = if a' = a then b else m.get a' := by
  induction m generalizing lo with
  | nil => exact Memory.get_cons (size := size) rfl a'
  | cons c t ih =>
    obtain ⟨h1, h2, h3, h4⟩ := (Memory.wfFrom_cons_iff ..).1 h
    simp only [Memory.put]
    split
    · exact Memory.get_cons (size := size) ((Memory.wfFrom_cons_iff ..).2 ⟨by omega, h2, h3, h4⟩) a'
    · split
      · subst_vars
        rw [Memory.get_cons h4]
        simp only [Memory.get, eq_comm]
        split <;> rfl
      · simp only [Memory.get]
        split
        · subst_vars
          have : c.1 ≠ a := by omega
          simp [this]
        · exact ih h4

/-! ## Several bytes -/

theorem Memory.putBytes_wf {lo size a : Nat} {m : Memory} (bs : List Byte) (h : Memory.wfFrom lo size m = true) (hlo : lo ≤ a)
    (ha : a + bs.length ≤ size) : Memory.wfFrom lo size (m.putBytes a bs) = true := by
  induction bs generalizing m a with
  | nil => exact h
  | cons b t ih =>
    simp only [List.length_cons] at ha
    exact ih (Memory.put_wf h hlo (by omega) b) (by omega) (by omega)

theorem Memory.get_putBytes {lo size a : Nat} {m : Memory} (bs : List Byte) (h : Memory.wfFrom lo size m = true) (hlo : lo ≤ a)
    (ha : a + bs.length ≤ size) (a' : Nat) :
    (m.putBytes a bs).get a' = if a ≤ a' ∧ a' < a + bs.length then bs.getD (a' - a) Config.unlistedByte else m.get a' := by
  induction bs generalizing m a with
  | nil => simp only [Memory.putBytes, List.length_nil]; rw [if_neg (by omega)]
  | cons b t ih =>
    simp only [List.length_cons] at ha ⊢
    simp only [Memory.putBytes]
    rw [ih (Memory.put_wf h hlo (by omega) b) (by omega) (by omega), Memory.get_put h]
    by_cases h1 : a' = a
    · subst h1
      rw [if_neg (by omega), if_pos rfl, if_pos (by omega)]
      simp
    · by_cases h2 : a + 1 ≤ a' ∧ a' < a + 1 + t.length
      · rw [if_pos h2, if_pos (by omega)]
        obtain ⟨k, rfl⟩ : ∃ k, a' = a + 1 + k := ⟨a' - (a + 1), by omega⟩
        have e1 : a + 1 + k - (a + 1) = k := by omega
        have e2 : a + 1 + k - a = k + 1 := by omega
        rw [e1, e2, List.getD_cons_succ]
      · rw [if_neg h2, if_neg h1, if_neg (by omega)]

theorem Memory.loadFrom_wf {size : Nat} (a : Nat) (bs : List Byte) (h : a + bs.length ≤ size) :
    Memory.wfFrom a size (Memory.loadFrom a bs) = true := by
  induction bs generalizing a with
  | nil => rfl
  | cons b t ih =>
    simp only [List.length_cons] at h
    exact Memory.cons_wf (Nat.le_refl a) (by omega) (ih (a + 1) (by omega))

theorem Memory.get_loadFrom (a : Nat) (bs : List Byte) (a' : Nat) :
    (Memory.loadFrom a bs).get a' = if a ≤ a' then bs.getD (a' - a) Config.unlistedByte else Config.unlistedByte := by
  induction bs generalizing a with
  | nil => simp [Memory.loadFrom, Memory.get]
  | cons b t ih =>
    simp only [Memory.loadFrom]
    rw [Memory.get_cons (size := a + 1 + t.length) (Memory.loadFrom_wf (a + 1) t (by omega)), ih]
    by_cases h1 : a' = a
    · subst h1; simp
    · rw [if_neg h1]
      by_cases h2 : a + 1 ≤ a'
      · rw [if_pos h2, if_pos (by omega)]
        obtain ⟨k, rfl⟩ : ∃ k, a' = a + 1 + k := ⟨a' - (a + 1), by omega⟩
        have e1 : a + 1 + k - (a + 1) = k := by omega
        have e2 : a + 1 + k - a = k + 1 := by omega
        rw [e1, e2, List.getD_cons_succ]
      · rw [if_neg h2, if_neg (by omega)]

/-- A whole-buffer write of a buffer's length keeps the canonical form. -/
theorem Memory.load_wf {size : Nat} (bs : List Byte) (h : bs.length ≤ size) : Memory.wf size (Memory.load bs) = true :=
  Memory.loadFrom_wf 0 bs (by omega)

/-- What a buffer holds after a whole-buffer write. -/
theorem Memory.get_load (bs : List Byte) (a : Nat) : (Memory.load bs).get a = bs.getD a Config.unlistedByte := by
  simp [Memory.load, Memory.get_loadFrom]

/-- `MemWrite` inside a buffer keeps the canonical form (R62). -/
theorem Memory.write_wf {size off n : Nat} {m : Memory} (h : Memory.wf size m = true) (hr : off + n ≤ size) (v : Nat) :
    Memory.wf size (m.write off n v) = true :=
  Memory.putBytes_wf _ h (Nat.zero_le _) (by simpa using hr)

/-- What a buffer holds after `MemWrite` (R62). -/
theorem Memory.get_write {size off n : Nat} {m : Memory} (h : Memory.wf size m = true) (hr : off + n ≤ size) (v a : Nat) :
    (m.write off n v).get a
      = if off ≤ a ∧ a < off + n then (leBytes n v).getD (a - off) Config.unlistedByte else m.get a := by
  have := Memory.get_putBytes (leBytes n v) h (Nat.zero_le off) (by simpa using hr) a
  simpa [Memory.write] using this

/-! ## Reads -/

@[simp] theorem Memory.bytes_length (m : Memory) (off n : Nat) : (m.bytes off n).length = n := by simp [Memory.bytes]

theorem Memory.bytes_getElem (m : Memory) (off n i : Nat) (h : i < (m.bytes off n).length) :
    (m.bytes off n)[i] = m.get (off + i) := by simp [Memory.bytes]

theorem Memory.bytes_eq_range (m : Memory) (off n : Nat) :
    m.bytes off n = (List.range n).map (fun i => m.get (off + i)) := by
  apply List.ext_getElem <;> simp [Memory.bytes]

theorem Memory.bytes_congr {m m' : Memory} {off n : Nat} (h : ∀ i, i < n → m.get (off + i) = m'.get (off + i)) :
    m.bytes off n = m'.bytes off n := by
  apply List.ext_getElem
  · simp
  · intro i h1 h2
    simp only [Memory.bytes_length] at h1
    rw [Memory.bytes_getElem, Memory.bytes_getElem, h i h1]

/-- A buffer loaded with all its bytes reads back as them. -/
theorem Memory.bytes_load (bs : List Byte) : (Memory.load bs).bytes 0 bs.length = bs := by
  apply List.ext_getElem
  · simp
  · intro i h1 h2
    rw [Memory.bytes_getElem, Memory.get_load, Nat.zero_add, List.getD_eq_getElem?_getD, List.getElem?_eq_getElem h2,
      Option.getD_some]

/-- `MemRead` of the bytes a `MemWrite` stored (R61, R62). -/
theorem Memory.bytes_write {size off n : Nat} {m : Memory} (h : Memory.wf size m = true) (hr : off + n ≤ size) (v : Nat) :
    (m.write off n v).bytes off n = leBytes n v := by
  apply List.ext_getElem
  · simp
  · intro i h1 h2
    rw [Memory.bytes_getElem, Memory.get_write h hr]
    simp only [leBytes_length] at h2
    rw [if_pos (by omega), Nat.add_sub_cancel_left, List.getD_eq_getElem?_getD,
      List.getElem?_eq_getElem (by simpa using h2), Option.getD_some]

/-- Two canonical buffers that read alike are equal data. -/
theorem Memory.ext_of_wf {lo size : Nat} {m m' : Memory} (h : Memory.wfFrom lo size m = true)
    (h' : Memory.wfFrom lo size m' = true) (he : ∀ a, m.get a = m'.get a) : m = m' := by
  induction m generalizing lo m' with
  | nil =>
    cases m' with
    | nil => rfl
    | cons c t =>
      obtain ⟨_, _, h3, _⟩ := (Memory.wfFrom_cons_iff ..).1 h'
      have := he c.1
      simp [Memory.get] at this
      exact absurd this.symm h3
  | cons c t ih =>
    obtain ⟨h1, h2, h3, h4⟩ := (Memory.wfFrom_cons_iff ..).1 h
    cases m' with
    | nil =>
      have := he c.1
      simp [Memory.get] at this
      exact absurd this h3
    | cons c' t' =>
      obtain ⟨k1, k2, k3, k4⟩ := (Memory.wfFrom_cons_iff ..).1 h'
      have hc : c.1 = c'.1 := by
        rcases Nat.lt_trichotomy c.1 c'.1 with hlt | heq | hgt
        · have := he c.1
          rw [Memory.get_below ((Memory.wfFrom_cons_iff ..).2 ⟨Nat.le_refl _, k2, k3, k4⟩) hlt] at this
          simp [Memory.get] at this
          exact absurd this h3
        · exact heq
        · have := he c'.1
          rw [Memory.get_below ((Memory.wfFrom_cons_iff ..).2 ⟨Nat.le_refl _, h2, h3, h4⟩) hgt] at this
          simp [Memory.get] at this
          exact absurd this.symm k3
      have hv : c.2 = c'.2 := by
        have := he c.1
        simpa [Memory.get, hc] using this
      have ht : t = t' := by
        refine ih h4 (hc ▸ k4) fun a => ?_
        by_cases ha : a = c.1
        · subst ha
          rw [Memory.get_below h4 (by omega), Memory.get_below k4 (by omega)]
        · have := he a
          have e1 : c.1 ≠ a := fun e => ha e.symm
          have e2 : c'.1 ≠ a := fun e => ha (by omega)
          simpa [Memory.get, e1, e2] using this
      rw [ht, Prod.ext hc hv]

/-- The buffers are in canonical form after reset. -/
theorem State.reset_buffersWf : State.reset.buffersWf = true := by decide

end Machine

end Sys2Proof
end

