-- ==== Sys2Proof/Laws/State.lean ====
section
/-! SUPPORT. What each named update of `State` does to each field: one lemma per field per update, by definition. -/

namespace Sys2Proof.Machine

/-! ## emit -/

@[simp] theorem State.emit_par (es : List Event) (s : State) : (s.emit es).par = s.par := rfl
@[simp] theorem State.emit_txBuf (es : List Event) (s : State) : (s.emit es).txBuf = s.txBuf := rfl
@[simp] theorem State.emit_txStatus (es : List Event) (s : State) : (s.emit es).txStatus = s.txStatus := rfl
@[simp] theorem State.emit_rxBuf (es : List Event) (s : State) : (s.emit es).rxBuf = s.rxBuf := rfl
@[simp] theorem State.emit_spi (es : List Event) (s : State) : (s.emit es).spi = s.spi := rfl
@[simp] theorem State.emit_cfgValid (es : List Event) (s : State) : (s.emit es).cfgValid = s.cfgValid := rfl
@[simp] theorem State.emit_tunables (es : List Event) (s : State) : (s.emit es).tunables = s.tunables := rfl
@[simp] theorem State.emit_cal (es : List Event) (s : State) : (s.emit es).cal = s.cal := rfl
@[simp] theorem State.emit_xport (es : List Event) (s : State) : (s.emit es).xport = s.xport := rfl
@[simp] theorem State.emit_kbd (es : List Event) (s : State) : (s.emit es).kbd = s.kbd := rfl
@[simp] theorem State.emit_slots (es : List Event) (s : State) : (s.emit es).slots = s.slots := rfl
@[simp] theorem State.emit_led (es : List Event) (s : State) : (s.emit es).led = s.led := rfl
@[simp] theorem State.emit_initDone (es : List Event) (s : State) : (s.emit es).initDone = s.initDone := rfl
@[simp] theorem State.emit_gpeArmed (es : List Event) (s : State) : (s.emit es).gpeArmed = s.gpeArmed := rfl
@[simp] theorem State.emit_err (es : List Event) (s : State) : (s.emit es).err = s.err := rfl
@[simp] theorem State.emit_events (es : List Event) (s : State) : (s.emit es).events = s.events ++ es := rfl
@[simp] theorem State.emit_log (es : List Event) (s : State) : (s.emit es).log = s.log := rfl
@[simp] theorem State.emit_wire (es : List Event) (s : State) : (s.emit es).wire = s.wire := rfl
@[simp] theorem State.emit_host (es : List Event) (s : State) : (s.emit es).host = s.host := rfl
@[simp] theorem State.emit_returns (es : List Event) (s : State) : (s.emit es).returns = s.returns := rfl
@[simp] theorem State.emit_result (es : List Event) (s : State) : (s.emit es).result = s.result := rfl
@[simp] theorem State.emit_dev (es : List Event) (s : State) : (s.emit es).dev = s.dev := rfl
@[simp] theorem State.emit_stim (es : List Event) (s : State) : (s.emit es).stim = s.stim := rfl
@[simp] theorem State.emit_draws (es : List Event) (s : State) : (s.emit es).draws = s.draws := rfl

/-! ## logRec -/

@[simp] theorem State.logRec_par (l : LogRec) (s : State) : (s.logRec l).par = s.par := rfl
@[simp] theorem State.logRec_txBuf (l : LogRec) (s : State) : (s.logRec l).txBuf = s.txBuf := rfl
@[simp] theorem State.logRec_txStatus (l : LogRec) (s : State) : (s.logRec l).txStatus = s.txStatus := rfl
@[simp] theorem State.logRec_rxBuf (l : LogRec) (s : State) : (s.logRec l).rxBuf = s.rxBuf := rfl
@[simp] theorem State.logRec_spi (l : LogRec) (s : State) : (s.logRec l).spi = s.spi := rfl
@[simp] theorem State.logRec_cfgValid (l : LogRec) (s : State) : (s.logRec l).cfgValid = s.cfgValid := rfl
@[simp] theorem State.logRec_tunables (l : LogRec) (s : State) : (s.logRec l).tunables = s.tunables := rfl
@[simp] theorem State.logRec_cal (l : LogRec) (s : State) : (s.logRec l).cal = s.cal := rfl
@[simp] theorem State.logRec_xport (l : LogRec) (s : State) : (s.logRec l).xport = s.xport := rfl
@[simp] theorem State.logRec_kbd (l : LogRec) (s : State) : (s.logRec l).kbd = s.kbd := rfl
@[simp] theorem State.logRec_slots (l : LogRec) (s : State) : (s.logRec l).slots = s.slots := rfl
@[simp] theorem State.logRec_led (l : LogRec) (s : State) : (s.logRec l).led = s.led := rfl
@[simp] theorem State.logRec_initDone (l : LogRec) (s : State) : (s.logRec l).initDone = s.initDone := rfl
@[simp] theorem State.logRec_gpeArmed (l : LogRec) (s : State) : (s.logRec l).gpeArmed = s.gpeArmed := rfl
@[simp] theorem State.logRec_err (l : LogRec) (s : State) : (s.logRec l).err = s.err := rfl
@[simp] theorem State.logRec_events (l : LogRec) (s : State) : (s.logRec l).events = s.events := rfl
@[simp] theorem State.logRec_log (l : LogRec) (s : State) : (s.logRec l).log = s.log ++ [l] := rfl
@[simp] theorem State.logRec_wire (l : LogRec) (s : State) : (s.logRec l).wire = s.wire := rfl
@[simp] theorem State.logRec_host (l : LogRec) (s : State) : (s.logRec l).host = s.host := rfl
@[simp] theorem State.logRec_returns (l : LogRec) (s : State) : (s.logRec l).returns = s.returns := rfl
@[simp] theorem State.logRec_result (l : LogRec) (s : State) : (s.logRec l).result = s.result := rfl
@[simp] theorem State.logRec_dev (l : LogRec) (s : State) : (s.logRec l).dev = s.dev := rfl
@[simp] theorem State.logRec_stim (l : LogRec) (s : State) : (s.logRec l).stim = s.stim := rfl
@[simp] theorem State.logRec_draws (l : LogRec) (s : State) : (s.logRec l).draws = s.draws := rfl

/-! ## wireOut -/

@[simp] theorem State.wireOut_par (ws : List WireRec) (s : State) : (s.wireOut ws).par = s.par := rfl
@[simp] theorem State.wireOut_txBuf (ws : List WireRec) (s : State) : (s.wireOut ws).txBuf = s.txBuf := rfl
@[simp] theorem State.wireOut_txStatus (ws : List WireRec) (s : State) : (s.wireOut ws).txStatus = s.txStatus := rfl
@[simp] theorem State.wireOut_rxBuf (ws : List WireRec) (s : State) : (s.wireOut ws).rxBuf = s.rxBuf := rfl
@[simp] theorem State.wireOut_spi (ws : List WireRec) (s : State) : (s.wireOut ws).spi = s.spi := rfl
@[simp] theorem State.wireOut_cfgValid (ws : List WireRec) (s : State) : (s.wireOut ws).cfgValid = s.cfgValid := rfl
@[simp] theorem State.wireOut_tunables (ws : List WireRec) (s : State) : (s.wireOut ws).tunables = s.tunables := rfl
@[simp] theorem State.wireOut_cal (ws : List WireRec) (s : State) : (s.wireOut ws).cal = s.cal := rfl
@[simp] theorem State.wireOut_xport (ws : List WireRec) (s : State) : (s.wireOut ws).xport = s.xport := rfl
@[simp] theorem State.wireOut_kbd (ws : List WireRec) (s : State) : (s.wireOut ws).kbd = s.kbd := rfl
@[simp] theorem State.wireOut_slots (ws : List WireRec) (s : State) : (s.wireOut ws).slots = s.slots := rfl
@[simp] theorem State.wireOut_led (ws : List WireRec) (s : State) : (s.wireOut ws).led = s.led := rfl
@[simp] theorem State.wireOut_initDone (ws : List WireRec) (s : State) : (s.wireOut ws).initDone = s.initDone := rfl
@[simp] theorem State.wireOut_gpeArmed (ws : List WireRec) (s : State) : (s.wireOut ws).gpeArmed = s.gpeArmed := rfl
@[simp] theorem State.wireOut_err (ws : List WireRec) (s : State) : (s.wireOut ws).err = s.err := rfl
@[simp] theorem State.wireOut_events (ws : List WireRec) (s : State) : (s.wireOut ws).events = s.events := rfl
@[simp] theorem State.wireOut_log (ws : List WireRec) (s : State) : (s.wireOut ws).log = s.log := rfl
@[simp] theorem State.wireOut_wire (ws : List WireRec) (s : State) : (s.wireOut ws).wire = s.wire ++ ws := rfl
@[simp] theorem State.wireOut_host (ws : List WireRec) (s : State) : (s.wireOut ws).host = s.host := rfl
@[simp] theorem State.wireOut_returns (ws : List WireRec) (s : State) : (s.wireOut ws).returns = s.returns := rfl
@[simp] theorem State.wireOut_result (ws : List WireRec) (s : State) : (s.wireOut ws).result = s.result := rfl
@[simp] theorem State.wireOut_dev (ws : List WireRec) (s : State) : (s.wireOut ws).dev = s.dev := rfl
@[simp] theorem State.wireOut_stim (ws : List WireRec) (s : State) : (s.wireOut ws).stim = s.stim := rfl
@[simp] theorem State.wireOut_draws (ws : List WireRec) (s : State) : (s.wireOut ws).draws = s.draws := rfl

/-! ## giveBack -/

@[simp] theorem State.giveBack_par (r : HostRet) (s : State) : (s.giveBack r).par = s.par := rfl
@[simp] theorem State.giveBack_txBuf (r : HostRet) (s : State) : (s.giveBack r).txBuf = s.txBuf := rfl
@[simp] theorem State.giveBack_txStatus (r : HostRet) (s : State) : (s.giveBack r).txStatus = s.txStatus := rfl
@[simp] theorem State.giveBack_rxBuf (r : HostRet) (s : State) : (s.giveBack r).rxBuf = s.rxBuf := rfl
@[simp] theorem State.giveBack_spi (r : HostRet) (s : State) : (s.giveBack r).spi = s.spi := rfl
@[simp] theorem State.giveBack_cfgValid (r : HostRet) (s : State) : (s.giveBack r).cfgValid = s.cfgValid := rfl
@[simp] theorem State.giveBack_tunables (r : HostRet) (s : State) : (s.giveBack r).tunables = s.tunables := rfl
@[simp] theorem State.giveBack_cal (r : HostRet) (s : State) : (s.giveBack r).cal = s.cal := rfl
@[simp] theorem State.giveBack_xport (r : HostRet) (s : State) : (s.giveBack r).xport = s.xport := rfl
@[simp] theorem State.giveBack_kbd (r : HostRet) (s : State) : (s.giveBack r).kbd = s.kbd := rfl
@[simp] theorem State.giveBack_slots (r : HostRet) (s : State) : (s.giveBack r).slots = s.slots := rfl
@[simp] theorem State.giveBack_led (r : HostRet) (s : State) : (s.giveBack r).led = s.led := rfl
@[simp] theorem State.giveBack_initDone (r : HostRet) (s : State) : (s.giveBack r).initDone = s.initDone := rfl
@[simp] theorem State.giveBack_gpeArmed (r : HostRet) (s : State) : (s.giveBack r).gpeArmed = s.gpeArmed := rfl
@[simp] theorem State.giveBack_err (r : HostRet) (s : State) : (s.giveBack r).err = s.err := rfl
@[simp] theorem State.giveBack_events (r : HostRet) (s : State) : (s.giveBack r).events = s.events := rfl
@[simp] theorem State.giveBack_log (r : HostRet) (s : State) : (s.giveBack r).log = s.log := rfl
@[simp] theorem State.giveBack_wire (r : HostRet) (s : State) : (s.giveBack r).wire = s.wire := rfl
@[simp] theorem State.giveBack_host (r : HostRet) (s : State) : (s.giveBack r).host = .ready := rfl
@[simp] theorem State.giveBack_returns (r : HostRet) (s : State) : (s.giveBack r).returns = s.returns ++ [r] := rfl
@[simp] theorem State.giveBack_result (r : HostRet) (s : State) : (s.giveBack r).result = s.result := rfl
@[simp] theorem State.giveBack_dev (r : HostRet) (s : State) : (s.giveBack r).dev = s.dev := rfl
@[simp] theorem State.giveBack_stim (r : HostRet) (s : State) : (s.giveBack r).stim = s.stim := rfl
@[simp] theorem State.giveBack_draws (r : HostRet) (s : State) : (s.giveBack r).draws = s.draws := rfl

/-! ## setResult -/

@[simp] theorem State.setResult_par (r : OpResult) (s : State) : (s.setResult r).par = s.par := rfl
@[simp] theorem State.setResult_txBuf (r : OpResult) (s : State) : (s.setResult r).txBuf = s.txBuf := rfl
@[simp] theorem State.setResult_txStatus (r : OpResult) (s : State) : (s.setResult r).txStatus = s.txStatus := rfl
@[simp] theorem State.setResult_rxBuf (r : OpResult) (s : State) : (s.setResult r).rxBuf = s.rxBuf := rfl
@[simp] theorem State.setResult_spi (r : OpResult) (s : State) : (s.setResult r).spi = s.spi := rfl
@[simp] theorem State.setResult_cfgValid (r : OpResult) (s : State) : (s.setResult r).cfgValid = s.cfgValid := rfl
@[simp] theorem State.setResult_tunables (r : OpResult) (s : State) : (s.setResult r).tunables = s.tunables := rfl
@[simp] theorem State.setResult_cal (r : OpResult) (s : State) : (s.setResult r).cal = s.cal := rfl
@[simp] theorem State.setResult_xport (r : OpResult) (s : State) : (s.setResult r).xport = s.xport := rfl
@[simp] theorem State.setResult_kbd (r : OpResult) (s : State) : (s.setResult r).kbd = s.kbd := rfl
@[simp] theorem State.setResult_slots (r : OpResult) (s : State) : (s.setResult r).slots = s.slots := rfl
@[simp] theorem State.setResult_led (r : OpResult) (s : State) : (s.setResult r).led = s.led := rfl
@[simp] theorem State.setResult_initDone (r : OpResult) (s : State) : (s.setResult r).initDone = s.initDone := rfl
@[simp] theorem State.setResult_gpeArmed (r : OpResult) (s : State) : (s.setResult r).gpeArmed = s.gpeArmed := rfl
@[simp] theorem State.setResult_err (r : OpResult) (s : State) : (s.setResult r).err = s.err := rfl
@[simp] theorem State.setResult_events (r : OpResult) (s : State) : (s.setResult r).events = s.events := rfl
@[simp] theorem State.setResult_log (r : OpResult) (s : State) : (s.setResult r).log = s.log := rfl
@[simp] theorem State.setResult_wire (r : OpResult) (s : State) : (s.setResult r).wire = s.wire := rfl
@[simp] theorem State.setResult_host (r : OpResult) (s : State) : (s.setResult r).host = s.host := rfl
@[simp] theorem State.setResult_returns (r : OpResult) (s : State) : (s.setResult r).returns = s.returns := rfl
@[simp] theorem State.setResult_result (r : OpResult) (s : State) : (s.setResult r).result = r := rfl
@[simp] theorem State.setResult_dev (r : OpResult) (s : State) : (s.setResult r).dev = s.dev := rfl
@[simp] theorem State.setResult_stim (r : OpResult) (s : State) : (s.setResult r).stim = s.stim := rfl
@[simp] theorem State.setResult_draws (r : OpResult) (s : State) : (s.setResult r).draws = s.draws := rfl

/-! ## drawn -/

@[simp] theorem State.drawn_par (s : State) : (s.drawn).par = s.par := rfl
@[simp] theorem State.drawn_txBuf (s : State) : (s.drawn).txBuf = s.txBuf := rfl
@[simp] theorem State.drawn_txStatus (s : State) : (s.drawn).txStatus = s.txStatus := rfl
@[simp] theorem State.drawn_rxBuf (s : State) : (s.drawn).rxBuf = s.rxBuf := rfl
@[simp] theorem State.drawn_spi (s : State) : (s.drawn).spi = s.spi := rfl
@[simp] theorem State.drawn_cfgValid (s : State) : (s.drawn).cfgValid = s.cfgValid := rfl
@[simp] theorem State.drawn_tunables (s : State) : (s.drawn).tunables = s.tunables := rfl
@[simp] theorem State.drawn_cal (s : State) : (s.drawn).cal = s.cal := rfl
@[simp] theorem State.drawn_xport (s : State) : (s.drawn).xport = s.xport := rfl
@[simp] theorem State.drawn_kbd (s : State) : (s.drawn).kbd = s.kbd := rfl
@[simp] theorem State.drawn_slots (s : State) : (s.drawn).slots = s.slots := rfl
@[simp] theorem State.drawn_led (s : State) : (s.drawn).led = s.led := rfl
@[simp] theorem State.drawn_initDone (s : State) : (s.drawn).initDone = s.initDone := rfl
@[simp] theorem State.drawn_gpeArmed (s : State) : (s.drawn).gpeArmed = s.gpeArmed := rfl
@[simp] theorem State.drawn_err (s : State) : (s.drawn).err = s.err := rfl
@[simp] theorem State.drawn_events (s : State) : (s.drawn).events = s.events := rfl
@[simp] theorem State.drawn_log (s : State) : (s.drawn).log = s.log := rfl
@[simp] theorem State.drawn_wire (s : State) : (s.drawn).wire = s.wire := rfl
@[simp] theorem State.drawn_host (s : State) : (s.drawn).host = s.host := rfl
@[simp] theorem State.drawn_returns (s : State) : (s.drawn).returns = s.returns := rfl
@[simp] theorem State.drawn_result (s : State) : (s.drawn).result = s.result := rfl
@[simp] theorem State.drawn_dev (s : State) : (s.drawn).dev = s.dev := rfl
@[simp] theorem State.drawn_stim (s : State) : (s.drawn).stim = s.stim := rfl
@[simp] theorem State.drawn_draws (s : State) : (s.drawn).draws = s.draws + 1 := rfl

/-! ## raise -/

@[simp] theorem State.raise_par (e : ErrRec) (s : State) : (s.raise e).par = s.par := rfl
@[simp] theorem State.raise_txBuf (e : ErrRec) (s : State) : (s.raise e).txBuf = s.txBuf := rfl
@[simp] theorem State.raise_txStatus (e : ErrRec) (s : State) : (s.raise e).txStatus = s.txStatus := rfl
@[simp] theorem State.raise_rxBuf (e : ErrRec) (s : State) : (s.raise e).rxBuf = s.rxBuf := rfl
@[simp] theorem State.raise_spi (e : ErrRec) (s : State) : (s.raise e).spi = s.spi := rfl
@[simp] theorem State.raise_cfgValid (e : ErrRec) (s : State) : (s.raise e).cfgValid = s.cfgValid := rfl
@[simp] theorem State.raise_tunables (e : ErrRec) (s : State) : (s.raise e).tunables = s.tunables := rfl
@[simp] theorem State.raise_cal (e : ErrRec) (s : State) : (s.raise e).cal = s.cal := rfl
@[simp] theorem State.raise_xport (e : ErrRec) (s : State) : (s.raise e).xport = s.xport := rfl
@[simp] theorem State.raise_kbd (e : ErrRec) (s : State) : (s.raise e).kbd = s.kbd := rfl
@[simp] theorem State.raise_slots (e : ErrRec) (s : State) : (s.raise e).slots = s.slots := rfl
@[simp] theorem State.raise_led (e : ErrRec) (s : State) : (s.raise e).led = s.led := rfl
@[simp] theorem State.raise_initDone (e : ErrRec) (s : State) : (s.raise e).initDone = s.initDone := rfl
@[simp] theorem State.raise_gpeArmed (e : ErrRec) (s : State) : (s.raise e).gpeArmed = s.gpeArmed := rfl
@[simp] theorem State.raise_err (e : ErrRec) (s : State) : (s.raise e).err = s.err ||| e.mask := rfl
@[simp] theorem State.raise_events (e : ErrRec) (s : State) : (s.raise e).events = s.events := rfl
@[simp] theorem State.raise_log (e : ErrRec) (s : State) : (s.raise e).log = s.log ++ [.err e] := rfl
@[simp] theorem State.raise_wire (e : ErrRec) (s : State) : (s.raise e).wire = s.wire := rfl
@[simp] theorem State.raise_host (e : ErrRec) (s : State) : (s.raise e).host = s.host := rfl
@[simp] theorem State.raise_returns (e : ErrRec) (s : State) : (s.raise e).returns = s.returns := rfl
@[simp] theorem State.raise_result (e : ErrRec) (s : State) : (s.raise e).result = s.result := rfl
@[simp] theorem State.raise_dev (e : ErrRec) (s : State) : (s.raise e).dev = s.dev := rfl
@[simp] theorem State.raise_stim (e : ErrRec) (s : State) : (s.raise e).stim = s.stim := rfl
@[simp] theorem State.raise_draws (e : ErrRec) (s : State) : (s.raise e).draws = s.draws := rfl

/-! ## refuse -/

@[simp] theorem State.refuse_par (op : Byte) (s : State) : (s.refuse op).par = s.par := rfl
@[simp] theorem State.refuse_txBuf (op : Byte) (s : State) : (s.refuse op).txBuf = s.txBuf := rfl
@[simp] theorem State.refuse_txStatus (op : Byte) (s : State) : (s.refuse op).txStatus = s.txStatus := rfl
@[simp] theorem State.refuse_rxBuf (op : Byte) (s : State) : (s.refuse op).rxBuf = s.rxBuf := rfl
@[simp] theorem State.refuse_spi (op : Byte) (s : State) : (s.refuse op).spi = s.spi := rfl
@[simp] theorem State.refuse_cfgValid (op : Byte) (s : State) : (s.refuse op).cfgValid = s.cfgValid := rfl
@[simp] theorem State.refuse_tunables (op : Byte) (s : State) : (s.refuse op).tunables = s.tunables := rfl
@[simp] theorem State.refuse_cal (op : Byte) (s : State) : (s.refuse op).cal = s.cal := rfl
@[simp] theorem State.refuse_xport (op : Byte) (s : State) : (s.refuse op).xport = s.xport := rfl
@[simp] theorem State.refuse_kbd (op : Byte) (s : State) : (s.refuse op).kbd = s.kbd := rfl
@[simp] theorem State.refuse_slots (op : Byte) (s : State) : (s.refuse op).slots = s.slots := rfl
@[simp] theorem State.refuse_led (op : Byte) (s : State) : (s.refuse op).led = s.led := rfl
@[simp] theorem State.refuse_initDone (op : Byte) (s : State) : (s.refuse op).initDone = s.initDone := rfl
@[simp] theorem State.refuse_gpeArmed (op : Byte) (s : State) : (s.refuse op).gpeArmed = s.gpeArmed := rfl
@[simp] theorem State.refuse_err (op : Byte) (s : State) : (s.refuse op).err = s.err ||| (ErrRec.usageError op).mask := rfl
@[simp] theorem State.refuse_events (op : Byte) (s : State) : (s.refuse op).events = s.events := rfl
@[simp] theorem State.refuse_log (op : Byte) (s : State) : (s.refuse op).log = s.log ++ [.err (.usageError op)] := rfl
@[simp] theorem State.refuse_wire (op : Byte) (s : State) : (s.refuse op).wire = s.wire := rfl
@[simp] theorem State.refuse_host (op : Byte) (s : State) : (s.refuse op).host = s.host := rfl
@[simp] theorem State.refuse_returns (op : Byte) (s : State) : (s.refuse op).returns = s.returns ++ [.refused op] := rfl
@[simp] theorem State.refuse_result (op : Byte) (s : State) : (s.refuse op).result = s.result := rfl
@[simp] theorem State.refuse_dev (op : Byte) (s : State) : (s.refuse op).dev = s.dev := rfl
@[simp] theorem State.refuse_stim (op : Byte) (s : State) : (s.refuse op).stim = s.stim := rfl
@[simp] theorem State.refuse_draws (op : Byte) (s : State) : (s.refuse op).draws = s.draws := rfl

/-! ## goExchange -/

@[simp] theorem State.goExchange_par (x : TExch) (p : TState) (s : State) : (s.goExchange x p).par = s.par := rfl
@[simp] theorem State.goExchange_txBuf (x : TExch) (p : TState) (s : State) : (s.goExchange x p).txBuf = s.txBuf := rfl
@[simp] theorem State.goExchange_txStatus (x : TExch) (p : TState) (s : State) : (s.goExchange x p).txStatus = s.txStatus := rfl
@[simp] theorem State.goExchange_rxBuf (x : TExch) (p : TState) (s : State) : (s.goExchange x p).rxBuf = s.rxBuf := rfl
@[simp] theorem State.goExchange_spi (x : TExch) (p : TState) (s : State) : (s.goExchange x p).spi = s.spi := rfl
@[simp] theorem State.goExchange_cfgValid (x : TExch) (p : TState) (s : State) : (s.goExchange x p).cfgValid = s.cfgValid := rfl
@[simp] theorem State.goExchange_tunables (x : TExch) (p : TState) (s : State) : (s.goExchange x p).tunables = s.tunables := rfl
@[simp] theorem State.goExchange_cal (x : TExch) (p : TState) (s : State) : (s.goExchange x p).cal = s.cal := rfl
@[simp] theorem State.goExchange_xport (x : TExch) (p : TState) (s : State) : (s.goExchange x p).xport = { s.xport with texch := x, tstate := p } := rfl
@[simp] theorem State.goExchange_kbd (x : TExch) (p : TState) (s : State) : (s.goExchange x p).kbd = s.kbd := rfl
@[simp] theorem State.goExchange_slots (x : TExch) (p : TState) (s : State) : (s.goExchange x p).slots = s.slots := rfl
@[simp] theorem State.goExchange_led (x : TExch) (p : TState) (s : State) : (s.goExchange x p).led = s.led := rfl
@[simp] theorem State.goExchange_initDone (x : TExch) (p : TState) (s : State) : (s.goExchange x p).initDone = s.initDone := rfl
@[simp] theorem State.goExchange_gpeArmed (x : TExch) (p : TState) (s : State) : (s.goExchange x p).gpeArmed = s.gpeArmed := rfl
@[simp] theorem State.goExchange_err (x : TExch) (p : TState) (s : State) : (s.goExchange x p).err = s.err := rfl
@[simp] theorem State.goExchange_events (x : TExch) (p : TState) (s : State) : (s.goExchange x p).events = s.events := rfl
@[simp] theorem State.goExchange_log (x : TExch) (p : TState) (s : State) : (s.goExchange x p).log = s.log := rfl
@[simp] theorem State.goExchange_wire (x : TExch) (p : TState) (s : State) : (s.goExchange x p).wire = s.wire := rfl
@[simp] theorem State.goExchange_host (x : TExch) (p : TState) (s : State) : (s.goExchange x p).host = s.host := rfl
@[simp] theorem State.goExchange_returns (x : TExch) (p : TState) (s : State) : (s.goExchange x p).returns = s.returns := rfl
@[simp] theorem State.goExchange_result (x : TExch) (p : TState) (s : State) : (s.goExchange x p).result = s.result := rfl
@[simp] theorem State.goExchange_dev (x : TExch) (p : TState) (s : State) : (s.goExchange x p).dev = s.dev := rfl
@[simp] theorem State.goExchange_stim (x : TExch) (p : TState) (s : State) : (s.goExchange x p).stim = s.stim := rfl
@[simp] theorem State.goExchange_draws (x : TExch) (p : TState) (s : State) : (s.goExchange x p).draws = s.draws := rfl

/-! ## goPhase -/

@[simp] theorem State.goPhase_par (p : TState) (s : State) : (s.goPhase p).par = s.par := rfl
@[simp] theorem State.goPhase_txBuf (p : TState) (s : State) : (s.goPhase p).txBuf = s.txBuf := rfl
@[simp] theorem State.goPhase_txStatus (p : TState) (s : State) : (s.goPhase p).txStatus = s.txStatus := rfl
@[simp] theorem State.goPhase_rxBuf (p : TState) (s : State) : (s.goPhase p).rxBuf = s.rxBuf := rfl
@[simp] theorem State.goPhase_spi (p : TState) (s : State) : (s.goPhase p).spi = s.spi := rfl
@[simp] theorem State.goPhase_cfgValid (p : TState) (s : State) : (s.goPhase p).cfgValid = s.cfgValid := rfl
@[simp] theorem State.goPhase_tunables (p : TState) (s : State) : (s.goPhase p).tunables = s.tunables := rfl
@[simp] theorem State.goPhase_cal (p : TState) (s : State) : (s.goPhase p).cal = s.cal := rfl
@[simp] theorem State.goPhase_xport (p : TState) (s : State) : (s.goPhase p).xport = { s.xport with tstate := p } := rfl
@[simp] theorem State.goPhase_kbd (p : TState) (s : State) : (s.goPhase p).kbd = s.kbd := rfl
@[simp] theorem State.goPhase_slots (p : TState) (s : State) : (s.goPhase p).slots = s.slots := rfl
@[simp] theorem State.goPhase_led (p : TState) (s : State) : (s.goPhase p).led = s.led := rfl
@[simp] theorem State.goPhase_initDone (p : TState) (s : State) : (s.goPhase p).initDone = s.initDone := rfl
@[simp] theorem State.goPhase_gpeArmed (p : TState) (s : State) : (s.goPhase p).gpeArmed = s.gpeArmed := rfl
@[simp] theorem State.goPhase_err (p : TState) (s : State) : (s.goPhase p).err = s.err := rfl
@[simp] theorem State.goPhase_events (p : TState) (s : State) : (s.goPhase p).events = s.events := rfl
@[simp] theorem State.goPhase_log (p : TState) (s : State) : (s.goPhase p).log = s.log := rfl
@[simp] theorem State.goPhase_wire (p : TState) (s : State) : (s.goPhase p).wire = s.wire := rfl
@[simp] theorem State.goPhase_host (p : TState) (s : State) : (s.goPhase p).host = s.host := rfl
@[simp] theorem State.goPhase_returns (p : TState) (s : State) : (s.goPhase p).returns = s.returns := rfl
@[simp] theorem State.goPhase_result (p : TState) (s : State) : (s.goPhase p).result = s.result := rfl
@[simp] theorem State.goPhase_dev (p : TState) (s : State) : (s.goPhase p).dev = s.dev := rfl
@[simp] theorem State.goPhase_stim (p : TState) (s : State) : (s.goPhase p).stim = s.stim := rfl
@[simp] theorem State.goPhase_draws (p : TState) (s : State) : (s.goPhase p).draws = s.draws := rfl

/-! ## endTransfer -/

@[simp] theorem State.endTransfer_par (r : Word32) (p : TState) (s : State) : (s.endTransfer r p).par = s.par := rfl
@[simp] theorem State.endTransfer_txBuf (r : Word32) (p : TState) (s : State) : (s.endTransfer r p).txBuf = s.txBuf := rfl
@[simp] theorem State.endTransfer_txStatus (r : Word32) (p : TState) (s : State) : (s.endTransfer r p).txStatus = s.txStatus := rfl
@[simp] theorem State.endTransfer_rxBuf (r : Word32) (p : TState) (s : State) : (s.endTransfer r p).rxBuf = s.rxBuf := rfl
@[simp] theorem State.endTransfer_spi (r : Word32) (p : TState) (s : State) : (s.endTransfer r p).spi = s.spi := rfl
@[simp] theorem State.endTransfer_cfgValid (r : Word32) (p : TState) (s : State) : (s.endTransfer r p).cfgValid = s.cfgValid := rfl
@[simp] theorem State.endTransfer_tunables (r : Word32) (p : TState) (s : State) : (s.endTransfer r p).tunables = s.tunables := rfl
@[simp] theorem State.endTransfer_cal (r : Word32) (p : TState) (s : State) : (s.endTransfer r p).cal = s.cal := rfl
@[simp] theorem State.endTransfer_xport (r : Word32) (p : TState) (s : State) : (s.endTransfer r p).xport = { s.xport with tRes := r, tstate := p } := rfl
@[simp] theorem State.endTransfer_kbd (r : Word32) (p : TState) (s : State) : (s.endTransfer r p).kbd = s.kbd := rfl
@[simp] theorem State.endTransfer_slots (r : Word32) (p : TState) (s : State) : (s.endTransfer r p).slots = s.slots := rfl
@[simp] theorem State.endTransfer_led (r : Word32) (p : TState) (s : State) : (s.endTransfer r p).led = s.led := rfl
@[simp] theorem State.endTransfer_initDone (r : Word32) (p : TState) (s : State) : (s.endTransfer r p).initDone = s.initDone := rfl
@[simp] theorem State.endTransfer_gpeArmed (r : Word32) (p : TState) (s : State) : (s.endTransfer r p).gpeArmed = s.gpeArmed := rfl
@[simp] theorem State.endTransfer_err (r : Word32) (p : TState) (s : State) : (s.endTransfer r p).err = s.err := rfl
@[simp] theorem State.endTransfer_events (r : Word32) (p : TState) (s : State) : (s.endTransfer r p).events = s.events := rfl
@[simp] theorem State.endTransfer_log (r : Word32) (p : TState) (s : State) : (s.endTransfer r p).log = s.log := rfl
@[simp] theorem State.endTransfer_wire (r : Word32) (p : TState) (s : State) : (s.endTransfer r p).wire = s.wire := rfl
@[simp] theorem State.endTransfer_host (r : Word32) (p : TState) (s : State) : (s.endTransfer r p).host = s.host := rfl
@[simp] theorem State.endTransfer_returns (r : Word32) (p : TState) (s : State) : (s.endTransfer r p).returns = s.returns := rfl
@[simp] theorem State.endTransfer_result (r : Word32) (p : TState) (s : State) : (s.endTransfer r p).result = s.result := rfl
@[simp] theorem State.endTransfer_dev (r : Word32) (p : TState) (s : State) : (s.endTransfer r p).dev = s.dev := rfl
@[simp] theorem State.endTransfer_stim (r : Word32) (p : TState) (s : State) : (s.endTransfer r p).stim = s.stim := rfl
@[simp] theorem State.endTransfer_draws (r : Word32) (p : TState) (s : State) : (s.endTransfer r p).draws = s.draws := rfl

/-! ## setRdPending -/

@[simp] theorem State.setRdPending_par (b : Bool) (s : State) : (s.setRdPending b).par = s.par := rfl
@[simp] theorem State.setRdPending_txBuf (b : Bool) (s : State) : (s.setRdPending b).txBuf = s.txBuf := rfl
@[simp] theorem State.setRdPending_txStatus (b : Bool) (s : State) : (s.setRdPending b).txStatus = s.txStatus := rfl
@[simp] theorem State.setRdPending_rxBuf (b : Bool) (s : State) : (s.setRdPending b).rxBuf = s.rxBuf := rfl
@[simp] theorem State.setRdPending_spi (b : Bool) (s : State) : (s.setRdPending b).spi = s.spi := rfl
@[simp] theorem State.setRdPending_cfgValid (b : Bool) (s : State) : (s.setRdPending b).cfgValid = s.cfgValid := rfl
@[simp] theorem State.setRdPending_tunables (b : Bool) (s : State) : (s.setRdPending b).tunables = s.tunables := rfl
@[simp] theorem State.setRdPending_cal (b : Bool) (s : State) : (s.setRdPending b).cal = s.cal := rfl
@[simp] theorem State.setRdPending_xport (b : Bool) (s : State) : (s.setRdPending b).xport = { s.xport with rdPending := b } := rfl
@[simp] theorem State.setRdPending_kbd (b : Bool) (s : State) : (s.setRdPending b).kbd = s.kbd := rfl
@[simp] theorem State.setRdPending_slots (b : Bool) (s : State) : (s.setRdPending b).slots = s.slots := rfl
@[simp] theorem State.setRdPending_led (b : Bool) (s : State) : (s.setRdPending b).led = s.led := rfl
@[simp] theorem State.setRdPending_initDone (b : Bool) (s : State) : (s.setRdPending b).initDone = s.initDone := rfl
@[simp] theorem State.setRdPending_gpeArmed (b : Bool) (s : State) : (s.setRdPending b).gpeArmed = s.gpeArmed := rfl
@[simp] theorem State.setRdPending_err (b : Bool) (s : State) : (s.setRdPending b).err = s.err := rfl
@[simp] theorem State.setRdPending_events (b : Bool) (s : State) : (s.setRdPending b).events = s.events := rfl
@[simp] theorem State.setRdPending_log (b : Bool) (s : State) : (s.setRdPending b).log = s.log := rfl
@[simp] theorem State.setRdPending_wire (b : Bool) (s : State) : (s.setRdPending b).wire = s.wire := rfl
@[simp] theorem State.setRdPending_host (b : Bool) (s : State) : (s.setRdPending b).host = s.host := rfl
@[simp] theorem State.setRdPending_returns (b : Bool) (s : State) : (s.setRdPending b).returns = s.returns := rfl
@[simp] theorem State.setRdPending_result (b : Bool) (s : State) : (s.setRdPending b).result = s.result := rfl
@[simp] theorem State.setRdPending_dev (b : Bool) (s : State) : (s.setRdPending b).dev = s.dev := rfl
@[simp] theorem State.setRdPending_stim (b : Bool) (s : State) : (s.setRdPending b).stim = s.stim := rfl
@[simp] theorem State.setRdPending_draws (b : Bool) (s : State) : (s.setRdPending b).draws = s.draws := rfl

/-! ## setWrPending -/

@[simp] theorem State.setWrPending_par (b : Bool) (s : State) : (s.setWrPending b).par = s.par := rfl
@[simp] theorem State.setWrPending_txBuf (b : Bool) (s : State) : (s.setWrPending b).txBuf = s.txBuf := rfl
@[simp] theorem State.setWrPending_txStatus (b : Bool) (s : State) : (s.setWrPending b).txStatus = s.txStatus := rfl
@[simp] theorem State.setWrPending_rxBuf (b : Bool) (s : State) : (s.setWrPending b).rxBuf = s.rxBuf := rfl
@[simp] theorem State.setWrPending_spi (b : Bool) (s : State) : (s.setWrPending b).spi = s.spi := rfl
@[simp] theorem State.setWrPending_cfgValid (b : Bool) (s : State) : (s.setWrPending b).cfgValid = s.cfgValid := rfl
@[simp] theorem State.setWrPending_tunables (b : Bool) (s : State) : (s.setWrPending b).tunables = s.tunables := rfl
@[simp] theorem State.setWrPending_cal (b : Bool) (s : State) : (s.setWrPending b).cal = s.cal := rfl
@[simp] theorem State.setWrPending_xport (b : Bool) (s : State) : (s.setWrPending b).xport = { s.xport with wrPending := b } := rfl
@[simp] theorem State.setWrPending_kbd (b : Bool) (s : State) : (s.setWrPending b).kbd = s.kbd := rfl
@[simp] theorem State.setWrPending_slots (b : Bool) (s : State) : (s.setWrPending b).slots = s.slots := rfl
@[simp] theorem State.setWrPending_led (b : Bool) (s : State) : (s.setWrPending b).led = s.led := rfl
@[simp] theorem State.setWrPending_initDone (b : Bool) (s : State) : (s.setWrPending b).initDone = s.initDone := rfl
@[simp] theorem State.setWrPending_gpeArmed (b : Bool) (s : State) : (s.setWrPending b).gpeArmed = s.gpeArmed := rfl
@[simp] theorem State.setWrPending_err (b : Bool) (s : State) : (s.setWrPending b).err = s.err := rfl
@[simp] theorem State.setWrPending_events (b : Bool) (s : State) : (s.setWrPending b).events = s.events := rfl
@[simp] theorem State.setWrPending_log (b : Bool) (s : State) : (s.setWrPending b).log = s.log := rfl
@[simp] theorem State.setWrPending_wire (b : Bool) (s : State) : (s.setWrPending b).wire = s.wire := rfl
@[simp] theorem State.setWrPending_host (b : Bool) (s : State) : (s.setWrPending b).host = s.host := rfl
@[simp] theorem State.setWrPending_returns (b : Bool) (s : State) : (s.setWrPending b).returns = s.returns := rfl
@[simp] theorem State.setWrPending_result (b : Bool) (s : State) : (s.setWrPending b).result = s.result := rfl
@[simp] theorem State.setWrPending_dev (b : Bool) (s : State) : (s.setWrPending b).dev = s.dev := rfl
@[simp] theorem State.setWrPending_stim (b : Bool) (s : State) : (s.setWrPending b).stim = s.stim := rfl
@[simp] theorem State.setWrPending_draws (b : Bool) (s : State) : (s.setWrPending b).draws = s.draws := rfl

/-! ## loadTx -/

@[simp] theorem State.loadTx_par (p : Packet) (s : State) : (s.loadTx p).par = s.par := rfl
@[simp] theorem State.loadTx_txBuf (p : Packet) (s : State) : (s.loadTx p).txBuf = Memory.load p.toList := rfl
@[simp] theorem State.loadTx_txStatus (p : Packet) (s : State) : (s.loadTx p).txStatus = s.txStatus := rfl
@[simp] theorem State.loadTx_rxBuf (p : Packet) (s : State) : (s.loadTx p).rxBuf = s.rxBuf := rfl
@[simp] theorem State.loadTx_spi (p : Packet) (s : State) : (s.loadTx p).spi = s.spi := rfl
@[simp] theorem State.loadTx_cfgValid (p : Packet) (s : State) : (s.loadTx p).cfgValid = s.cfgValid := rfl
@[simp] theorem State.loadTx_tunables (p : Packet) (s : State) : (s.loadTx p).tunables = s.tunables := rfl
@[simp] theorem State.loadTx_cal (p : Packet) (s : State) : (s.loadTx p).cal = s.cal := rfl
@[simp] theorem State.loadTx_xport (p : Packet) (s : State) : (s.loadTx p).xport = s.xport := rfl
@[simp] theorem State.loadTx_kbd (p : Packet) (s : State) : (s.loadTx p).kbd = s.kbd := rfl
@[simp] theorem State.loadTx_slots (p : Packet) (s : State) : (s.loadTx p).slots = s.slots := rfl
@[simp] theorem State.loadTx_led (p : Packet) (s : State) : (s.loadTx p).led = s.led := rfl
@[simp] theorem State.loadTx_initDone (p : Packet) (s : State) : (s.loadTx p).initDone = s.initDone := rfl
@[simp] theorem State.loadTx_gpeArmed (p : Packet) (s : State) : (s.loadTx p).gpeArmed = s.gpeArmed := rfl
@[simp] theorem State.loadTx_err (p : Packet) (s : State) : (s.loadTx p).err = s.err := rfl
@[simp] theorem State.loadTx_events (p : Packet) (s : State) : (s.loadTx p).events = s.events := rfl
@[simp] theorem State.loadTx_log (p : Packet) (s : State) : (s.loadTx p).log = s.log := rfl
@[simp] theorem State.loadTx_wire (p : Packet) (s : State) : (s.loadTx p).wire = s.wire := rfl
@[simp] theorem State.loadTx_host (p : Packet) (s : State) : (s.loadTx p).host = s.host := rfl
@[simp] theorem State.loadTx_returns (p : Packet) (s : State) : (s.loadTx p).returns = s.returns := rfl
@[simp] theorem State.loadTx_result (p : Packet) (s : State) : (s.loadTx p).result = s.result := rfl
@[simp] theorem State.loadTx_dev (p : Packet) (s : State) : (s.loadTx p).dev = s.dev := rfl
@[simp] theorem State.loadTx_stim (p : Packet) (s : State) : (s.loadTx p).stim = s.stim := rfl
@[simp] theorem State.loadTx_draws (p : Packet) (s : State) : (s.loadTx p).draws = s.draws := rfl

/-! ## startExchange -/

@[simp] theorem State.startExchange_par (x : TExch) (p : TState) (s : State) : (s.startExchange x p).par = s.par := rfl
@[simp] theorem State.startExchange_txBuf (x : TExch) (p : TState) (s : State) : (s.startExchange x p).txBuf = s.txBuf := rfl
@[simp] theorem State.startExchange_txStatus (x : TExch) (p : TState) (s : State) : (s.startExchange x p).txStatus = s.txStatus := rfl
@[simp] theorem State.startExchange_rxBuf (x : TExch) (p : TState) (s : State) : (s.startExchange x p).rxBuf = s.rxBuf := rfl
@[simp] theorem State.startExchange_spi (x : TExch) (p : TState) (s : State) : (s.startExchange x p).spi = s.spi := rfl
@[simp] theorem State.startExchange_cfgValid (x : TExch) (p : TState) (s : State) : (s.startExchange x p).cfgValid = s.cfgValid := rfl
@[simp] theorem State.startExchange_tunables (x : TExch) (p : TState) (s : State) : (s.startExchange x p).tunables = s.tunables := rfl
@[simp] theorem State.startExchange_cal (x : TExch) (p : TState) (s : State) : (s.startExchange x p).cal = s.cal := rfl
@[simp] theorem State.startExchange_xport (x : TExch) (p : TState) (s : State) : (s.startExchange x p).xport = { s.xport with texch := x, tstate := p } := rfl
@[simp] theorem State.startExchange_kbd (x : TExch) (p : TState) (s : State) : (s.startExchange x p).kbd = s.kbd := rfl
@[simp] theorem State.startExchange_slots (x : TExch) (p : TState) (s : State) : (s.startExchange x p).slots = s.slots := rfl
@[simp] theorem State.startExchange_led (x : TExch) (p : TState) (s : State) : (s.startExchange x p).led = s.led := rfl
@[simp] theorem State.startExchange_initDone (x : TExch) (p : TState) (s : State) : (s.startExchange x p).initDone = s.initDone := rfl
@[simp] theorem State.startExchange_gpeArmed (x : TExch) (p : TState) (s : State) : (s.startExchange x p).gpeArmed = s.gpeArmed := rfl
@[simp] theorem State.startExchange_err (x : TExch) (p : TState) (s : State) : (s.startExchange x p).err = s.err := rfl
@[simp] theorem State.startExchange_events (x : TExch) (p : TState) (s : State) : (s.startExchange x p).events = s.events := rfl
@[simp] theorem State.startExchange_log (x : TExch) (p : TState) (s : State) : (s.startExchange x p).log = s.log := rfl
@[simp] theorem State.startExchange_wire (x : TExch) (p : TState) (s : State) : (s.startExchange x p).wire = s.wire ++ [.cs true] := rfl
@[simp] theorem State.startExchange_host (x : TExch) (p : TState) (s : State) : (s.startExchange x p).host = s.host := rfl
@[simp] theorem State.startExchange_returns (x : TExch) (p : TState) (s : State) : (s.startExchange x p).returns = s.returns := rfl
@[simp] theorem State.startExchange_result (x : TExch) (p : TState) (s : State) : (s.startExchange x p).result = s.result := rfl
@[simp] theorem State.startExchange_dev (x : TExch) (p : TState) (s : State) : (s.startExchange x p).dev = s.dev := rfl
@[simp] theorem State.startExchange_stim (x : TExch) (p : TState) (s : State) : (s.startExchange x p).stim = s.stim := rfl
@[simp] theorem State.startExchange_draws (x : TExch) (p : TState) (s : State) : (s.startExchange x p).draws = s.draws := rfl

/-! ## startSyncWrite -/

@[simp] theorem State.startSyncWrite_par (c : HostCont) (p : Packet) (s : State) : (s.startSyncWrite c p).par = s.par := rfl
@[simp] theorem State.startSyncWrite_txBuf (c : HostCont) (p : Packet) (s : State) : (s.startSyncWrite c p).txBuf = Memory.load p.toList := rfl
@[simp] theorem State.startSyncWrite_txStatus (c : HostCont) (p : Packet) (s : State) : (s.startSyncWrite c p).txStatus = s.txStatus := rfl
@[simp] theorem State.startSyncWrite_rxBuf (c : HostCont) (p : Packet) (s : State) : (s.startSyncWrite c p).rxBuf = s.rxBuf := rfl
@[simp] theorem State.startSyncWrite_spi (c : HostCont) (p : Packet) (s : State) : (s.startSyncWrite c p).spi = s.spi := rfl
@[simp] theorem State.startSyncWrite_cfgValid (c : HostCont) (p : Packet) (s : State) : (s.startSyncWrite c p).cfgValid = s.cfgValid := rfl
@[simp] theorem State.startSyncWrite_tunables (c : HostCont) (p : Packet) (s : State) : (s.startSyncWrite c p).tunables = s.tunables := rfl
@[simp] theorem State.startSyncWrite_cal (c : HostCont) (p : Packet) (s : State) : (s.startSyncWrite c p).cal = s.cal := rfl
@[simp] theorem State.startSyncWrite_xport (c : HostCont) (p : Packet) (s : State) : (s.startSyncWrite c p).xport = { s.xport with texch := .syncWtr, tstate := .wrCmd } := rfl
@[simp] theorem State.startSyncWrite_kbd (c : HostCont) (p : Packet) (s : State) : (s.startSyncWrite c p).kbd = s.kbd := rfl
@[simp] theorem State.startSyncWrite_slots (c : HostCont) (p : Packet) (s : State) : (s.startSyncWrite c p).slots = s.slots := rfl
@[simp] theorem State.startSyncWrite_led (c : HostCont) (p : Packet) (s : State) : (s.startSyncWrite c p).led = s.led := rfl
@[simp] theorem State.startSyncWrite_initDone (c : HostCont) (p : Packet) (s : State) : (s.startSyncWrite c p).initDone = s.initDone := rfl
@[simp] theorem State.startSyncWrite_gpeArmed (c : HostCont) (p : Packet) (s : State) : (s.startSyncWrite c p).gpeArmed = s.gpeArmed := rfl
@[simp] theorem State.startSyncWrite_err (c : HostCont) (p : Packet) (s : State) : (s.startSyncWrite c p).err = s.err := rfl
@[simp] theorem State.startSyncWrite_events (c : HostCont) (p : Packet) (s : State) : (s.startSyncWrite c p).events = s.events := rfl
@[simp] theorem State.startSyncWrite_log (c : HostCont) (p : Packet) (s : State) : (s.startSyncWrite c p).log = s.log := rfl
@[simp] theorem State.startSyncWrite_wire (c : HostCont) (p : Packet) (s : State) : (s.startSyncWrite c p).wire = s.wire ++ [.cs true] := rfl
@[simp] theorem State.startSyncWrite_host (c : HostCont) (p : Packet) (s : State) : (s.startSyncWrite c p).host = c := rfl
@[simp] theorem State.startSyncWrite_returns (c : HostCont) (p : Packet) (s : State) : (s.startSyncWrite c p).returns = s.returns := rfl
@[simp] theorem State.startSyncWrite_result (c : HostCont) (p : Packet) (s : State) : (s.startSyncWrite c p).result = s.result := rfl
@[simp] theorem State.startSyncWrite_dev (c : HostCont) (p : Packet) (s : State) : (s.startSyncWrite c p).dev = s.dev := rfl
@[simp] theorem State.startSyncWrite_stim (c : HostCont) (p : Packet) (s : State) : (s.startSyncWrite c p).stim = s.stim := rfl
@[simp] theorem State.startSyncWrite_draws (c : HostCont) (p : Packet) (s : State) : (s.startSyncWrite c p).draws = s.draws := rfl

/-! ## buildLed -/

@[simp] theorem State.buildLed_par (n : Byte) (on : Bool) (s : State) : (s.buildLed n on).par = s.par := rfl
@[simp] theorem State.buildLed_txBuf (n : Byte) (on : Bool) (s : State) : (s.buildLed n on).txBuf = ledCommand s.par n on := rfl
@[simp] theorem State.buildLed_txStatus (n : Byte) (on : Bool) (s : State) : (s.buildLed n on).txStatus = s.txStatus := rfl
@[simp] theorem State.buildLed_rxBuf (n : Byte) (on : Bool) (s : State) : (s.buildLed n on).rxBuf = s.rxBuf := rfl
@[simp] theorem State.buildLed_spi (n : Byte) (on : Bool) (s : State) : (s.buildLed n on).spi = s.spi := rfl
@[simp] theorem State.buildLed_cfgValid (n : Byte) (on : Bool) (s : State) : (s.buildLed n on).cfgValid = s.cfgValid := rfl
@[simp] theorem State.buildLed_tunables (n : Byte) (on : Bool) (s : State) : (s.buildLed n on).tunables = s.tunables := rfl
@[simp] theorem State.buildLed_cal (n : Byte) (on : Bool) (s : State) : (s.buildLed n on).cal = s.cal := rfl
@[simp] theorem State.buildLed_xport (n : Byte) (on : Bool) (s : State) : (s.buildLed n on).xport = s.xport := rfl
@[simp] theorem State.buildLed_kbd (n : Byte) (on : Bool) (s : State) : (s.buildLed n on).kbd = s.kbd := rfl
@[simp] theorem State.buildLed_slots (n : Byte) (on : Bool) (s : State) : (s.buildLed n on).slots = s.slots := rfl
@[simp] theorem State.buildLed_led (n : Byte) (on : Bool) (s : State) : (s.buildLed n on).led = s.led := rfl
@[simp] theorem State.buildLed_initDone (n : Byte) (on : Bool) (s : State) : (s.buildLed n on).initDone = s.initDone := rfl
@[simp] theorem State.buildLed_gpeArmed (n : Byte) (on : Bool) (s : State) : (s.buildLed n on).gpeArmed = s.gpeArmed := rfl
@[simp] theorem State.buildLed_err (n : Byte) (on : Bool) (s : State) : (s.buildLed n on).err = s.err := rfl
@[simp] theorem State.buildLed_events (n : Byte) (on : Bool) (s : State) : (s.buildLed n on).events = s.events := rfl
@[simp] theorem State.buildLed_log (n : Byte) (on : Bool) (s : State) : (s.buildLed n on).log = s.log := rfl
@[simp] theorem State.buildLed_wire (n : Byte) (on : Bool) (s : State) : (s.buildLed n on).wire = s.wire := rfl
@[simp] theorem State.buildLed_host (n : Byte) (on : Bool) (s : State) : (s.buildLed n on).host = s.host := rfl
@[simp] theorem State.buildLed_returns (n : Byte) (on : Bool) (s : State) : (s.buildLed n on).returns = s.returns := rfl
@[simp] theorem State.buildLed_result (n : Byte) (on : Bool) (s : State) : (s.buildLed n on).result = s.result := rfl
@[simp] theorem State.buildLed_dev (n : Byte) (on : Bool) (s : State) : (s.buildLed n on).dev = s.dev := rfl
@[simp] theorem State.buildLed_stim (n : Byte) (on : Bool) (s : State) : (s.buildLed n on).stim = s.stim := rfl
@[simp] theorem State.buildLed_draws (n : Byte) (on : Bool) (s : State) : (s.buildLed n on).draws = s.draws := rfl

/-! ## markSent -/

@[simp] theorem State.markSent_par (s : State) : (s.markSent).par = s.par := rfl
@[simp] theorem State.markSent_txBuf (s : State) : (s.markSent).txBuf = s.txBuf := rfl
@[simp] theorem State.markSent_txStatus (s : State) : (s.markSent).txStatus = s.txStatus := rfl
@[simp] theorem State.markSent_rxBuf (s : State) : (s.markSent).rxBuf = s.rxBuf := rfl
@[simp] theorem State.markSent_spi (s : State) : (s.markSent).spi = s.spi := rfl
@[simp] theorem State.markSent_cfgValid (s : State) : (s.markSent).cfgValid = s.cfgValid := rfl
@[simp] theorem State.markSent_tunables (s : State) : (s.markSent).tunables = s.tunables := rfl
@[simp] theorem State.markSent_cal (s : State) : (s.markSent).cal = s.cal := rfl
@[simp] theorem State.markSent_xport (s : State) : (s.markSent).xport = s.xport := rfl
@[simp] theorem State.markSent_kbd (s : State) : (s.markSent).kbd = s.kbd := rfl
@[simp] theorem State.markSent_slots (s : State) : (s.markSent).slots = s.slots := rfl
@[simp] theorem State.markSent_led (s : State) : (s.markSent).led = { s.led with sent := s.led.want, inflight := true, seq := s.led.seq + 1 } := rfl
@[simp] theorem State.markSent_initDone (s : State) : (s.markSent).initDone = s.initDone := rfl
@[simp] theorem State.markSent_gpeArmed (s : State) : (s.markSent).gpeArmed = s.gpeArmed := rfl
@[simp] theorem State.markSent_err (s : State) : (s.markSent).err = s.err := rfl
@[simp] theorem State.markSent_events (s : State) : (s.markSent).events = s.events := rfl
@[simp] theorem State.markSent_log (s : State) : (s.markSent).log = s.log := rfl
@[simp] theorem State.markSent_wire (s : State) : (s.markSent).wire = s.wire := rfl
@[simp] theorem State.markSent_host (s : State) : (s.markSent).host = s.host := rfl
@[simp] theorem State.markSent_returns (s : State) : (s.markSent).returns = s.returns := rfl
@[simp] theorem State.markSent_result (s : State) : (s.markSent).result = s.result := rfl
@[simp] theorem State.markSent_dev (s : State) : (s.markSent).dev = s.dev := rfl
@[simp] theorem State.markSent_stim (s : State) : (s.markSent).stim = s.stim := rfl
@[simp] theorem State.markSent_draws (s : State) : (s.markSent).draws = s.draws := rfl

/-! ## setWant -/

@[simp] theorem State.setWant_par (on : Bool) (s : State) : (s.setWant on).par = s.par := rfl
@[simp] theorem State.setWant_txBuf (on : Bool) (s : State) : (s.setWant on).txBuf = s.txBuf := rfl
@[simp] theorem State.setWant_txStatus (on : Bool) (s : State) : (s.setWant on).txStatus = s.txStatus := rfl
@[simp] theorem State.setWant_rxBuf (on : Bool) (s : State) : (s.setWant on).rxBuf = s.rxBuf := rfl
@[simp] theorem State.setWant_spi (on : Bool) (s : State) : (s.setWant on).spi = s.spi := rfl
@[simp] theorem State.setWant_cfgValid (on : Bool) (s : State) : (s.setWant on).cfgValid = s.cfgValid := rfl
@[simp] theorem State.setWant_tunables (on : Bool) (s : State) : (s.setWant on).tunables = s.tunables := rfl
@[simp] theorem State.setWant_cal (on : Bool) (s : State) : (s.setWant on).cal = s.cal := rfl
@[simp] theorem State.setWant_xport (on : Bool) (s : State) : (s.setWant on).xport = s.xport := rfl
@[simp] theorem State.setWant_kbd (on : Bool) (s : State) : (s.setWant on).kbd = s.kbd := rfl
@[simp] theorem State.setWant_slots (on : Bool) (s : State) : (s.setWant on).slots = s.slots := rfl
@[simp] theorem State.setWant_led (on : Bool) (s : State) : (s.setWant on).led = { s.led with want := on } := rfl
@[simp] theorem State.setWant_initDone (on : Bool) (s : State) : (s.setWant on).initDone = s.initDone := rfl
@[simp] theorem State.setWant_gpeArmed (on : Bool) (s : State) : (s.setWant on).gpeArmed = s.gpeArmed := rfl
@[simp] theorem State.setWant_err (on : Bool) (s : State) : (s.setWant on).err = s.err := rfl
@[simp] theorem State.setWant_events (on : Bool) (s : State) : (s.setWant on).events = s.events := rfl
@[simp] theorem State.setWant_log (on : Bool) (s : State) : (s.setWant on).log = s.log := rfl
@[simp] theorem State.setWant_wire (on : Bool) (s : State) : (s.setWant on).wire = s.wire := rfl
@[simp] theorem State.setWant_host (on : Bool) (s : State) : (s.setWant on).host = s.host := rfl
@[simp] theorem State.setWant_returns (on : Bool) (s : State) : (s.setWant on).returns = s.returns := rfl
@[simp] theorem State.setWant_result (on : Bool) (s : State) : (s.setWant on).result = s.result := rfl
@[simp] theorem State.setWant_dev (on : Bool) (s : State) : (s.setWant on).dev = s.dev := rfl
@[simp] theorem State.setWant_stim (on : Bool) (s : State) : (s.setWant on).stim = s.stim := rfl
@[simp] theorem State.setWant_draws (on : Bool) (s : State) : (s.setWant on).draws = s.draws := rfl

/-! ## clearInflight -/

@[simp] theorem State.clearInflight_par (s : State) : (s.clearInflight).par = s.par := rfl
@[simp] theorem State.clearInflight_txBuf (s : State) : (s.clearInflight).txBuf = s.txBuf := rfl
@[simp] theorem State.clearInflight_txStatus (s : State) : (s.clearInflight).txStatus = s.txStatus := rfl
@[simp] theorem State.clearInflight_rxBuf (s : State) : (s.clearInflight).rxBuf = s.rxBuf := rfl
@[simp] theorem State.clearInflight_spi (s : State) : (s.clearInflight).spi = s.spi := rfl
@[simp] theorem State.clearInflight_cfgValid (s : State) : (s.clearInflight).cfgValid = s.cfgValid := rfl
@[simp] theorem State.clearInflight_tunables (s : State) : (s.clearInflight).tunables = s.tunables := rfl
@[simp] theorem State.clearInflight_cal (s : State) : (s.clearInflight).cal = s.cal := rfl
@[simp] theorem State.clearInflight_xport (s : State) : (s.clearInflight).xport = s.xport := rfl
@[simp] theorem State.clearInflight_kbd (s : State) : (s.clearInflight).kbd = s.kbd := rfl
@[simp] theorem State.clearInflight_slots (s : State) : (s.clearInflight).slots = s.slots := rfl
@[simp] theorem State.clearInflight_led (s : State) : (s.clearInflight).led = { s.led with inflight := false } := rfl
@[simp] theorem State.clearInflight_initDone (s : State) : (s.clearInflight).initDone = s.initDone := rfl
@[simp] theorem State.clearInflight_gpeArmed (s : State) : (s.clearInflight).gpeArmed = s.gpeArmed := rfl
@[simp] theorem State.clearInflight_err (s : State) : (s.clearInflight).err = s.err := rfl
@[simp] theorem State.clearInflight_events (s : State) : (s.clearInflight).events = s.events := rfl
@[simp] theorem State.clearInflight_log (s : State) : (s.clearInflight).log = s.log := rfl
@[simp] theorem State.clearInflight_wire (s : State) : (s.clearInflight).wire = s.wire := rfl
@[simp] theorem State.clearInflight_host (s : State) : (s.clearInflight).host = s.host := rfl
@[simp] theorem State.clearInflight_returns (s : State) : (s.clearInflight).returns = s.returns := rfl
@[simp] theorem State.clearInflight_result (s : State) : (s.clearInflight).result = s.result := rfl
@[simp] theorem State.clearInflight_dev (s : State) : (s.clearInflight).dev = s.dev := rfl
@[simp] theorem State.clearInflight_stim (s : State) : (s.clearInflight).stim = s.stim := rfl
@[simp] theorem State.clearInflight_draws (s : State) : (s.clearInflight).draws = s.draws := rfl

/-! ## setKeyFn -/

@[simp] theorem State.setKeyFn_par (i : Fin 6) (b : Bool) (s : State) : (s.setKeyFn i b).par = s.par := rfl
@[simp] theorem State.setKeyFn_txBuf (i : Fin 6) (b : Bool) (s : State) : (s.setKeyFn i b).txBuf = s.txBuf := rfl
@[simp] theorem State.setKeyFn_txStatus (i : Fin 6) (b : Bool) (s : State) : (s.setKeyFn i b).txStatus = s.txStatus := rfl
@[simp] theorem State.setKeyFn_rxBuf (i : Fin 6) (b : Bool) (s : State) : (s.setKeyFn i b).rxBuf = s.rxBuf := rfl
@[simp] theorem State.setKeyFn_spi (i : Fin 6) (b : Bool) (s : State) : (s.setKeyFn i b).spi = s.spi := rfl
@[simp] theorem State.setKeyFn_cfgValid (i : Fin 6) (b : Bool) (s : State) : (s.setKeyFn i b).cfgValid = s.cfgValid := rfl
@[simp] theorem State.setKeyFn_tunables (i : Fin 6) (b : Bool) (s : State) : (s.setKeyFn i b).tunables = s.tunables := rfl
@[simp] theorem State.setKeyFn_cal (i : Fin 6) (b : Bool) (s : State) : (s.setKeyFn i b).cal = s.cal := rfl
@[simp] theorem State.setKeyFn_xport (i : Fin 6) (b : Bool) (s : State) : (s.setKeyFn i b).xport = s.xport := rfl
@[simp] theorem State.setKeyFn_kbd (i : Fin 6) (b : Bool) (s : State) : (s.setKeyFn i b).kbd = { s.kbd with lastKeysFn := s.kbd.lastKeysFn.set i b } := rfl
@[simp] theorem State.setKeyFn_slots (i : Fin 6) (b : Bool) (s : State) : (s.setKeyFn i b).slots = s.slots := rfl
@[simp] theorem State.setKeyFn_led (i : Fin 6) (b : Bool) (s : State) : (s.setKeyFn i b).led = s.led := rfl
@[simp] theorem State.setKeyFn_initDone (i : Fin 6) (b : Bool) (s : State) : (s.setKeyFn i b).initDone = s.initDone := rfl
@[simp] theorem State.setKeyFn_gpeArmed (i : Fin 6) (b : Bool) (s : State) : (s.setKeyFn i b).gpeArmed = s.gpeArmed := rfl
@[simp] theorem State.setKeyFn_err (i : Fin 6) (b : Bool) (s : State) : (s.setKeyFn i b).err = s.err := rfl
@[simp] theorem State.setKeyFn_events (i : Fin 6) (b : Bool) (s : State) : (s.setKeyFn i b).events = s.events := rfl
@[simp] theorem State.setKeyFn_log (i : Fin 6) (b : Bool) (s : State) : (s.setKeyFn i b).log = s.log := rfl
@[simp] theorem State.setKeyFn_wire (i : Fin 6) (b : Bool) (s : State) : (s.setKeyFn i b).wire = s.wire := rfl
@[simp] theorem State.setKeyFn_host (i : Fin 6) (b : Bool) (s : State) : (s.setKeyFn i b).host = s.host := rfl
@[simp] theorem State.setKeyFn_returns (i : Fin 6) (b : Bool) (s : State) : (s.setKeyFn i b).returns = s.returns := rfl
@[simp] theorem State.setKeyFn_result (i : Fin 6) (b : Bool) (s : State) : (s.setKeyFn i b).result = s.result := rfl
@[simp] theorem State.setKeyFn_dev (i : Fin 6) (b : Bool) (s : State) : (s.setKeyFn i b).dev = s.dev := rfl
@[simp] theorem State.setKeyFn_stim (i : Fin 6) (b : Bool) (s : State) : (s.setKeyFn i b).stim = s.stim := rfl
@[simp] theorem State.setKeyFn_draws (i : Fin 6) (b : Bool) (s : State) : (s.setKeyFn i b).draws = s.draws := rfl

/-! ## persistFrame -/

@[simp] theorem State.persistFrame_par (f : KeyboardFrame) (s : State) : (s.persistFrame f).par = s.par := rfl
@[simp] theorem State.persistFrame_txBuf (f : KeyboardFrame) (s : State) : (s.persistFrame f).txBuf = s.txBuf := rfl
@[simp] theorem State.persistFrame_txStatus (f : KeyboardFrame) (s : State) : (s.persistFrame f).txStatus = s.txStatus := rfl
@[simp] theorem State.persistFrame_rxBuf (f : KeyboardFrame) (s : State) : (s.persistFrame f).rxBuf = s.rxBuf := rfl
@[simp] theorem State.persistFrame_spi (f : KeyboardFrame) (s : State) : (s.persistFrame f).spi = s.spi := rfl
@[simp] theorem State.persistFrame_cfgValid (f : KeyboardFrame) (s : State) : (s.persistFrame f).cfgValid = s.cfgValid := rfl
@[simp] theorem State.persistFrame_tunables (f : KeyboardFrame) (s : State) : (s.persistFrame f).tunables = s.tunables := rfl
@[simp] theorem State.persistFrame_cal (f : KeyboardFrame) (s : State) : (s.persistFrame f).cal = s.cal := rfl
@[simp] theorem State.persistFrame_xport (f : KeyboardFrame) (s : State) : (s.persistFrame f).xport = s.xport := rfl
@[simp] theorem State.persistFrame_kbd (f : KeyboardFrame) (s : State) : (s.persistFrame f).kbd = { s.kbd with lastFn := f.fn, lastKeys := f.keys } := rfl
@[simp] theorem State.persistFrame_slots (f : KeyboardFrame) (s : State) : (s.persistFrame f).slots = s.slots := rfl
@[simp] theorem State.persistFrame_led (f : KeyboardFrame) (s : State) : (s.persistFrame f).led = s.led := rfl
@[simp] theorem State.persistFrame_initDone (f : KeyboardFrame) (s : State) : (s.persistFrame f).initDone = s.initDone := rfl
@[simp] theorem State.persistFrame_gpeArmed (f : KeyboardFrame) (s : State) : (s.persistFrame f).gpeArmed = s.gpeArmed := rfl
@[simp] theorem State.persistFrame_err (f : KeyboardFrame) (s : State) : (s.persistFrame f).err = s.err := rfl
@[simp] theorem State.persistFrame_events (f : KeyboardFrame) (s : State) : (s.persistFrame f).events = s.events := rfl
@[simp] theorem State.persistFrame_log (f : KeyboardFrame) (s : State) : (s.persistFrame f).log = s.log := rfl
@[simp] theorem State.persistFrame_wire (f : KeyboardFrame) (s : State) : (s.persistFrame f).wire = s.wire := rfl
@[simp] theorem State.persistFrame_host (f : KeyboardFrame) (s : State) : (s.persistFrame f).host = s.host := rfl
@[simp] theorem State.persistFrame_returns (f : KeyboardFrame) (s : State) : (s.persistFrame f).returns = s.returns := rfl
@[simp] theorem State.persistFrame_result (f : KeyboardFrame) (s : State) : (s.persistFrame f).result = s.result := rfl
@[simp] theorem State.persistFrame_dev (f : KeyboardFrame) (s : State) : (s.persistFrame f).dev = s.dev := rfl
@[simp] theorem State.persistFrame_stim (f : KeyboardFrame) (s : State) : (s.persistFrame f).stim = s.stim := rfl
@[simp] theorem State.persistFrame_draws (f : KeyboardFrame) (s : State) : (s.persistFrame f).draws = s.draws := rfl

/-! ## setSlots -/

@[simp] theorem State.setSlots_par (v : Vector Slot 6) (s : State) : (s.setSlots v).par = s.par := rfl
@[simp] theorem State.setSlots_txBuf (v : Vector Slot 6) (s : State) : (s.setSlots v).txBuf = s.txBuf := rfl
@[simp] theorem State.setSlots_txStatus (v : Vector Slot 6) (s : State) : (s.setSlots v).txStatus = s.txStatus := rfl
@[simp] theorem State.setSlots_rxBuf (v : Vector Slot 6) (s : State) : (s.setSlots v).rxBuf = s.rxBuf := rfl
@[simp] theorem State.setSlots_spi (v : Vector Slot 6) (s : State) : (s.setSlots v).spi = s.spi := rfl
@[simp] theorem State.setSlots_cfgValid (v : Vector Slot 6) (s : State) : (s.setSlots v).cfgValid = s.cfgValid := rfl
@[simp] theorem State.setSlots_tunables (v : Vector Slot 6) (s : State) : (s.setSlots v).tunables = s.tunables := rfl
@[simp] theorem State.setSlots_cal (v : Vector Slot 6) (s : State) : (s.setSlots v).cal = s.cal := rfl
@[simp] theorem State.setSlots_xport (v : Vector Slot 6) (s : State) : (s.setSlots v).xport = s.xport := rfl
@[simp] theorem State.setSlots_kbd (v : Vector Slot 6) (s : State) : (s.setSlots v).kbd = s.kbd := rfl
@[simp] theorem State.setSlots_slots (v : Vector Slot 6) (s : State) : (s.setSlots v).slots = v := rfl
@[simp] theorem State.setSlots_led (v : Vector Slot 6) (s : State) : (s.setSlots v).led = s.led := rfl
@[simp] theorem State.setSlots_initDone (v : Vector Slot 6) (s : State) : (s.setSlots v).initDone = s.initDone := rfl
@[simp] theorem State.setSlots_gpeArmed (v : Vector Slot 6) (s : State) : (s.setSlots v).gpeArmed = s.gpeArmed := rfl
@[simp] theorem State.setSlots_err (v : Vector Slot 6) (s : State) : (s.setSlots v).err = s.err := rfl
@[simp] theorem State.setSlots_events (v : Vector Slot 6) (s : State) : (s.setSlots v).events = s.events := rfl
@[simp] theorem State.setSlots_log (v : Vector Slot 6) (s : State) : (s.setSlots v).log = s.log := rfl
@[simp] theorem State.setSlots_wire (v : Vector Slot 6) (s : State) : (s.setSlots v).wire = s.wire := rfl
@[simp] theorem State.setSlots_host (v : Vector Slot 6) (s : State) : (s.setSlots v).host = s.host := rfl
@[simp] theorem State.setSlots_returns (v : Vector Slot 6) (s : State) : (s.setSlots v).returns = s.returns := rfl
@[simp] theorem State.setSlots_result (v : Vector Slot 6) (s : State) : (s.setSlots v).result = s.result := rfl
@[simp] theorem State.setSlots_dev (v : Vector Slot 6) (s : State) : (s.setSlots v).dev = s.dev := rfl
@[simp] theorem State.setSlots_stim (v : Vector Slot 6) (s : State) : (s.setSlots v).stim = s.stim := rfl
@[simp] theorem State.setSlots_draws (v : Vector Slot 6) (s : State) : (s.setSlots v).draws = s.draws := rfl

/-! ## storeConfig -/

@[simp] theorem State.storeConfig_par (v : SpiSettings) (s : State) : (s.storeConfig v).par = s.par := rfl
@[simp] theorem State.storeConfig_txBuf (v : SpiSettings) (s : State) : (s.storeConfig v).txBuf = s.txBuf := rfl
@[simp] theorem State.storeConfig_txStatus (v : SpiSettings) (s : State) : (s.storeConfig v).txStatus = s.txStatus := rfl
@[simp] theorem State.storeConfig_rxBuf (v : SpiSettings) (s : State) : (s.storeConfig v).rxBuf = s.rxBuf := rfl
@[simp] theorem State.storeConfig_spi (v : SpiSettings) (s : State) : (s.storeConfig v).spi = v := rfl
@[simp] theorem State.storeConfig_cfgValid (v : SpiSettings) (s : State) : (s.storeConfig v).cfgValid = true := rfl
@[simp] theorem State.storeConfig_tunables (v : SpiSettings) (s : State) : (s.storeConfig v).tunables = s.tunables := rfl
@[simp] theorem State.storeConfig_cal (v : SpiSettings) (s : State) : (s.storeConfig v).cal = s.cal := rfl
@[simp] theorem State.storeConfig_xport (v : SpiSettings) (s : State) : (s.storeConfig v).xport = s.xport := rfl
@[simp] theorem State.storeConfig_kbd (v : SpiSettings) (s : State) : (s.storeConfig v).kbd = s.kbd := rfl
@[simp] theorem State.storeConfig_slots (v : SpiSettings) (s : State) : (s.storeConfig v).slots = s.slots := rfl
@[simp] theorem State.storeConfig_led (v : SpiSettings) (s : State) : (s.storeConfig v).led = s.led := rfl
@[simp] theorem State.storeConfig_initDone (v : SpiSettings) (s : State) : (s.storeConfig v).initDone = s.initDone := rfl
@[simp] theorem State.storeConfig_gpeArmed (v : SpiSettings) (s : State) : (s.storeConfig v).gpeArmed = s.gpeArmed := rfl
@[simp] theorem State.storeConfig_err (v : SpiSettings) (s : State) : (s.storeConfig v).err = s.err := rfl
@[simp] theorem State.storeConfig_events (v : SpiSettings) (s : State) : (s.storeConfig v).events = s.events := rfl
@[simp] theorem State.storeConfig_log (v : SpiSettings) (s : State) : (s.storeConfig v).log = s.log := rfl
@[simp] theorem State.storeConfig_wire (v : SpiSettings) (s : State) : (s.storeConfig v).wire = s.wire := rfl
@[simp] theorem State.storeConfig_host (v : SpiSettings) (s : State) : (s.storeConfig v).host = s.host := rfl
@[simp] theorem State.storeConfig_returns (v : SpiSettings) (s : State) : (s.storeConfig v).returns = s.returns := rfl
@[simp] theorem State.storeConfig_result (v : SpiSettings) (s : State) : (s.storeConfig v).result = s.result := rfl
@[simp] theorem State.storeConfig_dev (v : SpiSettings) (s : State) : (s.storeConfig v).dev = s.dev := rfl
@[simp] theorem State.storeConfig_stim (v : SpiSettings) (s : State) : (s.storeConfig v).stim = s.stim := rfl
@[simp] theorem State.storeConfig_draws (v : SpiSettings) (s : State) : (s.storeConfig v).draws = s.draws := rfl

/-! ## setTunablesReg -/

@[simp] theorem State.setTunablesReg_par (v : BitVec 3) (s : State) : (s.setTunablesReg v).par = s.par := rfl
@[simp] theorem State.setTunablesReg_txBuf (v : BitVec 3) (s : State) : (s.setTunablesReg v).txBuf = s.txBuf := rfl
@[simp] theorem State.setTunablesReg_txStatus (v : BitVec 3) (s : State) : (s.setTunablesReg v).txStatus = s.txStatus := rfl
@[simp] theorem State.setTunablesReg_rxBuf (v : BitVec 3) (s : State) : (s.setTunablesReg v).rxBuf = s.rxBuf := rfl
@[simp] theorem State.setTunablesReg_spi (v : BitVec 3) (s : State) : (s.setTunablesReg v).spi = s.spi := rfl
@[simp] theorem State.setTunablesReg_cfgValid (v : BitVec 3) (s : State) : (s.setTunablesReg v).cfgValid = s.cfgValid := rfl
@[simp] theorem State.setTunablesReg_tunables (v : BitVec 3) (s : State) : (s.setTunablesReg v).tunables = v := rfl
@[simp] theorem State.setTunablesReg_cal (v : BitVec 3) (s : State) : (s.setTunablesReg v).cal = s.cal := rfl
@[simp] theorem State.setTunablesReg_xport (v : BitVec 3) (s : State) : (s.setTunablesReg v).xport = s.xport := rfl
@[simp] theorem State.setTunablesReg_kbd (v : BitVec 3) (s : State) : (s.setTunablesReg v).kbd = s.kbd := rfl
@[simp] theorem State.setTunablesReg_slots (v : BitVec 3) (s : State) : (s.setTunablesReg v).slots = s.slots := rfl
@[simp] theorem State.setTunablesReg_led (v : BitVec 3) (s : State) : (s.setTunablesReg v).led = s.led := rfl
@[simp] theorem State.setTunablesReg_initDone (v : BitVec 3) (s : State) : (s.setTunablesReg v).initDone = s.initDone := rfl
@[simp] theorem State.setTunablesReg_gpeArmed (v : BitVec 3) (s : State) : (s.setTunablesReg v).gpeArmed = s.gpeArmed := rfl
@[simp] theorem State.setTunablesReg_err (v : BitVec 3) (s : State) : (s.setTunablesReg v).err = s.err := rfl
@[simp] theorem State.setTunablesReg_events (v : BitVec 3) (s : State) : (s.setTunablesReg v).events = s.events := rfl
@[simp] theorem State.setTunablesReg_log (v : BitVec 3) (s : State) : (s.setTunablesReg v).log = s.log := rfl
@[simp] theorem State.setTunablesReg_wire (v : BitVec 3) (s : State) : (s.setTunablesReg v).wire = s.wire := rfl
@[simp] theorem State.setTunablesReg_host (v : BitVec 3) (s : State) : (s.setTunablesReg v).host = s.host := rfl
@[simp] theorem State.setTunablesReg_returns (v : BitVec 3) (s : State) : (s.setTunablesReg v).returns = s.returns := rfl
@[simp] theorem State.setTunablesReg_result (v : BitVec 3) (s : State) : (s.setTunablesReg v).result = s.result := rfl
@[simp] theorem State.setTunablesReg_dev (v : BitVec 3) (s : State) : (s.setTunablesReg v).dev = s.dev := rfl
@[simp] theorem State.setTunablesReg_stim (v : BitVec 3) (s : State) : (s.setTunablesReg v).stim = s.stim := rfl
@[simp] theorem State.setTunablesReg_draws (v : BitVec 3) (s : State) : (s.setTunablesReg v).draws = s.draws := rfl

/-! ## setCalibration -/

@[simp] theorem State.setCalibration_par (c : Calibration) (s : State) : (s.setCalibration c).par = s.par := rfl
@[simp] theorem State.setCalibration_txBuf (c : Calibration) (s : State) : (s.setCalibration c).txBuf = s.txBuf := rfl
@[simp] theorem State.setCalibration_txStatus (c : Calibration) (s : State) : (s.setCalibration c).txStatus = s.txStatus := rfl
@[simp] theorem State.setCalibration_rxBuf (c : Calibration) (s : State) : (s.setCalibration c).rxBuf = s.rxBuf := rfl
@[simp] theorem State.setCalibration_spi (c : Calibration) (s : State) : (s.setCalibration c).spi = s.spi := rfl
@[simp] theorem State.setCalibration_cfgValid (c : Calibration) (s : State) : (s.setCalibration c).cfgValid = s.cfgValid := rfl
@[simp] theorem State.setCalibration_tunables (c : Calibration) (s : State) : (s.setCalibration c).tunables = s.tunables := rfl
@[simp] theorem State.setCalibration_cal (c : Calibration) (s : State) : (s.setCalibration c).cal = c := rfl
@[simp] theorem State.setCalibration_xport (c : Calibration) (s : State) : (s.setCalibration c).xport = s.xport := rfl
@[simp] theorem State.setCalibration_kbd (c : Calibration) (s : State) : (s.setCalibration c).kbd = s.kbd := rfl
@[simp] theorem State.setCalibration_slots (c : Calibration) (s : State) : (s.setCalibration c).slots = s.slots := rfl
@[simp] theorem State.setCalibration_led (c : Calibration) (s : State) : (s.setCalibration c).led = s.led := rfl
@[simp] theorem State.setCalibration_initDone (c : Calibration) (s : State) : (s.setCalibration c).initDone = s.initDone := rfl
@[simp] theorem State.setCalibration_gpeArmed (c : Calibration) (s : State) : (s.setCalibration c).gpeArmed = s.gpeArmed := rfl
@[simp] theorem State.setCalibration_err (c : Calibration) (s : State) : (s.setCalibration c).err = s.err := rfl
@[simp] theorem State.setCalibration_events (c : Calibration) (s : State) : (s.setCalibration c).events = s.events := rfl
@[simp] theorem State.setCalibration_log (c : Calibration) (s : State) : (s.setCalibration c).log = s.log := rfl
@[simp] theorem State.setCalibration_wire (c : Calibration) (s : State) : (s.setCalibration c).wire = s.wire := rfl
@[simp] theorem State.setCalibration_host (c : Calibration) (s : State) : (s.setCalibration c).host = s.host := rfl
@[simp] theorem State.setCalibration_returns (c : Calibration) (s : State) : (s.setCalibration c).returns = s.returns := rfl
@[simp] theorem State.setCalibration_result (c : Calibration) (s : State) : (s.setCalibration c).result = s.result := rfl
@[simp] theorem State.setCalibration_dev (c : Calibration) (s : State) : (s.setCalibration c).dev = s.dev := rfl
@[simp] theorem State.setCalibration_stim (c : Calibration) (s : State) : (s.setCalibration c).stim = s.stim := rfl
@[simp] theorem State.setCalibration_draws (c : Calibration) (s : State) : (s.setCalibration c).draws = s.draws := rfl

/-! ## setMode -/

@[simp] theorem State.setMode_par (b : Bool) (s : State) : (s.setMode b).par = s.par := rfl
@[simp] theorem State.setMode_txBuf (b : Bool) (s : State) : (s.setMode b).txBuf = s.txBuf := rfl
@[simp] theorem State.setMode_txStatus (b : Bool) (s : State) : (s.setMode b).txStatus = s.txStatus := rfl
@[simp] theorem State.setMode_rxBuf (b : Bool) (s : State) : (s.setMode b).rxBuf = s.rxBuf := rfl
@[simp] theorem State.setMode_spi (b : Bool) (s : State) : (s.setMode b).spi = s.spi := rfl
@[simp] theorem State.setMode_cfgValid (b : Bool) (s : State) : (s.setMode b).cfgValid = s.cfgValid := rfl
@[simp] theorem State.setMode_tunables (b : Bool) (s : State) : (s.setMode b).tunables = s.tunables := rfl
@[simp] theorem State.setMode_cal (b : Bool) (s : State) : (s.setMode b).cal = s.cal := rfl
@[simp] theorem State.setMode_xport (b : Bool) (s : State) : (s.setMode b).xport = s.xport := rfl
@[simp] theorem State.setMode_kbd (b : Bool) (s : State) : (s.setMode b).kbd = s.kbd := rfl
@[simp] theorem State.setMode_slots (b : Bool) (s : State) : (s.setMode b).slots = s.slots := rfl
@[simp] theorem State.setMode_led (b : Bool) (s : State) : (s.setMode b).led = s.led := rfl
@[simp] theorem State.setMode_initDone (b : Bool) (s : State) : (s.setMode b).initDone = b := rfl
@[simp] theorem State.setMode_gpeArmed (b : Bool) (s : State) : (s.setMode b).gpeArmed = b := rfl
@[simp] theorem State.setMode_err (b : Bool) (s : State) : (s.setMode b).err = s.err := rfl
@[simp] theorem State.setMode_events (b : Bool) (s : State) : (s.setMode b).events = s.events := rfl
@[simp] theorem State.setMode_log (b : Bool) (s : State) : (s.setMode b).log = s.log := rfl
@[simp] theorem State.setMode_wire (b : Bool) (s : State) : (s.setMode b).wire = s.wire := rfl
@[simp] theorem State.setMode_host (b : Bool) (s : State) : (s.setMode b).host = s.host := rfl
@[simp] theorem State.setMode_returns (b : Bool) (s : State) : (s.setMode b).returns = s.returns := rfl
@[simp] theorem State.setMode_result (b : Bool) (s : State) : (s.setMode b).result = s.result := rfl
@[simp] theorem State.setMode_dev (b : Bool) (s : State) : (s.setMode b).dev = s.dev := rfl
@[simp] theorem State.setMode_stim (b : Bool) (s : State) : (s.setMode b).stim = s.stim := rfl
@[simp] theorem State.setMode_draws (b : Bool) (s : State) : (s.setMode b).draws = s.draws := rfl

/-! ## setStatus -/

@[simp] theorem State.setStatus_par (bs : List Byte) (s : State) : (s.setStatus bs).par = s.par := rfl
@[simp] theorem State.setStatus_txBuf (bs : List Byte) (s : State) : (s.setStatus bs).txBuf = s.txBuf := rfl
@[simp] theorem State.setStatus_txStatus (bs : List Byte) (s : State) : (s.setStatus bs).txStatus = Memory.load bs := rfl
@[simp] theorem State.setStatus_rxBuf (bs : List Byte) (s : State) : (s.setStatus bs).rxBuf = s.rxBuf := rfl
@[simp] theorem State.setStatus_spi (bs : List Byte) (s : State) : (s.setStatus bs).spi = s.spi := rfl
@[simp] theorem State.setStatus_cfgValid (bs : List Byte) (s : State) : (s.setStatus bs).cfgValid = s.cfgValid := rfl
@[simp] theorem State.setStatus_tunables (bs : List Byte) (s : State) : (s.setStatus bs).tunables = s.tunables := rfl
@[simp] theorem State.setStatus_cal (bs : List Byte) (s : State) : (s.setStatus bs).cal = s.cal := rfl
@[simp] theorem State.setStatus_xport (bs : List Byte) (s : State) : (s.setStatus bs).xport = s.xport := rfl
@[simp] theorem State.setStatus_kbd (bs : List Byte) (s : State) : (s.setStatus bs).kbd = s.kbd := rfl
@[simp] theorem State.setStatus_slots (bs : List Byte) (s : State) : (s.setStatus bs).slots = s.slots := rfl
@[simp] theorem State.setStatus_led (bs : List Byte) (s : State) : (s.setStatus bs).led = s.led := rfl
@[simp] theorem State.setStatus_initDone (bs : List Byte) (s : State) : (s.setStatus bs).initDone = s.initDone := rfl
@[simp] theorem State.setStatus_gpeArmed (bs : List Byte) (s : State) : (s.setStatus bs).gpeArmed = s.gpeArmed := rfl
@[simp] theorem State.setStatus_err (bs : List Byte) (s : State) : (s.setStatus bs).err = s.err := rfl
@[simp] theorem State.setStatus_events (bs : List Byte) (s : State) : (s.setStatus bs).events = s.events := rfl
@[simp] theorem State.setStatus_log (bs : List Byte) (s : State) : (s.setStatus bs).log = s.log := rfl
@[simp] theorem State.setStatus_wire (bs : List Byte) (s : State) : (s.setStatus bs).wire = s.wire := rfl
@[simp] theorem State.setStatus_host (bs : List Byte) (s : State) : (s.setStatus bs).host = s.host := rfl
@[simp] theorem State.setStatus_returns (bs : List Byte) (s : State) : (s.setStatus bs).returns = s.returns := rfl
@[simp] theorem State.setStatus_result (bs : List Byte) (s : State) : (s.setStatus bs).result = s.result := rfl
@[simp] theorem State.setStatus_dev (bs : List Byte) (s : State) : (s.setStatus bs).dev = s.dev := rfl
@[simp] theorem State.setStatus_stim (bs : List Byte) (s : State) : (s.setStatus bs).stim = s.stim := rfl
@[simp] theorem State.setStatus_draws (bs : List Byte) (s : State) : (s.setStatus bs).draws = s.draws := rfl

/-! ## setRx -/

@[simp] theorem State.setRx_par (bs : List Byte) (s : State) : (s.setRx bs).par = s.par := rfl
@[simp] theorem State.setRx_txBuf (bs : List Byte) (s : State) : (s.setRx bs).txBuf = s.txBuf := rfl
@[simp] theorem State.setRx_txStatus (bs : List Byte) (s : State) : (s.setRx bs).txStatus = s.txStatus := rfl
@[simp] theorem State.setRx_rxBuf (bs : List Byte) (s : State) : (s.setRx bs).rxBuf = Memory.load bs := rfl
@[simp] theorem State.setRx_spi (bs : List Byte) (s : State) : (s.setRx bs).spi = s.spi := rfl
@[simp] theorem State.setRx_cfgValid (bs : List Byte) (s : State) : (s.setRx bs).cfgValid = s.cfgValid := rfl
@[simp] theorem State.setRx_tunables (bs : List Byte) (s : State) : (s.setRx bs).tunables = s.tunables := rfl
@[simp] theorem State.setRx_cal (bs : List Byte) (s : State) : (s.setRx bs).cal = s.cal := rfl
@[simp] theorem State.setRx_xport (bs : List Byte) (s : State) : (s.setRx bs).xport = s.xport := rfl
@[simp] theorem State.setRx_kbd (bs : List Byte) (s : State) : (s.setRx bs).kbd = s.kbd := rfl
@[simp] theorem State.setRx_slots (bs : List Byte) (s : State) : (s.setRx bs).slots = s.slots := rfl
@[simp] theorem State.setRx_led (bs : List Byte) (s : State) : (s.setRx bs).led = s.led := rfl
@[simp] theorem State.setRx_initDone (bs : List Byte) (s : State) : (s.setRx bs).initDone = s.initDone := rfl
@[simp] theorem State.setRx_gpeArmed (bs : List Byte) (s : State) : (s.setRx bs).gpeArmed = s.gpeArmed := rfl
@[simp] theorem State.setRx_err (bs : List Byte) (s : State) : (s.setRx bs).err = s.err := rfl
@[simp] theorem State.setRx_events (bs : List Byte) (s : State) : (s.setRx bs).events = s.events := rfl
@[simp] theorem State.setRx_log (bs : List Byte) (s : State) : (s.setRx bs).log = s.log := rfl
@[simp] theorem State.setRx_wire (bs : List Byte) (s : State) : (s.setRx bs).wire = s.wire := rfl
@[simp] theorem State.setRx_host (bs : List Byte) (s : State) : (s.setRx bs).host = s.host := rfl
@[simp] theorem State.setRx_returns (bs : List Byte) (s : State) : (s.setRx bs).returns = s.returns := rfl
@[simp] theorem State.setRx_result (bs : List Byte) (s : State) : (s.setRx bs).result = s.result := rfl
@[simp] theorem State.setRx_dev (bs : List Byte) (s : State) : (s.setRx bs).dev = s.dev := rfl
@[simp] theorem State.setRx_stim (bs : List Byte) (s : State) : (s.setRx bs).stim = s.stim := rfl
@[simp] theorem State.setRx_draws (bs : List Byte) (s : State) : (s.setRx bs).draws = s.draws := rfl

end Sys2Proof.Machine
end

