-- ==== Sys2Proof/Laws/Codec.lean ====
section
/-! SUPPORT. What the codec's shared operations do: little-endian fields, the CRC register, the LED command (41_codec.md). -/

namespace Sys2Proof.Machine

/-! ## Fields -/

/-- A byte appended below is the low eight bits. -/
theorem toNat_append_byte {w : Nat} (x : BitVec w) (b : Byte) : (x ++ b).toNat = 256 * x.toNat + b.toNat := by
  rw [BitVec.toNat_append, Nat.shiftLeft_eq, Nat.mul_comm, ← Nat.two_pow_add_eq_or_of_lt b.isLt]

/-- A 16-bit field is its two bytes, the lower offset the less significant (R61, R63). -/
theorem le16_eq (m : Memory) (off : Nat) : le16 m off = m.get (off + 1) ++ m.get off := by
  apply BitVec.eq_of_toNat_eq
  have h0 := (m.get off).isLt
  have h1 := (m.get (off + 1)).isLt
  have hb : m.bytes off 2 = [m.get off, m.get (off + 1)] := rfl
  simp only [le16, Memory.read, hb, leNat, BitVec.toNat_ofNat, toNat_append_byte]
  omega

/-- `tx_status` as a little-endian number (R61). -/
theorem read_four (m : Memory) :
    BitVec.ofNat 32 (m.read 0 4) = m.get 3 ++ m.get 2 ++ m.get 1 ++ m.get 0 := by
  apply BitVec.eq_of_toNat_eq
  have h0 := (m.get 0).isLt
  have h1 := (m.get 1).isLt
  have h2 := (m.get 2).isLt
  have h3 := (m.get 3).isLt
  have hb : m.bytes 0 4 = [m.get 0, m.get 1, m.get 2, m.get 3] := rfl
  simp only [Memory.read, hb, leNat, BitVec.toNat_ofNat, toNat_append_byte]
  omega

/-- A class is decided by bytes 0 and 1 (R171). -/
theorem classifyPacket_congr (t : Tags) {m m' : Memory} (h0 : m.get 0 = m'.get 0) (h1 : m.get 1 = m'.get 1) :
    classifyPacket t m = classifyPacket t m' := by
  simp [classifyPacket, le16_eq, h0, h1]

/-! ## CRC-16 -/

theorem crcShift_zero (poly : Word16) : crcShift poly 0 = 0 := by simp [crcShift]

theorem crcShifts_zero (poly : Word16) (n : Nat) : crcShifts poly n 0 = 0 := by
  induction n with
  | zero => rfl
  | succ n ih => rw [crcShifts, crcShift_zero, ih]

/-- "with seed 0 the register never leaves 0" (R176). -/
theorem crcByte_zero (poly : Word16) : crcByte poly 0 0 = 0 := by
  have h : (0 : Word16) ^^^ BitVec.setWidth 16 (0 : Byte) = 0 := by decide
  rw [crcByte, h, crcShifts_zero]

theorem crcOf_append (poly : Word16) (d e : List Byte) : crcOf poly (d ++ e) = e.foldl (crcByte poly) (crcOf poly d) := by
  simp [crcOf, List.foldl_append]

/-! ## The LED command -/

/-- The template with the two field bytes in place (R177). -/
theorem ledFields_wf (p : Params) (n : Byte) (on : Bool) : Memory.wf packetLen (ledFields p n on) = true := by
  refine Memory.write_wf (Memory.write_wf (Memory.load_wf _ ?_) ?_ _) ?_ _ <;> simp [packetLen]

theorem ledFields_get (p : Params) (n : Byte) (on : Bool) (a : Nat) :
    (ledFields p n on).get a
      = if a = 17 then ledValueByte on else if a = 11 then n else p.ledTemplate.toList.getD a Config.unlistedByte := by
  have w0 : Memory.wf packetLen (Memory.load p.ledTemplate.toList) = true := Memory.load_wf _ (by simp [packetLen])
  have w1 := Memory.write_wf w0 (off := 11) (n := 1) (by decide) n.toNat
  rw [ledFields, Memory.get_write w1 (by decide), Memory.get_write w0 (by decide), Memory.get_load]
  by_cases h17 : a = 17
  · subst h17; simp [leBytes]
  · by_cases h11 : a = 11
    · subst h11; simp [leBytes]
    · rw [if_neg (by omega), if_neg (by omega), if_neg h17, if_neg h11]

theorem ledCommand_wf (p : Params) (n : Byte) (on : Bool) : Memory.wf packetLen (ledCommand p n on) = true :=
  Memory.write_wf (ledFields_wf p n on) (by decide) _

/-- Every byte of the LED command but the two of the CRC (R96). -/
theorem ledCommand_get (p : Params) (n : Byte) (on : Bool) {a : Nat} (h18 : a ≠ 18) (h19 : a ≠ 19) :
    (ledCommand p n on).get a
      = if a = 17 then ledValueByte on else if a = 11 then n else p.ledTemplate.toList.getD a Config.unlistedByte := by
  rw [ledCommand, Memory.get_write (ledFields_wf p n on) (by decide), if_neg (by omega), ledFields_get]

/-- The stored CRC of the LED command is the one computed before it was stored (R177). -/
theorem ledCommand_crc (p : Params) (n : Byte) (on : Bool) :
    le16 (ledCommand p n on) 18 = ledCrc p.crcPoly (ledFields p n on) := by
  have h := Memory.bytes_write (ledFields_wf p n on) (off := 18) (n := 2) (by decide) (ledCrc p.crcPoly (ledFields p n on)).toNat
  rw [le16, Memory.read, ledCommand, h, leNat_leBytes]
  apply BitVec.eq_of_toNat_eq
  have := (ledCrc p.crcPoly (ledFields p n on)).isLt
  simp only [BitVec.toNat_ofNat]
  omega

/-- The region of the CRC does not hold the CRC (00_scope.md R6). -/
theorem ledCrc_ledCommand (p : Params) (n : Byte) (on : Bool) :
    ledCrc p.crcPoly (ledCommand p n on) = ledCrc p.crcPoly (ledFields p n on) := by
  unfold ledCrc
  rw [Memory.bytes_congr (m' := ledFields p n on)]
  intro i hi
  rw [ledCommand_get p n on (by omega) (by omega), ledFields_get]

end Sys2Proof.Machine
end

