-- ==== Sys2Proof/Laws/Decode.lean ====
section
/-! SUPPORT. The decoder's field readers on the encoder's bytes: each operand read at the place the encoder put it, whatever stands
before and after it. -/

namespace Sys2Proof

/-! ## Bytes -/

theorem byteAt_append_right (a b : List Byte) (k : Nat) : byteAt (a ++ b) (a.length + k) = byteAt b k := by
  simp [byteAt, List.getD_eq_getElem?_getD, List.getElem?_append_right]

theorem byteAt_length (a : List Byte) (b : Byte) (t : List Byte) : byteAt (a ++ b :: t) a.length = b := by
  have h := byteAt_append_right a (b :: t) 0
  rw [Nat.add_zero] at h
  rw [h]
  rfl

theorem slice_append_right (a b : List Byte) (k n : Nat) : slice (a ++ b) (a.length + k) n = slice b k n := by
  simp [slice, List.drop_append, List.drop_eq_nil_of_le]

/-- A field that is there is read whole. -/
theorem slice_exact (a b t : List Byte) : slice (a ++ (b ++ t)) a.length b.length = b := by
  have h := slice_append_right a (b ++ t) 0 b.length
  rw [Nat.add_zero] at h
  rw [h, slice, List.drop_zero, List.append_assoc, List.take_left]

theorem bytesAt_exact {n : Nat} (a t : List Byte) (v : Vector Byte n) (off : Nat) (h : off = a.length) :
    bytesAt (a ++ (v.toList ++ t)) off n = v := by
  subst h
  apply Vector.toArray_inj.mp
  apply Array.toList_inj.mp
  have e := slice_exact a v.toList t
  rw [Vector.length_toList] at e
  exact e

@[simp] theorem boolOf_byteOfBool (b : Bool) : boolOf (byteOfBool b) = b := by cases b <;> rfl

@[simp] theorem decodeOutcome_encodeOutcome (o : XferOutcome) : decodeOutcome (encodeOutcome o) = some o := by cases o <;> rfl

theorem decodeIndex6_ofNat (i : Fin 6) : decodeIndex6 (BitVec.ofNat 8 i.val) = some i := by
  revert i
  decide

theorem slotSetOf_byteOfSlotSet (v : Vector Bool 6) : slotSetOf (byteOfSlotSet v) = v := by
  have key : ∀ a b c d e g : Bool, slotSetOf (byteOfSlotSet #v[a, b, c, d, e, g]) = #v[a, b, c, d, e, g] := by decide
  have e : v = #v[v[0], v[1], v[2], v[3], v[4], v[5]] := by
    ext i hi
    match i, hi with
    | 0, _ => rfl
    | 1, _ => rfl
    | 2, _ => rfl
    | 3, _ => rfl
    | 4, _ => rfl
    | 5, _ => rfl
  rw [e]
  exact key _ _ _ _ _ _

/-! ## Multi-byte fields

Each lemma takes the item's bytes as what precedes the field, the field, and what follows it. -/

theorem wordAt_exact {w n off : Nat} {bs a t : List Byte} {v : BitVec w} (hb : bs = a ++ (leBytes n v.toNat ++ t))
    (h : off = a.length) (hw : w = 8 * n) : wordAt w bs off n = v := by
  subst h hb
  have e := slice_exact a (leBytes n v.toNat) t
  rw [leBytes_length] at e
  have p : v.toNat % 256 ^ n = v.toNat := by
    apply Nat.mod_eq_of_lt
    have q : 256 ^ n = 2 ^ w := by rw [hw, Nat.pow_mul]
    exact q ▸ v.isLt
  rw [wordAt, e, leNat_leBytes, p, BitVec.ofNat_toNat, BitVec.setWidth_eq]

@[simp] theorem encodeWord32_length (v : Word32) : (encodeWord32 v).length = 4 := leBytes_length 4 _

theorem word32At_exact {off : Nat} {bs a t : List Byte} {v : Word32} (hb : bs = a ++ (encodeWord32 v ++ t))
    (h : off = a.length) : wordAt 32 bs off 4 = v := wordAt_exact hb h rfl

@[simp] theorem encodeFinger_length (f : FingerRec) : (encodeFinger f).length = 44 := by simp [encodeFinger]

theorem decodeFinger_encodeFinger {off : Nat} {bs a t : List Byte} {f : FingerRec} (hb : bs = a ++ (encodeFinger f ++ t))
    (h : off = a.length) : decodeFinger bs off = f := by
  subst h hb
  obtain ⟨f0, f1, f2, f3, f4, f5, f6, f7, f8, f9, f10⟩ := f
  unfold decodeFinger encodeFinger
  congr 1
  · exact word32At_exact (a := a) (by simp only [List.append_assoc]; rfl) rfl
  · exact word32At_exact (a := a ++ encodeWord32 f0) (by simp only [List.append_assoc]; rfl) (by simp)
  · exact word32At_exact (a := a ++ encodeWord32 f0 ++ encodeWord32 f1) (by simp only [List.append_assoc]; rfl) (by simp)
  · exact word32At_exact (a := a ++ encodeWord32 f0 ++ encodeWord32 f1 ++ encodeWord32 f2) (by simp only [List.append_assoc]; rfl)
      (by simp)
  · exact word32At_exact (a := a ++ encodeWord32 f0 ++ encodeWord32 f1 ++ encodeWord32 f2 ++ encodeWord32 f3)
      (by simp only [List.append_assoc]; rfl) (by simp)
  · exact word32At_exact (a := a ++ encodeWord32 f0 ++ encodeWord32 f1 ++ encodeWord32 f2 ++ encodeWord32 f3 ++ encodeWord32 f4)
      (by simp only [List.append_assoc]; rfl) (by simp)
  · exact word32At_exact (a := a ++ encodeWord32 f0 ++ encodeWord32 f1 ++ encodeWord32 f2 ++ encodeWord32 f3 ++ encodeWord32 f4
      ++ encodeWord32 f5) (by simp only [List.append_assoc]; rfl) (by simp)
  · exact word32At_exact (a := a ++ encodeWord32 f0 ++ encodeWord32 f1 ++ encodeWord32 f2 ++ encodeWord32 f3 ++ encodeWord32 f4
      ++ encodeWord32 f5 ++ encodeWord32 f6) (by simp only [List.append_assoc]; rfl) (by simp)
  · exact word32At_exact (a := a ++ encodeWord32 f0 ++ encodeWord32 f1 ++ encodeWord32 f2 ++ encodeWord32 f3 ++ encodeWord32 f4
      ++ encodeWord32 f5 ++ encodeWord32 f6 ++ encodeWord32 f7) (by simp only [List.append_assoc]; rfl) (by simp)
  · exact word32At_exact (a := a ++ encodeWord32 f0 ++ encodeWord32 f1 ++ encodeWord32 f2 ++ encodeWord32 f3 ++ encodeWord32 f4
      ++ encodeWord32 f5 ++ encodeWord32 f6 ++ encodeWord32 f7 ++ encodeWord32 f8) (by simp only [List.append_assoc]; rfl) (by simp)
  · exact word32At_exact (a := a ++ encodeWord32 f0 ++ encodeWord32 f1 ++ encodeWord32 f2 ++ encodeWord32 f3 ++ encodeWord32 f4
      ++ encodeWord32 f5 ++ encodeWord32 f6 ++ encodeWord32 f7 ++ encodeWord32 f8 ++ encodeWord32 f9)
      (by simp only [List.append_assoc]; rfl) (by simp)

@[simp] theorem encodePos_length (p : Pos) : (encodePos p).length = 8 := by simp [encodePos]

theorem decodePos_encodePos {off : Nat} {bs a t : List Byte} {p : Pos} (hb : bs = a ++ (encodePos p ++ t)) (h : off = a.length) :
    decodePos bs off = p := by
  subst h hb
  obtain ⟨x, y⟩ := p
  unfold decodePos encodePos
  congr 1
  · exact word32At_exact (a := a) (by simp only [List.append_assoc]; rfl) rfl
  · exact word32At_exact (a := a ++ encodeWord32 x) (by simp only [List.append_assoc]; rfl) (by simp)

theorem decodePosList_flatMap (l : List Pos) : ∀ {off : Nat} {bs a t : List Byte}, bs = a ++ (l.flatMap encodePos ++ t) →
    off = a.length → decodePosList bs l.length off = l := by
  induction l with
  | nil => intros; rfl
  | cons p l ih =>
    intro off bs a t hb h
    rw [List.length_cons, decodePosList, decodePos_encodePos (p := p) (a := a) (t := l.flatMap encodePos ++ t) (by rw [hb]; simp) h,
      ih (a := a ++ encodePos p) (t := t) (by rw [hb]; simp) (by simp [h])]

@[simp] theorem encodeEntry_length (e : TouchEntry) : (encodeEntry e).length = 10 := by simp [encodeEntry]

theorem decodeEntry_encodeEntry {off : Nat} {bs a t : List Byte} {e : TouchEntry} (hb : bs = a ++ (encodeEntry e ++ t))
    (h : off = a.length) : decodeEntry bs off = some e := by
  subst h hb
  obtain ⟨f, p, s⟩ := e
  have h0 : byteAt (a ++ (encodeEntry { finger := f, pos := p, slot := s } ++ t)) a.length = BitVec.ofNat 8 f.val :=
    byteAt_length a _ _
  have h1 : byteAt (a ++ (encodeEntry { finger := f, pos := p, slot := s } ++ t)) (a.length + 1) = BitVec.ofNat 8 s.val := by
    rw [byteAt_append_right]
    rfl
  have h2 : decodePos (a ++ (encodeEntry { finger := f, pos := p, slot := s } ++ t)) (a.length + 2) = p :=
    decodePos_encodePos (a := a ++ [BitVec.ofNat 8 f.val, BitVec.ofNat 8 s.val]) (t := t) (by simp [encodeEntry]) (by simp)
  unfold decodeEntry
  rw [h0, h1, h2, decodeIndex6_ofNat, decodeIndex6_ofNat]

theorem decodeEntries_flatMap (l : List TouchEntry) : ∀ {off : Nat} {bs a t : List Byte},
    bs = a ++ (l.flatMap encodeEntry ++ t) → off = a.length → decodeEntries bs l.length off = some l := by
  induction l with
  | nil => intros; rfl
  | cons e l ih =>
    intro off bs a t hb h
    rw [List.length_cons, decodeEntries, decodeEntry_encodeEntry (e := e) (a := a) (t := l.flatMap encodeEntry ++ t) (by rw [hb]; simp) h,
      ih (a := a ++ encodeEntry e) (t := t) (by rw [hb]; simp) (by simp [h])]

/-- A vector of six, element by element. -/
theorem vector_six {α : Type} (v : Vector α 6) : v = #v[v[0], v[1], v[2], v[3], v[4], v[5]] := by
  ext i hi
  match i, hi with
  | 0, _ | 1, _ | 2, _ | 3, _ | 4, _ | 5, _ => rfl

/-- A vector of eight, element by element. -/
theorem vector_eight {α : Type} (v : Vector α 8) : v = #v[v[0], v[1], v[2], v[3], v[4], v[5], v[6], v[7]] := by
  ext i hi
  match i, hi with
  | 0, _ | 1, _ | 2, _ | 3, _ | 4, _ | 5, _ | 6, _ | 7, _ => rfl

theorem encodeTouchFrame_length (f : TouchpadFrame) : (encodeTouchFrame f).length = touchFrameLen := by
  simp [encodeTouchFrame, List.length_flatMap, touchFrameLen]

theorem decodeTouchFrame_encodeTouchFrame {off : Nat} {bs a t : List Byte} {f : TouchpadFrame}
    (hb : bs = a ++ (encodeTouchFrame f ++ t)) (h : off = a.length) : decodeTouchFrame bs off = f := by
  subst h hb
  obtain ⟨n, c, v⟩ := f
  rw [vector_six v]
  generalize v[0] = v0
  generalize v[1] = v1
  generalize v[2] = v2
  generalize v[3] = v3
  generalize v[4] = v4
  generalize v[5] = v5
  have e : a ++ (encodeTouchFrame { nFingers := n, click := c, fingers := #v[v0, v1, v2, v3, v4, v5] } ++ t)
      = a ++ ([n, byteOfBool c] ++ (encodeFinger v0 ++ (encodeFinger v1 ++ (encodeFinger v2 ++ (encodeFinger v3
          ++ (encodeFinger v4 ++ (encodeFinger v5 ++ t))))))) := by
    simp [encodeTouchFrame]
  rw [e]
  unfold decodeTouchFrame
  congr 1
  · exact byteAt_length a n _
  · rw [byteAt_append_right]
    exact boolOf_byteOfBool c
  · have g0 := decodeFinger_encodeFinger (f := v0) (a := a ++ [n, byteOfBool c])
      (t := encodeFinger v1 ++ (encodeFinger v2 ++ (encodeFinger v3 ++ (encodeFinger v4 ++ (encodeFinger v5 ++ t))))) rfl rfl
    have g1 := decodeFinger_encodeFinger (f := v1) (a := a ++ [n, byteOfBool c] ++ encodeFinger v0)
      (t := encodeFinger v2 ++ (encodeFinger v3 ++ (encodeFinger v4 ++ (encodeFinger v5 ++ t)))) rfl rfl
    have g2 := decodeFinger_encodeFinger (f := v2) (a := a ++ [n, byteOfBool c] ++ encodeFinger v0 ++ encodeFinger v1)
      (t := encodeFinger v3 ++ (encodeFinger v4 ++ (encodeFinger v5 ++ t))) rfl rfl
    have g3 := decodeFinger_encodeFinger (f := v3)
      (a := a ++ [n, byteOfBool c] ++ encodeFinger v0 ++ encodeFinger v1 ++ encodeFinger v2)
      (t := encodeFinger v4 ++ (encodeFinger v5 ++ t)) rfl rfl
    have g4 := decodeFinger_encodeFinger (f := v4)
      (a := a ++ [n, byteOfBool c] ++ encodeFinger v0 ++ encodeFinger v1 ++ encodeFinger v2 ++ encodeFinger v3)
      (t := encodeFinger v5 ++ t) rfl rfl
    have g5 := decodeFinger_encodeFinger (f := v5)
      (a := a ++ [n, byteOfBool c] ++ encodeFinger v0 ++ encodeFinger v1 ++ encodeFinger v2 ++ encodeFinger v3 ++ encodeFinger v4)
      (t := t) rfl rfl
    simp only [List.append_assoc, List.length_append, encodeFinger_length, List.length_cons, List.length_nil,
      Nat.reduceAdd] at g0 g1 g2 g3 g4 g5
    rw [g0, g1, g2, g3, g4, g5]

/-- The operands of `TP_EMIT` after its number: the fields that follow the frame stand where the encoder puts them. -/
theorem decodeTpEmit_encode (t : Tags) (f : TouchpadFrame) (es : List TouchEntry) (r : Vector Bool 6) (h : es.length ≤ 6) :
    decodeTpEmit (encode t (.tpEmit f es r)) = some (.tpEmit f es r) := by
  have l := encodeTouchFrame_length f
  have count : byteAt (encode t (.tpEmit f es r)) (1 + touchFrameLen) = BitVec.ofNat 8 es.length := by
    have g := byteAt_length (0x44 :: encodeTouchFrame f) (BitVec.ofNat 8 es.length) (byteOfSlotSet r :: es.flatMap encodeEntry)
    rwa [List.length_cons, l, Nat.add_comm] at g
  have mask : byteAt (encode t (.tpEmit f es r)) (2 + touchFrameLen) = byteOfSlotSet r := by
    have g := byteAt_append_right (0x44 :: encodeTouchFrame f)
      (BitVec.ofNat 8 es.length :: byteOfSlotSet r :: es.flatMap encodeEntry) 1
    rwa [List.length_cons, l, show touchFrameLen + 1 + 1 = 2 + touchFrameLen from rfl] at g
  have entries := decodeEntries_flatMap es (off := 3 + touchFrameLen) (bs := encode t (.tpEmit f es r))
    (a := 0x44 :: (encodeTouchFrame f ++ [BitVec.ofNat 8 es.length, byteOfSlotSet r])) (t := []) (by simp [encode])
    (by simp [l]; omega)
  have frame := decodeTouchFrame_encodeTouchFrame (bs := encode t (.tpEmit f es r)) (off := 1) (a := [0x44]) (f := f) rfl rfl
  have n : (BitVec.ofNat 8 es.length).toNat = es.length := by
    rw [BitVec.toNat_ofNat]
    omega
  simp only [decodeTpEmit, count, mask, n, entries, frame, slotSetOf_byteOfSlotSet, if_pos h, Option.map]

theorem decodeKeyFrame_encodeKeyFrame {off : Nat} {bs a t : List Byte} {f : KeyboardFrame}
    (hb : bs = a ++ (encodeKeyFrame f ++ t)) (h : off = a.length) : decodeKeyFrame bs off = f := by
  subst h hb
  obtain ⟨c, m, k, n⟩ := f
  have e : a ++ (encodeKeyFrame { counter := c, modifiers := m, keys := k, fn := n } ++ t)
      = (a ++ [c, m]) ++ (k.toList ++ (byteOfBool n :: t)) := by simp [encodeKeyFrame]
  unfold decodeKeyFrame
  congr 1
  · exact byteAt_length a c _
  · rw [byteAt_append_right]
    rfl
  · rw [e]
    exact bytesAt_exact (a ++ [c, m]) _ k _ (by simp)
  · rw [e, ← List.append_assoc]
    have g := byteAt_length (a ++ [c, m] ++ k.toList) (byteOfBool n) t
    simp only [List.length_append, Vector.length_toList, List.length_cons, List.length_nil, Nat.add_assoc, Nat.reduceAdd] at g
    rw [g]
    exact boolOf_byteOfBool n

@[simp] theorem encodeCfgEntry_length (e : CfgEntry) : (encodeCfgEntry e).length = 9 := by simp [encodeCfgEntry]

theorem decodeCfgEntry_encodeCfgEntry {off : Nat} {bs a t : List Byte} {e : CfgEntry} (hb : bs = a ++ (encodeCfgEntry e ++ t))
    (h : off = a.length) : decodeCfgEntry bs off = e := by
  subst h hb
  obtain ⟨p, v⟩ := e
  unfold decodeCfgEntry
  congr 1
  · exact byteAt_length a p _
  · exact wordAt_exact (a := a ++ [p]) (t := t) (by simp [encodeCfgEntry]) (by simp) rfl

theorem decodeCfg_flatMap (x y : Byte) (v : Vector CfgEntry 8) : decodeCfg (x :: y :: v.toList.flatMap encodeCfgEntry) = v := by
  rw [vector_eight v]
  generalize v[0] = v0
  generalize v[1] = v1
  generalize v[2] = v2
  generalize v[3] = v3
  generalize v[4] = v4
  generalize v[5] = v5
  generalize v[6] = v6
  generalize v[7] = v7
  have g0 := decodeCfgEntry_encodeCfgEntry (e := v0) (a := [x, y]) (t := encodeCfgEntry v1 ++ (encodeCfgEntry v2
    ++ (encodeCfgEntry v3 ++ (encodeCfgEntry v4 ++ (encodeCfgEntry v5 ++ (encodeCfgEntry v6 ++ encodeCfgEntry v7)))))) rfl rfl
  have g1 := decodeCfgEntry_encodeCfgEntry (e := v1) (a := [x, y] ++ encodeCfgEntry v0) (t := encodeCfgEntry v2
    ++ (encodeCfgEntry v3 ++ (encodeCfgEntry v4 ++ (encodeCfgEntry v5 ++ (encodeCfgEntry v6 ++ encodeCfgEntry v7))))) rfl rfl
  have g2 := decodeCfgEntry_encodeCfgEntry (e := v2) (a := [x, y] ++ encodeCfgEntry v0 ++ encodeCfgEntry v1)
    (t := encodeCfgEntry v3 ++ (encodeCfgEntry v4 ++ (encodeCfgEntry v5 ++ (encodeCfgEntry v6 ++ encodeCfgEntry v7)))) rfl rfl
  have g3 := decodeCfgEntry_encodeCfgEntry (e := v3) (a := [x, y] ++ encodeCfgEntry v0 ++ encodeCfgEntry v1 ++ encodeCfgEntry v2)
    (t := encodeCfgEntry v4 ++ (encodeCfgEntry v5 ++ (encodeCfgEntry v6 ++ encodeCfgEntry v7))) rfl rfl
  have g4 := decodeCfgEntry_encodeCfgEntry (e := v4) (a := [x, y] ++ encodeCfgEntry v0 ++ encodeCfgEntry v1 ++ encodeCfgEntry v2
    ++ encodeCfgEntry v3) (t := encodeCfgEntry v5 ++ (encodeCfgEntry v6 ++ encodeCfgEntry v7)) rfl rfl
  have g5 := decodeCfgEntry_encodeCfgEntry (e := v5) (a := [x, y] ++ encodeCfgEntry v0 ++ encodeCfgEntry v1 ++ encodeCfgEntry v2
    ++ encodeCfgEntry v3 ++ encodeCfgEntry v4) (t := encodeCfgEntry v6 ++ encodeCfgEntry v7) rfl rfl
  have g6 := decodeCfgEntry_encodeCfgEntry (e := v6) (a := [x, y] ++ encodeCfgEntry v0 ++ encodeCfgEntry v1 ++ encodeCfgEntry v2
    ++ encodeCfgEntry v3 ++ encodeCfgEntry v4 ++ encodeCfgEntry v5) (t := encodeCfgEntry v7) rfl rfl
  have g7 := decodeCfgEntry_encodeCfgEntry (e := v7) (a := [x, y] ++ encodeCfgEntry v0 ++ encodeCfgEntry v1 ++ encodeCfgEntry v2
    ++ encodeCfgEntry v3 ++ encodeCfgEntry v4 ++ encodeCfgEntry v5 ++ encodeCfgEntry v6) (t := []) rfl rfl
  simp only [List.append_assoc, List.length_append, encodeCfgEntry_length, List.length_cons, List.length_nil,
    Nat.reduceAdd, List.append_nil, List.cons_append, List.nil_append] at g0 g1 g2 g3 g4 g5 g6 g7
  simp only [decodeCfg, Vector.toList_mk, List.flatMap_cons, List.flatMap_nil, List.append_nil, g0, g1, g2, g3, g4, g5, g6, g7]

end Sys2Proof
end

