-- ==== Sys2Proof/Laws/Keyboard.lean ====
section
/-! SUPPORT. What the keyboard's shared operations do: table lookups, one history slot, one frame slot, and each over a list of slots
(42_keyboard.md R205, R208, R209). -/

namespace Sys2Proof.Machine

/-! ## Lookups -/

/-- One entry more in front of a table (R205). -/
theorem firstMatch_cons {α : Type} (source : α → Key) (e : α) (t : List α) (key : Key) :
    firstMatch source (e :: t) key
      = if source e = 0 then none else if source e = key then some e else firstMatch source t key := by
  by_cases h0 : source e = 0
  · simp [firstMatch, h0]
  · by_cases hk : source e = key
    · rw [if_neg h0, if_pos hk]
      have h0' : (source e != 0) = true := by simpa using h0
      have hk' : (source e == key) = true := by simpa using hk
      simp only [firstMatch, List.takeWhile_cons, h0', if_true, List.find?_cons, hk']
    · rw [if_neg h0, if_neg hk]
      have h0' : (source e != 0) = true := by simpa using h0
      have hk' : (source e == key) = false := by simpa using hk
      simp only [firstMatch, List.takeWhile_cons, h0', if_true, List.find?_cons, hk']

theorem fnLookup_eq_firstMatch (t : List FnEntry) (key : Key) : fnLookup t key = firstMatch FnEntry.source t key := by
  induction t with
  | nil => rfl
  | cons e t ih => rw [fnLookup, firstMatch_cons, ih]

theorem isoLookup_eq_firstMatch (t : List IsoEntry) (key : Key) : isoLookup t key = firstMatch IsoEntry.source t key := by
  induction t with
  | nil => rfl
  | cons e t ih => rw [isoLookup, firstMatch_cons, ih]

/-- Translation looks at the tables and at CSR 8 only (R205). -/
theorem codeToKey_congr {s t : State} (hp : t.par = s.par) (ht : t.tunables = s.tunables) (c : Byte) (fn : Bool) :
    codeToKey t c fn = codeToKey s c fn := by
  simp [codeToKey, translateKey, State.fnmode, State.iso, hp, ht]

/-! ## The frame -/

theorem mem_six (i : Fin 6) : i ∈ six := by revert i; decide


theorem inFrame_iff (f : KeyboardFrame) (c : Byte) : inFrame f c = true ↔ ∃ j : Fin 6, f.keys[j] = c := by
  simp only [inFrame, six, List.any_eq_true, beq_iff_eq]
  exact ⟨fun ⟨j, _, h⟩ => ⟨j, h⟩, fun ⟨j, h⟩ => ⟨j, mem_six j, h⟩⟩

theorem goneFrom_eq (f : KeyboardFrame) (s : State) (i : Fin 6) : goneFrom f s i = !inFrame f s.kbd.lastKeys[i] := by
  rw [Bool.eq_iff_iff]
  simp only [goneFrom, decide_eq_true_eq, Bool.not_eq_true', ← inFrame_iff, Bool.not_eq_true]

theorem flatMap_congr_mem {α β : Type} {l : List α} {g h : α → List β} (e : ∀ a ∈ l, g a = h a) :
    l.flatMap g = l.flatMap h := by
  rw [List.flatMap_def, List.flatMap_def, List.map_congr_left e]

/-! ## One slot -/

/-- The events of one release and the violations it raises (R208 (a) to (c)). -/
def releaseEvents (f : KeyboardFrame) (s : State) (i : Fin 6) : List Event :=
  if goneFrom f s i && isKey s.par s.kbd.lastKeys[i] then
    [.key (codeToKey s s.kbd.lastKeys[i] s.kbd.lastKeysFn[i]) false]
  else []

def releaseViolations (f : KeyboardFrame) (s : State) (i : Fin 6) : List Byte :=
  if goneFrom f s i && outOfBounds s.par s.kbd.lastKeys[i] then [s.kbd.lastKeys[i]] else []

def pressEvents (f : KeyboardFrame) (s : State) (i : Fin 6) : List Event :=
  if isKey s.par f.keys[i] then [.key (codeToKey s f.keys[i] f.fn) true] else []

def pressViolations (f : KeyboardFrame) (s : State) (i : Fin 6) : List Byte :=
  if outOfBounds s.par f.keys[i] then [f.keys[i]] else []

/-- A state after events and violations, with the given Fn bits: all that steps 1 and 2 change. -/
def State.afterSlots (s : State) (es : List Event) (vs : List Byte) (fnBits : Vector Bool 6) : State :=
  { s with events := s.events ++ es, log := s.log ++ vs.map (fun c => .err (.boundsViolation c))
           err := s.err ||| (if vs.isEmpty then 0 else 0b010000), kbd := { s.kbd with lastKeysFn := fnBits } }

theorem State.afterSlots_nil (s : State) : s.afterSlots [] [] s.kbd.lastKeysFn = s := by
  simp [State.afterSlots]

theorem State.afterSlots_afterSlots (s : State) (es es' : List Event) (vs vs' : List Byte) (b b' : Vector Bool 6) :
    (s.afterSlots es vs b).afterSlots es' vs' b' = s.afterSlots (es ++ es') (vs ++ vs') b' := by
  cases vs <;> cases vs' <;> simp [State.afterSlots, BitVec.or_assoc]

/-- Step 1 for one history slot (R208). -/
theorem releaseSlot_eq (f : KeyboardFrame) (s : State) (i : Fin 6) :
    releaseSlot f s i
      = s.afterSlots (releaseEvents f s i) (releaseViolations f s i)
          (if goneFrom f s i then s.kbd.lastKeysFn.set i false else s.kbd.lastKeysFn) := by
  simp only [releaseSlot, releaseEvents, releaseViolations, goneFrom_eq, isKey, outOfBounds]
  cases inFrame f s.kbd.lastKeys[i]
  · by_cases h0 : s.kbd.lastKeys[i] = 0
    · simp [reportRelease, h0, State.afterSlots, State.setKeyFn]
    · by_cases hn : nScan s.par ≤ s.kbd.lastKeys[i].toNat
      · have hn' : ¬ s.kbd.lastKeys[i].toNat < s.par.scan.last.toNat + 1 := by simpa [nScan] using hn
        have hn'' : s.par.scan.last.toNat + 1 ≤ s.kbd.lastKeys[i].toNat := hn
        simp only [reportRelease, h0, hn, hn', hn'', if_true, if_false]
        simp [State.afterSlots, State.setKeyFn, State.raise, ErrRec.mask, ErrRec.code]
        rfl
      · have hn' : s.kbd.lastKeys[i].toNat < s.par.scan.last.toNat + 1 := by simpa [nScan] using hn
        have hn'' : ¬ s.par.scan.last.toNat + 1 ≤ s.kbd.lastKeys[i].toNat := by omega
        have h0' : ¬ s.kbd.lastKeys[i.val] = 0#8 := h0
        simp only [reportRelease, h0, hn, hn', hn'', if_false]
        simp [State.afterSlots, State.setKeyFn, State.emit, h0']
  · simp [State.afterSlots]

/-- Step 2 for one frame slot (R209). -/
theorem pressSlot_eq (f : KeyboardFrame) (s : State) (i : Fin 6) :
    pressSlot f s i
      = s.afterSlots (pressEvents f s i) (pressViolations f s i)
          (if isKey s.par f.keys[i] then s.kbd.lastKeysFn.set i f.fn else s.kbd.lastKeysFn) := by
  simp only [pressSlot, pressEvents, pressViolations, isKey, outOfBounds]
  by_cases h0 : f.keys[i] = 0
  · simp [h0, State.afterSlots]
  · by_cases hn : nScan s.par ≤ f.keys[i].toNat
    · have hn' : ¬ f.keys[i].toNat < s.par.scan.last.toNat + 1 := by simpa [nScan] using hn
      have hn'' : s.par.scan.last.toNat + 1 ≤ f.keys[i].toNat := hn
      simp only [h0, hn, hn', hn'', if_true, if_false]
      simp [State.afterSlots, State.raise, ErrRec.mask, ErrRec.code]
      rfl
    · have hn' : f.keys[i].toNat < s.par.scan.last.toNat + 1 := by simpa [nScan] using hn
      have hn'' : ¬ s.par.scan.last.toNat + 1 ≤ f.keys[i].toNat := by omega
      have h0' : ¬ f.keys[i.val] = 0#8 := h0
      simp only [h0, hn, hn', hn'', if_false]
      simp [State.afterSlots, State.setKeyFn, State.emit, h0']

/-! ## A list of slots -/

/-- Step 1 over distinct history slots, each seen as it was at the start (R208). -/
theorem foldl_releaseSlot (f : KeyboardFrame) (l : List (Fin 6)) (hl : l.Nodup) (s : State) :
    ∃ b : Vector Bool 6,
      l.foldl (releaseSlot f) s = s.afterSlots (l.flatMap (releaseEvents f s)) (l.flatMap (releaseViolations f s)) b
      ∧ ∀ j : Fin 6, b[j] = if j ∈ l ∧ goneFrom f s j = true then false else s.kbd.lastKeysFn[j] := by
  induction l generalizing s with
  | nil => exact ⟨_, (State.afterSlots_nil s).symm, fun j => by simp⟩
  | cons i l ih =>
    obtain ⟨hi, hl⟩ := List.nodup_cons.1 hl
    obtain ⟨b, h1, h2⟩ := ih hl (releaseSlot f s i)
    have hb : ∀ j : Fin 6, (releaseSlot f s i).kbd.lastKeysFn[j]
        = if j = i ∧ goneFrom f s j = true then false else s.kbd.lastKeysFn[j] := by
      intro j
      rw [releaseSlot_eq]
      simp only [State.afterSlots]
      by_cases hji : j = i
      · subst hji; split <;> simp_all
      · have : i.val ≠ j.val := fun h => hji (Fin.ext h.symm)
        split <;> simp [hji, this]
    have hg : ∀ j, goneFrom f (releaseSlot f s i) j = goneFrom f s j := by
      intro j; rw [releaseSlot_eq]; rfl
    have he : ∀ j ∈ l, releaseEvents f (releaseSlot f s i) j = releaseEvents f s j := by
      intro j hj
      have hji : j ≠ i := fun h => hi (h ▸ hj)
      have hbj := hb j
      rw [if_neg (fun h => hji h.1)] at hbj
      have hk : (releaseSlot f s i).kbd.lastKeys = s.kbd.lastKeys := by rw [releaseSlot_eq]; rfl
      have hp : (releaseSlot f s i).par = s.par := by rw [releaseSlot_eq]; rfl
      have ht : (releaseSlot f s i).tunables = s.tunables := by rw [releaseSlot_eq]; rfl
      simp only [releaseEvents, hg, hk, hp, hbj, codeToKey_congr hp ht]
    have hv : ∀ j ∈ l, releaseViolations f (releaseSlot f s i) j = releaseViolations f s j := by
      intro j _
      simp only [releaseViolations, hg]
      rw [releaseSlot_eq]; rfl
    refine ⟨b, ?_, ?_⟩
    · rw [List.foldl_cons, h1, List.flatMap_cons, List.flatMap_cons, flatMap_congr_mem he, flatMap_congr_mem hv,
        releaseSlot_eq f s i, State.afterSlots_afterSlots]
    · intro j
      rw [h2 j, hg, hb j]
      by_cases hji : j = i
      · subst hji; simp [hi]
      · simp [hji]

/-- Step 2 over distinct frame slots (R209). -/
theorem foldl_pressSlot (f : KeyboardFrame) (l : List (Fin 6)) (s : State) :
    ∃ b : Vector Bool 6,
      l.foldl (pressSlot f) s = s.afterSlots (l.flatMap (pressEvents f s)) (l.flatMap (pressViolations f s)) b
      ∧ ∀ j : Fin 6, b[j] = if j ∈ l ∧ isKey s.par f.keys[j] = true then f.fn else s.kbd.lastKeysFn[j] := by
  induction l generalizing s with
  | nil => exact ⟨_, (State.afterSlots_nil s).symm, fun j => by simp⟩
  | cons i l ih =>
    obtain ⟨b, h1, h2⟩ := ih (pressSlot f s i)
    have hp : (pressSlot f s i).par = s.par := by rw [pressSlot_eq]; rfl
    have ht : (pressSlot f s i).tunables = s.tunables := by rw [pressSlot_eq]; rfl
    have he : ∀ j ∈ l, pressEvents f (pressSlot f s i) j = pressEvents f s j := by
      intro j _; simp only [pressEvents, hp, codeToKey_congr hp ht]
    have hv : ∀ j ∈ l, pressViolations f (pressSlot f s i) j = pressViolations f s j := by
      intro j _; simp only [pressViolations, hp]
    refine ⟨b, ?_, ?_⟩
    · rw [List.foldl_cons, h1, List.flatMap_cons, List.flatMap_cons, flatMap_congr_mem he, flatMap_congr_mem hv,
        pressSlot_eq f s i, State.afterSlots_afterSlots]
    · intro j
      rw [h2 j, hp, pressSlot_eq]
      simp only [State.afterSlots]
      by_cases hji : j = i
      · subst hji
        by_cases hk : isKey s.par f.keys[j] = true
        · simp only [hk, if_true, and_true, List.mem_cons, true_or]
          split
          · rfl
          · exact Vector.getElem_set_self ..
        · simp only [hk, and_false, if_false, Bool.false_eq_true]
      · have hne : i.val ≠ j.val := fun h => hji (Fin.ext h.symm)
        have hset : (if isKey s.par f.keys[i] = true then s.kbd.lastKeysFn.set i f.fn else s.kbd.lastKeysFn)[j]
            = s.kbd.lastKeysFn[j] := by
          split
          · exact Vector.getElem_set_ne _ _ hne
          · rfl
        rw [hset]
        simp only [List.mem_cons, hji, false_or]

/-! ## `KBD_APPLY` -/

/-- What `KBD_APPLY` can change (R207): the events, the log, `ERR` and the history. -/
theorem kbdApply_frame (f : KeyboardFrame) (s : State) :
    kbdApply f s = { s with events := (kbdApply f s).events, log := (kbdApply f s).log, err := (kbdApply f s).err
                            kbd := (kbdApply f s).kbd } := by
  obtain ⟨b1, h1, -⟩ := foldl_releaseSlot f six (by decide) s
  obtain ⟨b2, h2, -⟩ := foldl_pressSlot f six (kbdReleases f s)
  have e : kbdPresses f (kbdReleases f s) = six.foldl (pressSlot f) (kbdReleases f s) := rfl
  have e' : kbdReleases f s = six.foldl (releaseSlot f) s := rfl
  simp only [kbdApply]
  rw [e, h2, e', h1]
  rfl

end Sys2Proof.Machine
end

