-- ==== Sys2Proof/Laws/Touch.lean ====
section
/-! SUPPORT. What the touch tracker's shared operations do: the least pairing, the greedy loop, the allocation of fresh slots, the
slot update (43_touch.md R235, R236, R238). -/

namespace Sys2Proof.Machine

/-! ## Lists -/

theorem nodup_length_le {α : Type} [DecidableEq α] {l l' : List α} (hn : l.Nodup) (hs : ∀ a ∈ l, a ∈ l') :
    l.length ≤ l'.length := by
  induction l generalizing l' with
  | nil => exact Nat.zero_le _
  | cons a t ih =>
    obtain ⟨ha, ht⟩ := List.nodup_cons.1 hn
    have hm : a ∈ l' := hs a (List.mem_cons_self ..)
    have h := ih (l' := l'.erase a) ht fun b hb => by
      have hne : b ≠ a := fun e => ha (e ▸ hb)
      exact (List.mem_erase_of_ne hne).2 (hs b (List.mem_cons_of_mem _ hb))
    rw [List.length_erase_of_mem hm] at h
    have : 0 < l'.length := List.length_pos_of_mem hm
    simp only [List.length_cons]
    omega

theorem every_slot (s : Fin 6) : s ∈ six := by revert s; decide

/-- Fewer than six slots leave one out. -/
theorem exists_slot_not_mem {l : List (Fin 6)} (h : l.length < 6) : ∃ s : Fin 6, s ∉ l := by
  refine Classical.byContradiction fun hc => ?_
  have hall : ∀ s : Fin 6, s ∈ l := fun s => Classical.byContradiction fun hs => hc ⟨s, hs⟩
  have := nodup_length_le (l := six) (by decide) fun a _ => hall a
  have h6 : six.length = 6 := rfl
  omega

theorem mem_activeSlots {slots : Vector Slot 6} {s : Fin 6} : s ∈ activeSlots slots ↔ slots[s].active = true := by
  simp only [activeSlots, List.mem_filter]
  exact ⟨fun h => h.2, fun h => ⟨every_slot s, h⟩⟩

theorem activeSlots_ascending (slots : Vector Slot 6) : (activeSlots slots).Pairwise (· < ·) :=
  List.Pairwise.filter _ (by decide)

theorem nodup_of_ascending {l : List (Fin 6)} (h : l.Pairwise (· < ·)) : l.Nodup := by
  refine List.Pairwise.imp ?_ h
  intro a b hab e
  subst e
  exact absurd hab (Nat.lt_irrefl _)

/-! ## The least pairing -/

theorem precedes_iff (a b : Pairing) :
    precedes a b = true
      ↔ a.dist < b.dist ∨ (a.dist = b.dist ∧ (a.slot.val < b.slot.val
          ∨ (a.slot.val = b.slot.val ∧ a.finger < b.finger))) := by
  have e : a.slot = b.slot ↔ a.slot.val = b.slot.val := Fin.ext_iff
  have l : a.slot < b.slot ↔ a.slot.val < b.slot.val := Iff.rfl
  simp only [precedes, Bool.or_eq_true, Bool.and_eq_true, decide_eq_true_eq, e, l]

/-- A pairing of the list that none of it precedes (R235). -/
theorem leastPairing_some {l : List Pairing} {c : Pairing} (h : leastPairing l = some c) :
    c ∈ l ∧ ∀ b ∈ l, precedes b c = false := by
  induction l generalizing c with
  | nil => simp [leastPairing] at h
  | cons a t ih =>
    have self : precedes c c = false := by
      cases hc : precedes c c with
      | false => rfl
      | true => have := (precedes_iff c c).1 hc; omega
    cases ht : leastPairing t with
    | none =>
      have : t = [] := by
        cases t with
        | nil => rfl
        | cons b u =>
          simp only [leastPairing] at ht
          split at ht
          · cases ht
          · split at ht <;> cases ht
      simp only [leastPairing, ht, Option.some.injEq] at h
      subst h this
      exact ⟨List.mem_cons_self .., fun b hb => by rw [List.mem_singleton.1 hb]; exact self⟩
    | some d =>
      obtain ⟨h1, h2⟩ := ih ht
      simp only [leastPairing, ht] at h
      split at h <;> rename_i hp
      · cases h
        refine ⟨List.mem_cons_of_mem _ h1, fun b hb => ?_⟩
        rcases List.mem_cons.1 hb with rfl | hb
        · cases hb' : precedes b c with
          | false => rfl
          | true =>
            have e1 := (precedes_iff _ _).1 hp
            have e2 := (precedes_iff _ _).1 hb'
            omega
        · exact h2 b hb
      · cases h
        refine ⟨List.mem_cons_self .., fun b hb => ?_⟩
        rcases List.mem_cons.1 hb with rfl | hb
        · exact self
        · cases hb' : precedes b a with
          | false => rfl
          | true =>
            have e1 : ¬ _ := fun x => hp ((precedes_iff d a).2 x)
            have e2 : ¬ _ := fun x => Bool.false_ne_true ((h2 b hb).symm.trans ((precedes_iff b d).2 x))
            have e3 := (precedes_iff _ _).1 hb'
            omega

theorem leastPairing_none {l : List Pairing} (h : leastPairing l = none) : l = [] := by
  cases l with
  | nil => rfl
  | cons b u =>
    simp only [leastPairing] at h
    split at h
    · cases h
    · split at h <;> cases h

/-- The pairing of slot `s` and finger `q`. -/
def pairingOf (slots : Vector Slot 6) (pos : List Pos) (s : Fin 6) (q : Nat) : Pairing :=
  { dist := sqDist slots[s] (pos.getD q default), slot := s, finger := q }

theorem mem_candidates {slots : Vector Slot 6} {pos : List Pos} {free : List (Fin 6)} {left : List Nat} {c : Pairing} :
    c ∈ candidates slots pos free left ↔ ∃ s ∈ free, ∃ q ∈ left, pairingOf slots pos s q = c := by
  simp [candidates, pairingOf]

/-! ## The greedy loop -/

/-- What the loop of R235 has done when it stops: `new` are the matches it made. -/
structure GreedyDone (slots : Vector Slot 6) (pos : List Pos) (m r : Matching) (new : List (Nat × Fin 6)) : Prop where
  matched  : r.matched = new ++ m.matched
  free_sub : r.free.Sublist m.free
  left_sub : r.left.Sublist m.left
  mem_free : ∀ s ∈ m.free, s ∈ r.free ∨ ∃ q, (q, s) ∈ new
  mem_left : ∀ q ∈ m.left, q ∈ r.left ∨ ∃ s, (q, s) ∈ new
  from_both : ∀ p ∈ new, p.1 ∈ m.left ∧ p.2 ∈ m.free ∧ p.1 ∉ r.left ∧ p.2 ∉ r.free
  fingers  : (new.map Prod.fst).Nodup
  slotsOf  : (new.map Prod.snd).Nodup
  least    : ∀ s ∈ m.free, ∀ q ∈ m.left, ∃ p ∈ new, (p.2 = s ∨ p.1 = q)
    ∧ precedes (pairingOf slots pos s q) (pairingOf slots pos p.2 p.1) = false
  finished : r.free = [] ∨ r.left = []

/-- The whole of the loop of R235. -/
theorem greedyMatch_done (slots : Vector Slot 6) (pos : List Pos) (n : Nat) (m : Matching) (hf : m.free.Nodup)
    (hl : m.left.Nodup) (hn : m.free.length ≤ n) :
    ∃ new, GreedyDone slots pos m (greedyMatch slots pos n m) new := by
  induction n generalizing m with
  | zero =>
    have h0 : m.free = [] := List.eq_nil_of_length_eq_zero (Nat.le_zero.1 hn)
    exact ⟨[], { matched := rfl, free_sub := List.Sublist.refl _, left_sub := List.Sublist.refl _
                 mem_free := fun _ h => .inl h, mem_left := fun _ h => .inl h, from_both := fun _ h => by cases h
                 fingers := List.Pairwise.nil, slotsOf := List.Pairwise.nil
                 least := fun s hs => absurd (h0 ▸ hs) (by simp)
                 finished := .inl h0 }⟩
  | succ n ih =>
    cases hc : leastPairing (candidates slots pos m.free m.left) with
    | none =>
      have hnil := leastPairing_none hc
      have hfin : m.free = [] ∨ m.left = [] := by
        cases hfr : m.free with
        | nil => exact .inl rfl
        | cons s fs =>
          cases hle : m.left with
          | nil => exact .inr rfl
          | cons q ls =>
            have : pairingOf slots pos s q ∈ candidates slots pos m.free m.left :=
              mem_candidates.2 ⟨s, by simp [hfr], q, by simp [hle], rfl⟩
            rw [hnil] at this; cases this
      have hr : greedyMatch slots pos (n + 1) m = m := by simp only [greedyMatch, hc]
      rw [hr]
      exact ⟨[], { matched := rfl, free_sub := List.Sublist.refl _, left_sub := List.Sublist.refl _
                   mem_free := fun _ h => .inl h, mem_left := fun _ h => .inl h, from_both := fun _ h => by cases h
                   fingers := List.Pairwise.nil, slotsOf := List.Pairwise.nil
                   least := fun s hs q hq => by
                     rcases hfin with h | h
                     · rw [h] at hs; cases hs
                     · rw [h] at hq; cases hq
                   finished := hfin }⟩
    | some c =>
      obtain ⟨hmem, hleast⟩ := leastPairing_some hc
      obtain ⟨s0, hs0, q0, hq0, rfl⟩ := mem_candidates.1 hmem
      have hr : greedyMatch slots pos (n + 1) m
          = greedyMatch slots pos n
              { free := m.free.erase s0, left := m.left.erase q0, matched := (q0, s0) :: m.matched } := by
        simp only [greedyMatch, hc]; rfl
      rw [hr]
      obtain ⟨new, hd⟩ := ih { free := m.free.erase s0, left := m.left.erase q0, matched := (q0, s0) :: m.matched }
        (hf.erase s0) (hl.erase q0) (by simp only [List.length_erase_of_mem hs0]; omega)
      have nf : s0 ∉ m.free.erase s0 := fun h => ((List.Nodup.mem_erase_iff hf).1 h).1 rfl
      have nl : q0 ∉ m.left.erase q0 := fun h => ((List.Nodup.mem_erase_iff hl).1 h).1 rfl
      refine ⟨new ++ [(q0, s0)], { matched := ?_, free_sub := ?_, left_sub := ?_, mem_free := ?_, mem_left := ?_
                                   from_both := ?_, fingers := ?_, slotsOf := ?_, least := ?_, finished := hd.finished }⟩
      · rw [hd.matched]; simp
      · exact hd.free_sub.trans (List.erase_sublist ..)
      · exact hd.left_sub.trans (List.erase_sublist ..)
      · intro s hs
        by_cases e : s = s0
        · subst e; exact .inr ⟨q0, by simp⟩
        · rcases hd.mem_free s ((List.mem_erase_of_ne e).2 hs) with h | ⟨q, h⟩
          · exact .inl h
          · exact .inr ⟨q, List.mem_append_left _ h⟩
      · intro q hq
        by_cases e : q = q0
        · subst e; exact .inr ⟨s0, by simp⟩
        · rcases hd.mem_left q ((List.mem_erase_of_ne e).2 hq) with h | ⟨s, h⟩
          · exact .inl h
          · exact .inr ⟨s, List.mem_append_left _ h⟩
      · intro p hp
        rcases List.mem_append.1 hp with h | h
        · obtain ⟨h1, h2, h3, h4⟩ := hd.from_both p h
          exact ⟨List.mem_of_mem_erase h1, List.mem_of_mem_erase h2, h3, h4⟩
        · rw [List.mem_singleton.1 h]
          exact ⟨hq0, hs0, fun x => nl (hd.left_sub.subset x), fun x => nf (hd.free_sub.subset x)⟩
      · rw [List.map_append, List.nodup_append]
        refine ⟨hd.fingers, by simp, ?_⟩
        intro a ha b hb e
        obtain ⟨p, hp, rfl⟩ := List.mem_map.1 ha
        simp only [List.map_cons, List.map_nil, List.mem_singleton] at hb
        have hq : p.1 = q0 := e.trans hb
        exact nl (hq ▸ (hd.from_both p hp).1 : q0 ∈ m.left.erase q0)
      · rw [List.map_append, List.nodup_append]
        refine ⟨hd.slotsOf, by simp, ?_⟩
        intro a ha b hb e
        obtain ⟨p, hp, rfl⟩ := List.mem_map.1 ha
        simp only [List.map_cons, List.map_nil, List.mem_singleton] at hb
        have hs' : p.2 = s0 := e.trans hb
        exact nf (hs' ▸ (hd.from_both p hp).2.1 : s0 ∈ m.free.erase s0)
      · intro s hs q hq
        by_cases h : s = s0 ∨ q = q0
        · refine ⟨(q0, s0), by simp, ?_, hleast _ (mem_candidates.2 ⟨s, hs, q, hq, rfl⟩)⟩
          rcases h with h | h
          · exact .inl h.symm
          · exact .inr h.symm
        · obtain ⟨p, hp, h1, h2⟩ := hd.least s ((List.mem_erase_of_ne fun e => h (.inl e)).2 hs) q
            ((List.mem_erase_of_ne fun e => h (.inr e)).2 hq)
          exact ⟨p, List.mem_append_left _ hp, h1, h2⟩

/-- The matching of R235 from the active slots and all fingers. -/
theorem matchFingers_done (slots : Vector Slot 6) (pos : List Pos) :
    ∃ new, GreedyDone slots pos { free := activeSlots slots, left := List.range pos.length, matched := [] }
      (matchFingers slots pos) new :=
  greedyMatch_done slots pos 6 _ (nodup_of_ascending (activeSlots_ascending slots)) List.nodup_range
    (Nat.le_trans (List.length_filter_le _ _) (Nat.le_refl 6))

/-! ## Fresh slots -/

/-- Where one exists, the least slot that is neither active before nor given out already (R236). -/
theorem freshSlot_least {prev : List (Fin 6)} {matched : List (Nat × Fin 6)}
    (h : ∃ s : Fin 6, s ∉ prev ∧ s ∉ matched.map Prod.snd) :
    freshSlot prev matched ∉ prev ∧ freshSlot prev matched ∉ matched.map Prod.snd
      ∧ ∀ s : Fin 6, s < freshSlot prev matched → s ∈ prev ∨ s ∈ matched.map Prod.snd := by
  have key : ∀ l : List (Fin 6), l.Pairwise (· < ·) → (∃ s ∈ l, s ∉ prev ∧ s ∉ matched.map Prod.snd) →
      ∃ r, l.find? (fun s => !prev.contains s && !(matched.map Prod.snd).contains s) = some r
        ∧ r ∉ prev ∧ r ∉ matched.map Prod.snd
        ∧ ∀ s ∈ l, s < r → s ∈ prev ∨ s ∈ matched.map Prod.snd := by
    intro l hl he
    induction l with
    | nil => obtain ⟨s, hs, _⟩ := he; cases hs
    | cons a t ih =>
      obtain ⟨ha, ht⟩ := List.pairwise_cons.1 hl
      by_cases hp : a ∉ prev ∧ a ∉ matched.map Prod.snd
      · refine ⟨a, ?_, hp.1, hp.2, ?_⟩
        · simp only [List.find?_cons, List.contains_eq_mem, hp.1, hp.2, decide_false, Bool.not_false, Bool.and_self]
        · intro s hs hlt
          rcases List.mem_cons.1 hs with rfl | hs
          · exact absurd hlt (Nat.lt_irrefl _)
          · exact absurd (ha s hs) (Nat.lt_asymm hlt)
      · obtain ⟨r, h1, h2, h3, h4⟩ := ih ht (by
          obtain ⟨s, hs, hs'⟩ := he
          rcases List.mem_cons.1 hs with rfl | hs
          · exact absurd hs' hp
          · exact ⟨s, hs, hs'⟩)
        have hp' : a ∈ prev ∨ a ∈ matched.map Prod.snd := by
          by_cases ha1 : a ∈ prev
          · exact .inl ha1
          · exact .inr (Classical.byContradiction fun ha2 => hp ⟨ha1, ha2⟩)
        refine ⟨r, ?_, h2, h3, ?_⟩
        · rw [List.find?_cons]
          have : (!prev.contains a && !(matched.map Prod.snd).contains a) = false := by
            rcases hp' with h | h
            · simp only [List.contains_eq_mem, h, decide_true, Bool.not_true, Bool.false_and]
            · simp only [List.contains_eq_mem, h, decide_true, Bool.not_true, Bool.and_false]
          rw [this]; exact h1
        · intro s hs hlt
          rcases List.mem_cons.1 hs with rfl | hs
          · exact hp'
          · exact h4 s hs hlt
  obtain ⟨s, hs⟩ := h
  obtain ⟨r, h1, h2, h3, h4⟩ := key six (by decide) ⟨s, every_slot s, hs⟩
  have hr : freshSlot prev matched = r := by simp only [freshSlot, h1, Option.getD_some]
  rw [hr]
  exact ⟨h2, h3, fun s hs => h4 s (every_slot s) hs⟩

/-- What allocation adds to the matches (R236): every finger of `qs` gets a slot that was not active, each the least one not given
out before it. -/
structure FreshDone (prev : List (Fin 6)) (qs : List Nat) (matched fresh : List (Nat × Fin 6)) : Prop where
  result   : allocateFresh prev qs matched = fresh ++ matched
  covers   : ∀ q ∈ qs, ∃ s, (q, s) ∈ fresh
  unused   : ∀ p ∈ fresh, p.1 ∈ qs ∧ p.2 ∉ prev
  least    : ∀ p ∈ fresh, ∀ s, s < p.2 → s ∈ prev ∨ s ∈ matched.map Prod.snd ∨ ∃ q, q < p.1 ∧ (q, s) ∈ fresh
  fingers  : ((fresh ++ matched).map Prod.fst).Nodup
  slotsOf  : ((fresh ++ matched).map Prod.snd).Nodup

/-- The whole of R236's allocation, for at most six fingers whose active slots are all matched. -/
theorem allocateFresh_done (prev : List (Fin 6)) (qs : List Nat) (matched : List (Nat × Fin 6)) (hq : qs.Pairwise (· < ·))
    (hk : (matched.map Prod.fst).Nodup) (hd : ∀ q ∈ qs, q ∉ matched.map Prod.fst) (hv : (matched.map Prod.snd).Nodup)
    (hp : qs ≠ [] → ∀ s ∈ prev, s ∈ matched.map Prod.snd) (hl : matched.length + qs.length ≤ 6) :
    ∃ fresh, FreshDone prev qs matched fresh := by
  induction qs generalizing matched with
  | nil =>
    exact ⟨[], { result := rfl, covers := fun q h => absurd h (by simp), unused := fun p h => absurd h (by simp)
                 least := fun p h => absurd h (by simp)
                 fingers := hk, slotsOf := hv }⟩
  | cons q t ih =>
    obtain ⟨hqt, ht⟩ := List.pairwise_cons.1 hq
    simp only [List.length_cons] at hl
    have hex : ∃ s : Fin 6, s ∉ prev ∧ s ∉ matched.map Prod.snd := by
      obtain ⟨s, hs⟩ := exists_slot_not_mem (l := matched.map Prod.snd) (by rw [List.length_map]; omega)
      exact ⟨s, fun h => hs (hp (by simp) s h), hs⟩
    obtain ⟨f1, f2, f3⟩ := freshSlot_least hex
    obtain ⟨fresh, h⟩ := ih ((q, freshSlot prev matched) :: matched) ht
      (List.nodup_cons.2 ⟨hd q (by simp), hk⟩)
      (fun r hr hm => by
        rcases List.mem_cons.1 hm with e | hm
        · have := hqt r hr; simp only at e; omega
        · exact hd r (List.mem_cons_of_mem _ hr) hm)
      (List.nodup_cons.2 ⟨f2, hv⟩)
      (fun _ s hs => List.mem_cons_of_mem _ (hp (by simp) s hs))
      (by simp only [List.length_cons]; omega)
    have e : fresh ++ (q, freshSlot prev matched) :: matched = fresh ++ [(q, freshSlot prev matched)] ++ matched := by simp
    refine ⟨fresh ++ [(q, freshSlot prev matched)],
      { result := by rw [← e]; exact h.result, covers := ?_, unused := ?_, least := ?_
        fingers := by rw [← e]; exact h.fingers, slotsOf := by rw [← e]; exact h.slotsOf }⟩
    · intro r hr
      rcases List.mem_cons.1 hr with rfl | hr
      · exact ⟨_, List.mem_append_right _ (List.mem_singleton.2 rfl)⟩
      · obtain ⟨s, hs⟩ := h.covers r hr
        exact ⟨s, List.mem_append_left _ hs⟩
    · intro p hp'
      rcases List.mem_append.1 hp' with hp' | hp'
      · exact ⟨List.mem_cons_of_mem _ (h.unused p hp').1, (h.unused p hp').2⟩
      · rw [List.mem_singleton.1 hp']; exact ⟨List.mem_cons_self .., f1⟩
    · intro p hp' s hs
      rcases List.mem_append.1 hp' with hp' | hp'
      · rcases h.least p hp' s hs with h1 | h1 | ⟨r, h1, h2⟩
        · exact .inl h1
        · rcases List.mem_cons.1 h1 with h1 | h1
          · refine .inr (.inr ⟨q, hqt _ (h.unused p hp').1, ?_⟩)
            simp only at h1
            rw [h1]; simp
          · exact .inr (.inl h1)
        · exact .inr (.inr ⟨r, h1, List.mem_append_left _ h2⟩)
      · have e := List.mem_singleton.1 hp'
        rw [e] at hs
        rcases f3 s hs with h1 | h1
        · exact .inl h1
        · exact .inr (.inl h1)

/-- A finger's slot, where fingers are distinct. -/
theorem slotOfFinger_of_mem {matched : List (Nat × Fin 6)} (hk : (matched.map Prod.fst).Nodup) {q : Nat} {s : Fin 6}
    (h : (q, s) ∈ matched) : slotOfFinger matched q = s := by
  have : matched.lookup q = some s := by
    induction matched with
    | nil => cases h
    | cons a t ih =>
      obtain ⟨ha, ht⟩ := List.nodup_cons.1 hk
      obtain ⟨a1, a2⟩ := a
      rcases List.mem_cons.1 h with e | h
      · cases e; simp
      · have hne : q ≠ a1 := fun e => ha (e ▸ List.mem_map.2 ⟨(q, s), h, rfl⟩)
        have hb : (q == a1) = false := by simpa using hne
        rw [List.lookup_cons, hb]
        exact ih ht h
  simp [slotOfFinger, this]

/-! ## The slot update -/

theorem foldl_releaseTouchSlot (l : List (Fin 6)) (slots : Vector Slot 6) (j : Fin 6) :
    (l.foldl releaseTouchSlot slots)[j] = if j ∈ l then { slots[j] with active := false } else slots[j] := by
  induction l generalizing slots with
  | nil => simp
  | cons i t ih =>
    rw [List.foldl_cons, ih]
    by_cases h : j = i
    · subst h
      have e : (releaseTouchSlot slots j)[j] = { slots[j] with active := false } := by simp [releaseTouchSlot]
      rw [e]; simp
    · have hne : i.val ≠ j.val := fun e => h (Fin.ext e.symm)
      have e : (releaseTouchSlot slots i)[j] = slots[j] := Vector.getElem_set_ne _ _ hne
      rw [e]
      simp only [List.mem_cons, h, false_or]

/-- A slot that no entry names stays as it is (R238). -/
theorem foldl_occupySlot_of_not_mem (l : List TouchEntry) (slots : Vector Slot 6) (j : Fin 6)
    (h : ∀ e ∈ l, e.slot ≠ j) : (l.foldl occupySlot slots)[j] = slots[j] := by
  induction l generalizing slots with
  | nil => rfl
  | cons e t ih =>
    rw [List.foldl_cons, ih _ fun x hx => h x (List.mem_cons_of_mem _ hx)]
    have hne : e.slot.val ≠ j.val := fun c => h e (List.mem_cons_self ..) (Fin.ext c)
    exact Vector.getElem_set_ne _ _ hne

/-- With distinct slots, an entry's slot is active at its position (R238). -/
theorem foldl_occupySlot_of_mem (l : List TouchEntry) (hl : (l.map TouchEntry.slot).Nodup) (slots : Vector Slot 6)
    (e : TouchEntry) (he : e ∈ l) :
    (l.foldl occupySlot slots)[e.slot] = { active := true, x := e.pos.x, y := e.pos.y } := by
  induction l generalizing slots with
  | nil => cases he
  | cons a t ih =>
    obtain ⟨ha, ht⟩ := List.nodup_cons.1 hl
    rw [List.foldl_cons]
    rcases List.mem_cons.1 he with rfl | he
    · rw [foldl_occupySlot_of_not_mem t _ _ fun x hx c => ha (List.mem_map.2 ⟨x, hx, c⟩)]
      simp [occupySlot]
    · exact ih ht _ he

/-- What `TP_APPLY` can change (R230): the events and the slots. -/
theorem tpApply_frame (f : TouchpadFrame) (s : State) :
    tpApply f s = { s with events := (tpApply f s).events, slots := (tpApply f s).slots } := rfl

end Sys2Proof.Machine
end

