-- ==== Sys2Proof/Laws/Step.lean ====
section
/-! SUPPORT. What the shared operations and one step can do, said once: the fields an operation may change, and the moves a step that
goes on can have made. -/

namespace Sys2Proof.Machine

/-! ## Shared operations: the fields they may change -/

theorem State.raise_frame (e : ErrRec) (s : State) : s.raise e = { s with err := (s.raise e).err, log := (s.raise e).log } := rfl

theorem dropUnknown_frame (tag : Word16) (s : State) :
    dropUnknown tag s = { s with err := (dropUnknown tag s).err, log := (dropUnknown tag s).log } := by
  unfold dropUnknown
  split <;> rfl

/-- A dispatched packet changes the events, the log, `ERR`, the keyboard history and the slots, and nothing else (R287). -/
theorem dispatchPacket_frame (m : Memory) (s : State) :
    dispatchPacket m s
      = { s with events := (dispatchPacket m s).events, log := (dispatchPacket m s).log, err := (dispatchPacket m s).err
                 kbd := (dispatchPacket m s).kbd, slots := (dispatchPacket m s).slots } := by
  cases h : classifyPacket s.par.tags m with
  | nothing => simp only [dispatchPacket, h]
  | keyboard =>
    simp only [dispatchPacket, h]
    rw [kbdApply_frame]
  | touchpad =>
    simp only [dispatchPacket, h]
    rw [tpApply_frame]
  | unknown tag =>
    simp only [dispatchPacket, h]
    rw [dropUnknown_frame]

theorem rdComplete_frame (o : XferOutcome) (s : State) :
    rdComplete o s
      = { s with events := (rdComplete o s).events, log := (rdComplete o s).log, err := (rdComplete o s).err
                 kbd := (rdComplete o s).kbd, slots := (rdComplete o s).slots } := by
  unfold rdComplete
  split
  · exact dispatchPacket_frame _ _
  · rfl

theorem raiseOutcome_frame (o : XferOutcome) (s : State) :
    raiseOutcome o s = { s with err := (raiseOutcome o s).err, log := (raiseOutcome o s).log } := by cases o <;> rfl

/-- `LED_SEND` changes `tx_buf`, `wr_pending` and the LED registers, and nothing else (R262). -/
theorem ledSend_eq (s : State) :
    ledSend s = { s with txBuf := ledCommand s.par s.led.seq s.led.want, xport := { s.xport with wrPending := true }
                         led := { want := s.led.want, sent := s.led.want, inflight := true, seq := s.led.seq + 1 } } := rfl

/-- The three things `LED_REQUEST` can do (R260). -/
theorem ledRequest_cases (on : Bool) (s : State) :
    (s.initDone = false ∧ ledRequest on s = s.raise (.usageError 0x50))
      ∨ (s.initDone = true ∧ (on = s.led.sent ∨ s.led.inflight = true) ∧ ledRequest on s = s.setWant on)
      ∨ (s.initDone = true ∧ on ≠ s.led.sent ∧ s.led.inflight = false ∧ ledRequest on s = ledSend (s.setWant on)) := by
  unfold ledRequest
  cases hd : s.initDone with
  | false => exact .inl ⟨rfl, by simp⟩
  | true =>
    by_cases h : on ≠ s.led.sent ∧ s.led.inflight = false
    · exact .inr (.inr ⟨rfl, h.1, h.2, by simp [h.1, h.2]⟩)
    · refine .inr (.inl ⟨rfl, ?_, by simp [if_neg h]⟩)
      by_cases e : on = s.led.sent
      · exact .inl e
      · cases hf : s.led.inflight with
        | true => exact .inr rfl
        | false => exact absurd ⟨e, hf⟩ h

/-- The two things `LED_COMPLETE` can do (R264). -/
theorem ledComplete_cases (o : XferOutcome) (s : State) :
    ((s.led.want = s.led.sent ∨ s.initDone = false) ∧ ledComplete o s = s.clearInflight)
      ∨ (s.led.want ≠ s.led.sent ∧ s.initDone = true ∧ ledComplete o s = ledSend s.clearInflight) := by
  unfold ledComplete
  by_cases h : s.led.want ≠ s.led.sent ∧ s.initDone = true
  · exact .inr ⟨h.1, h.2, by rw [if_pos h]⟩
  · refine .inl ⟨?_, by rw [if_neg h]⟩
    by_cases e : s.led.want = s.led.sent
    · exact .inl e
    · cases hd : s.initDone with
      | true => exact absurd ⟨e, hd⟩ h
      | false => exact .inr rfl

/-- The two things the loop of `INIT` can do (R283). -/
theorem initFrom_cases (k : Nat) (s : State) :
    (∃ p : Packet, s.par.initPackets[k]? = some p ∧ initFrom k s = s.startSyncWrite (.init k) p)
      ∨ (s.par.initPackets[k]? = none ∧ initFrom k s = (s.setMode true).giveBack (.init .ok)) := by
  unfold initFrom
  cases h : s.par.initPackets[k]? with
  | some p => exact .inl ⟨p, rfl, rfl⟩
  | none => exact .inr ⟨rfl, rfl⟩

/-- What `T_START` can do (R137); with both requests pending one more free value is drawn. -/
theorem transportStart_cases (s : State) :
    transportStart s = s
      ∨ (s.xport.tstate = .idle ∧ s.xport.rdPending = true
          ∧ (transportStart s = startRead s ∨ transportStart s = startRead s.drawn))
      ∨ (s.xport.tstate = .idle ∧ s.xport.wrPending = true
          ∧ (transportStart s = startWrite s ∨ transportStart s = startWrite s.drawn)) := by
  unfold transportStart
  by_cases ht : s.xport.tstate = .idle
  · cases hr : s.xport.rdPending <;> cases hw : s.xport.wrPending <;> simp [ht]
    cases Config.arbReadFirst s.draws <;> simp
  · exact .inl (if_pos ht)

/-! ## Steps -/

/-- What a step that goes on has done. -/
theorem step_next {s t : State} (h : step s = .next t) :
    paramsWf s.par = true
      ∧ ((s.stim = [] ∧ t = s) ∨ ∃ m rest, s.stim = m :: rest ∧ runStim m { s with stim := rest } = .next t) := by
  unfold step at h
  split at h
  · rename_i hp
    refine ⟨hp, ?_⟩
    cases hs : s.stim with
    | nil =>
      simp only [hs] at h
      exact .inl ⟨rfl, (Host.Outcome.next.inj h).symm⟩
    | cons m rest =>
      simp only [hs] at h
      exact .inr ⟨m, rest, rfl, h⟩
  · cases h

/-- What a move that goes on has done: a device answer, a reset, an item of a blocked host, a decoded instruction, or an item
that decodes to none. -/
theorem runStim_next {m : Stim} {s t : State} (h : runStim m s = .next t) :
    (∃ a, m = .dev a ∧ t = { s with dev := s.dev ++ [a] })
      ∨ (m = .reset ∧ t = s.assertReset)
      ∨ (∃ bs, m = .item .host bs ∧ s.host ≠ .ready ∧ byteAt bs 0 ≠ 0x50 ∧ t = s)
      ∨ (∃ p bs i, m = .item p bs ∧ portClosed p bs s = false ∧ decode s.par.tags p bs = .ok i ∧ exec i s = .next t)
      ∨ (∃ p bs r, m = .item p bs ∧ portClosed p bs s = false ∧ decode s.par.tags p bs = .error r
          ∧ runReject r s = .next t) := by
  cases m with
  | dev a => exact .inl ⟨a, rfl, (Host.Outcome.next.inj h).symm⟩
  | reset => exact .inr (.inl ⟨rfl, (Host.Outcome.next.inj h).symm⟩)
  | item p bs =>
    simp only [runStim, runItem] at h
    split at h
    · rename_i hc
      simp only [portClosed, Bool.and_eq_true, decide_eq_true_eq, Bool.not_eq_true', fromSink, beq_eq_false_iff_ne] at hc
      obtain ⟨⟨hp, hh⟩, hb⟩ := hc
      subst hp
      exact .inr (.inr (.inl ⟨bs, rfl, hh, hb, (Host.Outcome.next.inj h).symm⟩))
    · rename_i hc
      simp only [Bool.not_eq_true] at hc
      cases hd : decode s.par.tags p bs with
      | ok i =>
        simp only [hd] at h
        exact .inr (.inr (.inr (.inl ⟨p, bs, i, rfl, hc, hd, h⟩)))
      | error r =>
        simp only [hd] at h
        exact .inr (.inr (.inr (.inr ⟨p, bs, r, rfl, hc, hd, h⟩)))

/-- What a rejected item that goes on has done (30_encoding.md R106). -/
theorem runReject_next {r : Reject} {s t : State} (h : runReject r s = .next t) :
    (∃ op, r = .usage op ∧ t = s.raise (.usageError op)) ∨ (∃ tag, r = .unknownTag tag ∧ t = dropUnknown tag s)
      ∨ (∃ bs, r = .statusMismatch bs ∧ t = receiveStatusWord bs s) := by
  cases r with
  | usage op => exact .inl ⟨op, rfl, (Host.Outcome.next.inj h).symm⟩
  | unknownTag tag => exact .inr (.inl ⟨tag, rfl, (Host.Outcome.next.inj h).symm⟩)
  | statusMismatch bs => exact .inr (.inr ⟨bs, rfl, (Host.Outcome.next.inj h).symm⟩)
  | unknownOperation op => cases h
  | badOperands op => cases h
  | ledValue v => cases h

end Sys2Proof.Machine
end

