-- ==== Sys2Proof/Laws/Errors.lean ====
section
/-! SUPPORT. What an operation does to `ERR` and the log together (60_exceptions.md R301): the log grows by some records, and a sticky bit
is set exactly where it was set before or one of those records is an error of its kind. -/

namespace Sys2Proof.Machine

/-- From `s` to `t` the log grew by records whose errors are the bits that `ERR` gained. -/
def LogsErrors (s t : State) : Prop :=
  ∃ ls : List LogRec, t.log = s.log ++ ls
    ∧ ∀ j : Fin 6, t.err.getLsbD j.val = true ↔ s.err.getLsbD j.val = true ∨ ∃ e : ErrRec, LogRec.err e ∈ ls ∧ e.code = j

/-- An operation that leaves the log and `ERR` alone. -/
theorem LogsErrors.of_eq {s t : State} (hl : t.log = s.log) (he : t.err = s.err) : LogsErrors s t :=
  ⟨[], by rw [hl, List.append_nil], fun j => by rw [he]; simp⟩

theorem LogsErrors.trans {s t u : State} (h : LogsErrors s t) (h' : LogsErrors t u) : LogsErrors s u := by
  obtain ⟨ls, hl, he⟩ := h
  obtain ⟨ls', hl', he'⟩ := h'
  refine ⟨ls ++ ls', by rw [hl', hl, List.append_assoc], fun j => ?_⟩
  rw [he' j, he j]
  constructor
  · rintro ((h | ⟨e, h, hc⟩) | ⟨e, h, hc⟩)
    · exact .inl h
    · exact .inr ⟨e, List.mem_append_left _ h, hc⟩
    · exact .inr ⟨e, List.mem_append_right _ h, hc⟩
  · rintro (h | ⟨e, h, hc⟩)
    · exact .inl (.inl h)
    · rcases List.mem_append.1 h with h | h
      · exact .inl (.inr ⟨e, h, hc⟩)
      · exact .inr ⟨e, h, hc⟩

/-- The bit that a mask has is the error's code. -/
theorem mask_getLsbD (e : ErrRec) (j : Fin 6) : e.mask.getLsbD j.val = decide (e.code = j) := by
  have key : ∀ c j : Fin 6, (BitVec.ofNat 6 (2 ^ c.val)).getLsbD j.val = decide (c = j) := by decide
  have h : e.mask = BitVec.ofNat 6 (2 ^ e.code.val) := by cases e <;> rfl
  rw [h, key]

theorem LogsErrors.raise (e : ErrRec) (s : State) : LogsErrors s (s.raise e) := by
  refine ⟨[.err e], rfl, fun j => ?_⟩
  show (s.err ||| e.mask).getLsbD j.val = true ↔ _
  rw [BitVec.getLsbD_or, Bool.or_eq_true, mask_getLsbD, decide_eq_true_eq]
  simp

theorem LogsErrors.refuse (op : Byte) (s : State) : LogsErrors s (s.refuse op) :=
  (LogsErrors.raise (.usageError op) s).trans (LogsErrors.of_eq rfl rfl)

theorem LogsErrors.raiseOutcome (o : XferOutcome) (s : State) : LogsErrors s (raiseOutcome o s) := by
  cases o
  · exact LogsErrors.of_eq rfl rfl
  · exact LogsErrors.raise _ s
  · exact LogsErrors.raise _ s

theorem LogsErrors.dropUnknown (tag : Word16) (s : State) : LogsErrors s (dropUnknown tag s) := by
  unfold Machine.dropUnknown
  split
  · refine (LogsErrors.raise (.unrecognizedPacket tag) s).trans ⟨[.traceUnknown tag], rfl, fun j => ?_⟩
    constructor
    · exact Or.inl
    · rintro (h | ⟨e, h, -⟩)
      · exact h
      · simp at h
  · exact LogsErrors.raise _ s

/-! ## The keyboard -/

theorem LogsErrors.releaseSlot (f : KeyboardFrame) (s : State) (i : Fin 6) : LogsErrors s (releaseSlot f s i) := by
  unfold Machine.releaseSlot reportRelease
  split
  · exact LogsErrors.of_eq rfl rfl
  · split
    · exact LogsErrors.of_eq rfl rfl
    · split
      · exact (LogsErrors.raise (.boundsViolation s.kbd.lastKeys[i]) s).trans (LogsErrors.of_eq rfl rfl)
      · exact LogsErrors.of_eq rfl rfl

theorem LogsErrors.pressSlot (f : KeyboardFrame) (s : State) (i : Fin 6) : LogsErrors s (pressSlot f s i) := by
  unfold Machine.pressSlot
  split
  · exact LogsErrors.of_eq rfl rfl
  · split
    · exact LogsErrors.raise _ s
    · exact LogsErrors.of_eq rfl rfl

theorem LogsErrors.foldl {α : Type} (g : State → α → State) (h : ∀ s a, LogsErrors s (g s a)) (l : List α) (s : State) :
    LogsErrors s (l.foldl g s) := by
  induction l generalizing s with
  | nil => exact LogsErrors.of_eq rfl rfl
  | cons a l ih => exact (h s a).trans (ih (g s a))

theorem LogsErrors.kbdApply (f : KeyboardFrame) (s : State) : LogsErrors s (kbdApply f s) :=
  ((LogsErrors.foldl _ (LogsErrors.releaseSlot f) six s).trans
    (LogsErrors.foldl _ (LogsErrors.pressSlot f) six (kbdReleases f s))).trans (LogsErrors.of_eq rfl rfl)

/-! ## Dispatch and completion -/

theorem LogsErrors.dispatchPacket (m : Memory) (s : State) : LogsErrors s (dispatchPacket m s) := by
  unfold Machine.dispatchPacket
  split
  · exact LogsErrors.of_eq rfl rfl
  · exact LogsErrors.kbdApply _ s
  · exact LogsErrors.of_eq rfl rfl
  · exact LogsErrors.dropUnknown _ s

theorem LogsErrors.rdComplete (o : XferOutcome) (s : State) : LogsErrors s (rdComplete o s) := by
  unfold Machine.rdComplete
  split
  · exact LogsErrors.dispatchPacket _ s
  · exact LogsErrors.of_eq rfl rfl

theorem LogsErrors.ledRequest (on : Bool) (s : State) : LogsErrors s (ledRequest on s) := by
  rcases ledRequest_cases on s with ⟨-, e⟩ | ⟨-, -, e⟩ | ⟨-, -, -, e⟩ <;> rw [e]
  · exact LogsErrors.raise _ s
  · exact LogsErrors.of_eq rfl rfl
  · exact LogsErrors.of_eq rfl rfl

theorem LogsErrors.ledComplete (o : XferOutcome) (s : State) : LogsErrors s (ledComplete o s) := by
  rcases ledComplete_cases o s with ⟨-, e⟩ | ⟨-, -, e⟩ <;> rw [e] <;> exact LogsErrors.of_eq rfl rfl

end Sys2Proof.Machine
end

