-- ==== Sys2Proof/Laws/PerInstr.lean ====
section
/-! SUPPORT. The per-instruction family `Numbered`: the first byte of an encoded operation is its number in the tables of
30_encoding.md R104 and R105; the data formats have no number. -/

namespace Sys2Proof.Laws.Numbered

/-- The operation number of R104 and R105. -/
def opNumber : Instr → Option Byte
  | .nop => some 0x00
  | .cfgLoad _ => some 0x01
  | .init => some 0x02
  | .shutdown => some 0x03
  | .setTunables _ _ => some 0x04
  | .setCal _ _ _ _ => some 0x05
  | .wtr _ => some 0x10
  | .rd => some 0x11
  | .ledRequest _ => some 0x50
  | .gpe => some 0x06
  | .rdComplete _ => some 0x07
  | .dispatch => some 0x08
  | .rda => some 0x12
  | .wtra => some 0x13
  | .statusCheck => some 0x14
  | .tStart => some 0x15
  | .tXfer => some 0x16
  | .tComplete => some 0x17
  | .classify => some 0x20
  | .decodeKbd => some 0x21
  | .decodeTp => some 0x22
  | .crc16 _ => some 0x23
  | .crcCheck => some 0x24
  | .buildLed _ _ => some 0x25
  | .kbdApply _ => some 0x30
  | .codeToKey _ _ => some 0x31
  | .tpApply _ => some 0x40
  | .tpFilter _ => some 0x41
  | .tpXform _ => some 0x42
  | .tpAssign _ => some 0x43
  | .tpEmit _ _ _ => some 0x44
  | .ledSend => some 0x51
  | .ledComplete _ => some 0x52
  | .pktKeyboard _ => none
  | .pktTouchpad _ => none
  | .pktNothing _ => none
  | .statusAccept => none
  | .ledcmdVal _ => none

/-- An operation with a number begins with it when it is encoded. -/
def Statement (i : Instr) : Prop := ∀ (t : Tags) (n : Byte), opNumber i = some n → byteAt (encode t i) 0 = n

theorem nop : Statement .nop := by
  intro t n h
  exact Option.some.inj h

theorem cfgLoad (entries : Vector CfgEntry 8) : Statement (.cfgLoad entries) := by
  intro t n h
  exact Option.some.inj h

theorem init : Statement .init := by
  intro t n h
  exact Option.some.inj h

theorem shutdown : Statement .shutdown := by
  intro t n h
  exact Option.some.inj h

theorem setTunables (fnmode : BitVec 2) (iso : Bool) : Statement (.setTunables fnmode iso) := by
  intro t n h
  exact Option.some.inj h

theorem setCal (xMin xMax yMin yMax : Word32) : Statement (.setCal xMin xMax yMin yMax) := by
  intro t n h
  exact Option.some.inj h

theorem wtr (tx : Packet) : Statement (.wtr tx) := by
  intro t n h
  exact Option.some.inj h

theorem rd : Statement .rd := by
  intro t n h
  exact Option.some.inj h

theorem ledRequest (on : Bool) : Statement (.ledRequest on) := by
  intro t n h
  exact Option.some.inj h

theorem gpe : Statement .gpe := by
  intro t n h
  exact Option.some.inj h

theorem rdComplete (o : XferOutcome) : Statement (.rdComplete o) := by
  intro t n h
  exact Option.some.inj h

theorem dispatch : Statement .dispatch := by
  intro t n h
  exact Option.some.inj h

theorem rda : Statement .rda := by
  intro t n h
  exact Option.some.inj h

theorem wtra : Statement .wtra := by
  intro t n h
  exact Option.some.inj h

theorem statusCheck : Statement .statusCheck := by
  intro t n h
  exact Option.some.inj h

theorem tStart : Statement .tStart := by
  intro t n h
  exact Option.some.inj h

theorem tXfer : Statement .tXfer := by
  intro t n h
  exact Option.some.inj h

theorem tComplete : Statement .tComplete := by
  intro t n h
  exact Option.some.inj h

theorem classify : Statement .classify := by
  intro t n h
  exact Option.some.inj h

theorem decodeKbd : Statement .decodeKbd := by
  intro t n h
  exact Option.some.inj h

theorem decodeTp : Statement .decodeTp := by
  intro t n h
  exact Option.some.inj h

theorem crc16 (d : List Byte) : Statement (.crc16 d) := by
  intro t n h
  exact Option.some.inj h

theorem crcCheck : Statement .crcCheck := by
  intro t n h
  exact Option.some.inj h

theorem buildLed (sequence : Byte) (on : Bool) : Statement (.buildLed sequence on) := by
  intro t n h
  exact Option.some.inj h

theorem kbdApply (f : KeyboardFrame) : Statement (.kbdApply f) := by
  intro t n h
  exact Option.some.inj h

theorem codeToKey (code : Byte) (fn : Bool) : Statement (.codeToKey code fn) := by
  intro t n h
  exact Option.some.inj h

theorem tpApply (f : TouchpadFrame) : Statement (.tpApply f) := by
  intro t n h
  exact Option.some.inj h

theorem tpFilter (f : TouchpadFrame) : Statement (.tpFilter f) := by
  intro t n h
  exact Option.some.inj h

theorem tpXform (f : FingerRec) : Statement (.tpXform f) := by
  intro t n h
  exact Option.some.inj h

theorem tpAssign (pos : List Pos) : Statement (.tpAssign pos) := by
  intro t n h
  exact Option.some.inj h

theorem tpEmit (f : TouchpadFrame) (entries : List TouchEntry) (released : Vector Bool 6) : Statement (.tpEmit f entries released) := by
  intro t n h
  exact Option.some.inj h

theorem ledSend : Statement .ledSend := by
  intro t n h
  exact Option.some.inj h

theorem ledComplete (o : XferOutcome) : Statement (.ledComplete o) := by
  intro t n h
  exact Option.some.inj h

theorem pktKeyboard (payload : Vector Byte 254) : Statement (.pktKeyboard payload) := by
  intro t n h
  exact absurd h (by simp [opNumber])

theorem pktTouchpad (payload : Vector Byte 254) : Statement (.pktTouchpad payload) := by
  intro t n h
  exact absurd h (by simp [opNumber])

theorem pktNothing (payload : Vector Byte 254) : Statement (.pktNothing payload) := by
  intro t n h
  exact absurd h (by simp [opNumber])

theorem statusAccept : Statement .statusAccept := by
  intro t n h
  exact absurd h (by simp [opNumber])

theorem ledcmdVal (on : Bool) : Statement (.ledcmdVal on) := by
  intro t n h
  exact absurd h (by simp [opNumber])

end Sys2Proof.Laws.Numbered
end

