-- ==== Sys2Proof/Laws/Transport.lean ====
section
/-! SUPPORT. What the Transport's shared operations can do, said once: the window of the blocking commands, the transfers, the
completion and its verdicts, the configuration load. -/

namespace Sys2Proof.Machine

/-- The window of `WTR`, `RD` and `INIT`, condition by condition (40_transport.md R145). -/
theorem syncReady_iff (s : State) :
    s.syncReady = true
      ↔ s.cfgValid = true ∧ s.gpeArmed = false ∧ s.initDone = false ∧ s.xport.tstate = .idle ∧ s.xport.rdPending = false
        ∧ s.xport.wrPending = false ∧ s.led.inflight = false := by
  simp [State.syncReady, and_assoc]

/-- A step takes the first move under a well-formed parameter set. -/
theorem step_cons {s : State} {m : Stim} {rest : List Stim} (hp : paramsWf s.par = true) (hm : s.stim = m :: rest) :
    step s = runStim m { s with stim := rest } := by
  unfold step
  rw [if_pos hp, hm]

/-- An item of an open port that decodes runs its instruction. -/
theorem runItem_ok {p : Port} {bs : List Byte} {s : State} {i : Instr} (hc : portClosed p bs s = false)
    (hd : decode s.par.tags p bs = .ok i) : runItem p bs s = exec i s := by
  unfold runItem
  rw [if_neg (by simp [hc]), hd]

/-! ## Transfers (R138 to R142) -/

@[simp] theorem freeBytes_length (draw n : Nat) : (freeBytes draw n).length = n := by simp [freeBytes]

/-- Without a transfer to perform, and without an answer where one is needed, nothing changes. -/
theorem transportTransfer_waits {s : State}
    (h : s.xport.tstate = .idle ∨ s.xport.tstate = .complete ∨ (s.dev = [] ∧ s.xport.tstate ≠ .rdArm)) :
    transportTransfer s = s := by
  rcases h with h | h | ⟨hd, h⟩
  · simp only [transportTransfer, h]
  · simp only [transportTransfer, h]
  · unfold transportTransfer withAnswer
    cases ht : s.xport.tstate <;> simp only [hd]
    exact absurd ht h

theorem transportTransfer_arm {s : State} (h : s.xport.tstate = .rdArm) : transportTransfer s = s.goPhase .rdData := by
  simp only [transportTransfer, h]

/-- With an answer the transfer of the phase is performed on it. -/
theorem transportTransfer_answer {s : State} {a : DevAnswer} {rest : List DevAnswer} (hd : s.dev = a :: rest) :
    (s.xport.tstate = .wrCmd → transportTransfer s = sendCommand a { s with dev := rest })
      ∧ (s.xport.tstate = .wrStatus → transportTransfer s = receiveStatus a { s with dev := rest })
      ∧ (s.xport.tstate = .wrResp → transportTransfer s = receiveResponse a { s with dev := rest })
      ∧ (s.xport.tstate = .rdData → transportTransfer s = receivePacket a { s with dev := rest }) := by
  refine ⟨?_, ?_, ?_, ?_⟩ <;>
  · intro h
    simp only [transportTransfer, h, withAnswer, hd]

/-- `T_XFER` changes the two receive buffers, the wire trace, the answers, the draw counter, `t_res` and `tstate`, and nothing
else. -/
theorem transportTransfer_frame (s : State) :
    transportTransfer s
      = { s with txStatus := (transportTransfer s).txStatus, rxBuf := (transportTransfer s).rxBuf
                 wire := (transportTransfer s).wire, dev := (transportTransfer s).dev, draws := (transportTransfer s).draws
                 xport := { s.xport with tRes := (transportTransfer s).xport.tRes
                                         tstate := (transportTransfer s).xport.tstate } } := by
  cases hd : s.dev with
  | nil =>
    by_cases ha : s.xport.tstate = .rdArm
    · rw [transportTransfer_arm ha]
      rfl
    · rw [transportTransfer_waits (.inr (.inr ⟨hd, ha⟩))]
  | cons a rest =>
    obtain ⟨h1, h2, h3, h4⟩ := transportTransfer_answer hd
    cases ht : s.xport.tstate with
    | idle => rw [transportTransfer_waits (.inl ht)]
    | complete => rw [transportTransfer_waits (.inr (.inl ht))]
    | rdArm =>
      rw [transportTransfer_arm ht]
      rfl
    | wrCmd =>
      rw [h1 ht]
      cases a <;> rfl
    | wrStatus =>
      rw [h2 ht]
      cases a <;> rfl
    | wrResp =>
      rw [h3 ht]
      cases a <;> rfl
    | rdData =>
      rw [h4 ht]
      cases a <;> rfl

/-- The wire trace grows at its end. -/
theorem transportTransfer_wire (s : State) : ∃ ws : List WireRec, (transportTransfer s).wire = s.wire ++ ws := by
  cases hd : s.dev with
  | nil =>
    by_cases ha : s.xport.tstate = .rdArm
    · rw [transportTransfer_arm ha]
      exact ⟨[], (List.append_nil _).symm⟩
    · rw [transportTransfer_waits (.inr (.inr ⟨hd, ha⟩))]
      exact ⟨[], (List.append_nil _).symm⟩
  | cons a rest =>
    obtain ⟨h1, h2, h3, h4⟩ := transportTransfer_answer hd
    cases ht : s.xport.tstate with
    | idle =>
      rw [transportTransfer_waits (.inl ht)]
      exact ⟨[], (List.append_nil _).symm⟩
    | complete =>
      rw [transportTransfer_waits (.inr (.inl ht))]
      exact ⟨[], (List.append_nil _).symm⟩
    | rdArm =>
      rw [transportTransfer_arm ht]
      exact ⟨[], (List.append_nil _).symm⟩
    | wrCmd =>
      rw [h1 ht]
      cases a
      · exact ⟨_, rfl⟩
      · exact ⟨_, List.append_assoc _ _ _⟩
    | wrStatus =>
      rw [h2 ht]
      cases a <;> exact ⟨_, rfl⟩
    | wrResp =>
      rw [h3 ht]
      cases a <;> exact ⟨_, rfl⟩
    | rdData =>
      rw [h4 ht]
      cases a <;> exact ⟨_, rfl⟩

/-! ## Completion (R143) -/

/-- What `T_COMPLETE` can do when it goes on. -/
theorem execTComplete_next {s t : State} (h : execTComplete s = .next t) :
    (s.xport.tstate ≠ .complete ∧ t = s)
      ∨ (s.xport.tstate = .complete ∧ (willDispatch s = true → offsetsFit s.par = true) ∧ t = completeExchange s) := by
  unfold execTComplete at h
  split at h
  · exact .inl ⟨by assumption, (Host.Outcome.next.inj h).symm⟩
  · rename_i hc
    split at h
    · cases h
    · rename_i hn
      refine .inr ⟨Decidable.not_not.mp hc, fun hw => ?_, (Host.Outcome.next.inj h).symm⟩
      cases ho : offsetsFit s.par with
      | true => rfl
      | false => exact absurd ⟨hw, ho⟩ hn

/-- The five completions, by exchange. -/
theorem completeExchange_eq (s : State) :
    (s.xport.texch = .syncWtr →
      completeExchange s = returnWrite (writeOutcome s) (freeChannel (raiseOutcome (writeOutcome s) s)))
    ∧ (s.xport.texch = .syncRd →
      completeExchange s
        = (freeChannel (raiseOutcome (readOutcome s) s)).giveBack (.rd (readOutcome s) (Memory.bytes s.rxBuf 0 packetLen)))
    ∧ (s.xport.texch = .asyncRd →
      completeExchange s = freeChannel (rdComplete (readOutcome s) (raiseOutcome (readOutcome s) s)))
    ∧ (s.xport.texch = .asyncWtr →
      completeExchange s = ledComplete (writeOutcome s) (freeChannel (raiseOutcome (writeOutcome s) s)))
    ∧ (s.xport.texch = .none → completeExchange s = freeChannel s) := by
  refine ⟨?_, ?_, ?_, ?_, ?_⟩ <;>
  · intro h
    simp only [completeExchange, h]

/-- The three returns of a synchronous write: `INIT` ends, `INIT` goes on, `WTR` ends. -/
theorem returnWrite_cases (o : XferOutcome) (s : State) :
    (∃ k, s.host = .init k ∧ o ≠ .ok ∧ returnWrite o s = s.giveBack (.init o))
      ∨ (∃ k, s.host = .init k ∧ o = .ok ∧ returnWrite o s = initFrom (k + 1) s)
      ∨ ((∀ k, s.host ≠ .init k) ∧ returnWrite o s
          = s.giveBack (.wtr o (Memory.bytes s.txStatus 0 statusLen) (Memory.bytes s.rxBuf 0 packetLen))) := by
  cases hh : s.host with
  | init k =>
    by_cases ho : o = .ok
    · refine .inr (.inl ⟨k, rfl, ho, ?_⟩)
      simp only [returnWrite, hh, initResume, if_pos ho]
    · refine .inl ⟨k, rfl, ho, ?_⟩
      simp only [returnWrite, hh, initResume, if_neg ho]
  | ready => exact .inr (.inr ⟨fun k => HostCont.noConfusion, by simp only [returnWrite, hh]⟩)
  | wtr => exact .inr (.inr ⟨fun k => HostCont.noConfusion, by simp only [returnWrite, hh]⟩)
  | rd => exact .inr (.inr ⟨fun k => HostCont.noConfusion, by simp only [returnWrite, hh]⟩)

/-- The sign of `t_res`. -/
theorem tRes_msb (r : Word32) : r.msb = decide (r.toInt < 0) := by rw [BitVec.msb_eq_toInt]

/-! ## Configuration (45_system.md R281) -/

/-- `CFG_LOAD` changes CSR 0 to 7, `cfg_valid`, `ERR` and the log, and nothing else. -/
theorem cfgLoad_frame (entries : Vector CfgEntry 8) (s : State) :
    cfgLoad entries s
      = { s with spi := (cfgLoad entries s).spi, cfgValid := (cfgLoad entries s).cfgValid, err := (cfgLoad entries s).err
                 log := (cfgLoad entries s).log } := by
  unfold cfgLoad
  split
  · rfl
  · split
    · rfl
    · split <;> rfl

end Sys2Proof.Machine
end

