-- ==== Sys2Proof/Tests/Slice0.lean ====
section
/-! SUPPORT. Tests of the model: terms that well-formedness refuses, words written out from 30_encoding.md, one-step vectors of
95_test_vectors.md, and for every statement with hypotheses a state and operands that meet them. The parameter set `tv` is the
set TV of 95_test_vectors.md section 1. -/

set_option Elab.async false

namespace Sys2Proof.Tests

open Sys2Proof Sys2Proof.Machine

/-! ## The test parameter set and small states -/

/-- A packet with the given first bytes, the rest zero. -/
def pk (l : List Byte) : Packet := bytesAt l 0 256

/-- `SCANCODE_TABLE` of TV. -/
def scanOf (i : Nat) : Key := ([0, 30, 48, 59, 41, 86, 103, 46] : List Key).getD i 0

/-- The parameter set TV. -/
def tv : Params :=
  { tags := Config.tags, crcPoly := 0xA001, ledTemplate := pk [], initPackets := [pk [1], pk [2]], kbdOffCounter := 11
    kbdOffMods := 17, kbdOffKeys := 19, kbdOffFn := 25, tpOffNFingers := 2, tpOffClick := 17, tpOffFingers := 64
    fingerStride := 30, fo := Config.fingerOffsets, scan := { last := 7, entry := Vector.ofFn (fun i => scanOf i.val) }
    modCodes := #v[29, 42, 56, 125, 97, 54, 100, 126]
    fnTable := [{ source := 59, target := 224, fkey := true }, { source := 103, target := 104, fkey := false }]
    isoTable := [{ source := 41, target := 86 }, { source := 86, target := 41 }]
    keyFn := 464, maxOrientation := 16384, cfgKeys := Config.cfgKeys, traceUnknown := false }

/-- Right after reset under TV. -/
def s0 : State := { State.reset with par := tv }

/-- `CFG_LOAD` done. -/
def ready : State := { s0 with cfgValid := true }

/-- After BRINGUP, but for the buffers and the wire trace. -/
def up : State := { ready with initDone := true, gpeArmed := true }

/-- `s` in phase `t` of exchange `x`. -/
def at_ (s : State) (x : TExch) (t : TState) : State := { s with xport := { s.xport with texch := x, tstate := t } }

/-- The state after one operation; the state before where it stops. -/
def after (i : Instr) (s : State) : State :=
  match exec i s with
  | .next t => t
  | .fault _ => s
  | .refused _ => s

/-- The state after one step of the machine. -/
def stepped (s : State) : State :=
  match step s with
  | .next t => t
  | .fault _ => s
  | .refused _ => s

/-- The refusal of a step, if it refuses. -/
def refusal (s : State) : Option Refusal :=
  match step s with
  | .refused r => some r
  | .next _ => none
  | .fault _ => none

def hostItem (bs : List Byte) : Stim := .item .host bs

/-! ## Well-formedness refuses -/

theorem test_wf_rd_complete : Instr.wellFormed (.rdComplete .failProtocol) = false := by decide

theorem test_wf_crc16_too_long : Instr.wellFormed (.crc16 (List.replicate 65536 0)) = false := by
  show crcLengthOk (List.replicate 65536 (0 : Byte)).length = false
  rw [List.length_replicate]
  rfl

theorem test_wf_tp_assign_seven : Instr.wellFormed (.tpAssign (List.replicate 7 { x := 0, y := 0 })) = false := by decide

theorem test_wf_tp_emit_seven :
    Instr.wellFormed (.tpEmit (decodeTouchFrame [] 0)
      (List.replicate 7 { finger := 0, pos := { x := 0, y := 0 }, slot := 0 }) (Vector.replicate 6 false)) = false := by decide

/-! ## Decoding, from the words of 30_encoding.md R92, R95, R96, R104, R105 -/

theorem test_decode_host_words :
    decodeTableWord 16 0x0000 = some .nop ∧ decodeTableWord 16 0x0001 = some (.cfgLoad (Vector.replicate 8 { present := 0, value := 0 }))
    ∧ decodeTableWord 16 0x0002 = some .init ∧ decodeTableWord 16 0x0003 = some .shutdown
    ∧ decodeTableWord 16 0x0004 = some (.setTunables 0 false) ∧ decodeTableWord 16 0x0604 = some (.setTunables 2 true)
    ∧ decodeTableWord 16 0x0005 = some (.setCal 0 0 0 0)
    ∧ decodeTableWord 16 0x0011 = some .rd ∧ decodeTableWord 16 0x0050 = some (.ledRequest false)
    ∧ decodeTableWord 16 0x0150 = some (.ledRequest true) := by decide +kernel

/-- Bytes that were not supplied are zero. -/
theorem test_decode_wtr_word : decodeTableWord 16 0x0010 = some (.wtr (bytesAt [] 0 256)) := by rfl

/-- Vector Y9: reserved words. -/
theorem test_decode_host_rejects :
    decodeTableWord 16 0x0009 = none ∧ decodeTableWord 16 0x0012 = none ∧ decodeTableWord 16 0x0250 = none
    ∧ decodeTableWord 16 0x0804 = none ∧ decodeTableWord 16 0x0100 = none ∧ decodeTableWord 16 0x2001 = none := by decide +kernel

theorem test_decode_system_and_transport :
    decodeTableWord 8 0x06 = some .gpe ∧ decodeTableWord 8 0x07 = some (.rdComplete .ok) ∧ decodeTableWord 8 0x08 = some .dispatch
    ∧ decodeTableWord 8 0x12 = some .rda ∧ decodeTableWord 8 0x13 = some .wtra ∧ decodeTableWord 8 0x14 = some .statusCheck
    ∧ decodeTableWord 8 0x15 = some .tStart ∧ decodeTableWord 8 0x16 = some .tXfer
    ∧ decodeTableWord 8 0x17 = some .tComplete := by decide +kernel

theorem test_decode_codec_and_keyboard :
    decodeTableWord 8 0x20 = some .classify ∧ decodeTableWord 8 0x21 = some .decodeKbd ∧ decodeTableWord 8 0x22 = some .decodeTp
    ∧ decodeTableWord 8 0x23 = some (.crc16 []) ∧ decodeTableWord 8 0x24 = some .crcCheck
    ∧ decodeTableWord 8 0x25 = some (.buildLed 0 false)
    ∧ decodeTableWord 8 0x30 = some (.kbdApply { counter := 0, modifiers := 0, keys := Vector.replicate 6 0, fn := false })
    ∧ decodeTableWord 8 0x31 = some (.codeToKey 0 false) := by decide +kernel

/-- A finger record of zeros. -/
def noFinger : FingerRec :=
  { origin := 0, absX := 0, absY := 0, relX := 0, relY := 0, toolMajor := 0, toolMinor := 0, orientation := 0, touchMajor := 0
    touchMinor := 0, pressure := 0 }

/-- A frame with the given touching fingers (absolute X and Y, touch-major), the others absent. -/
def frameOf (l : List (Int × Int × Int)) : TouchpadFrame :=
  let g := fun k => match l[k]? with
    | some (x, y, t) => { noFinger with absX := BitVec.ofInt 32 x, absY := BitVec.ofInt 32 y, touchMajor := BitVec.ofInt 32 t }
    | none => noFinger
  { nFingers := 0, click := false, fingers := #v[g 0, g 1, g 2, g 3, g 4, g 5] }

theorem test_decode_touch_and_led :
    decodeTableWord 8 0x40 = some (.tpApply (frameOf [])) ∧ decodeTableWord 8 0x41 = some (.tpFilter (frameOf []))
    ∧ decodeTableWord 8 0x42 = some (.tpXform noFinger) ∧ decodeTableWord 8 0x43 = some (.tpAssign [])
    ∧ decodeTableWord 8 0x44 = some (.tpEmit (frameOf []) [] (Vector.replicate 6 false)) ∧ decodeTableWord 8 0x51 = some .ledSend
    ∧ decodeTableWord 8 0x52 = some (.ledComplete .ok) ∧ decodeTableWord 8 0x53 = none ∧ decodeTableWord 8 0x01 = none := by
  decide +kernel

/-- 30_encoding.md R105's number with the operands of log entry 15: what follows the frame of 266 bytes is read where it is put. -/
theorem test_decode_tpEmit_operands :
    let i : Instr := .tpEmit (frameOf [(1, -2, 3), (0, 0, 0), (0, 0, 0), (0, 0, 0), (0, 0, 0), (-4, 5, 6)])
      [{ finger := 5, pos := { x := -4, y := 95 }, slot := 2 }] #v[true, false, false, true, false, true]
    (decode tv.tags .op (encode tv.tags i)).toOption = some i ∧ (encode tv.tags i).drop 267 = [1, 0x29, 5, 2, 0xFC, 0xFF, 0xFF, 0xFF, 95, 0, 0, 0] := by
  decide +kernel

theorem test_decode_formats :
    decodeTableWord 16 0x0120 = some (.pktKeyboard (bytesAt [] 0 254)) ∧ decodeTableWord 16 0x0220 = some (.pktTouchpad (bytesAt [] 0 254))
    ∧ decodeTableWord 16 0xD040 = some (.pktNothing (bytesAt [] 0 254)) ∧ decodeTableWord 32 0xD56827AC = some .statusAccept
    ∧ decodeTableWord 8 0x02 = some (.ledcmdVal true) ∧ decodeTableWord 8 0x00 = some (.ledcmdVal false) :=
  ⟨by rfl, by rfl, by rfl, by rfl, by rfl, by rfl⟩

/-- Vector Y1's payload, entry 6 absent. -/
theorem test_decode_cfg_record :
    decode tv.tags .host ([0x01, 0x00, 0x01, 0x7D, 0, 0, 0, 0, 0, 0, 0, 0x01, 0x08, 0, 0, 0, 0, 0, 0, 0,
        0x01, 0x01, 0, 0, 0, 0, 0, 0, 0, 0x01, 0, 0, 0, 0, 0, 0, 0, 0, 0x01, 0, 0, 0, 0, 0, 0, 0, 0,
        0x01, 0x0A, 0, 0, 0, 0, 0, 0, 0, 0x00, 0, 0, 0, 0, 0, 0, 0, 0, 0x01, 0x0A, 0x02, 0, 0, 0, 0, 0, 0x80])
      = .ok (.cfgLoad #v[{ present := 1, value := 125 }, { present := 1, value := 8 }, { present := 1, value := 1 },
          { present := 1, value := 0 }, { present := 1, value := 0 }, { present := 1, value := 10 },
          { present := 0, value := 0 }, { present := 1, value := 0x800000000000020A }]) := by rfl

/-- Vector Y8's payload. -/
theorem test_decode_set_cal :
    decode tv.tags .host [0x05, 0x00, 0x9C, 0xFF, 0xFF, 0xFF, 0x88, 0x13, 0, 0, 0xCE, 0xFF, 0xFF, 0xFF, 0xA0, 0x0F, 0, 0]
      = .ok (.setCal (BitVec.ofInt 32 (-100)) 5000 (BitVec.ofInt 32 (-50)) 4000) := by rfl

/-! ## One-step vectors -/

/-- The configuration of vector Y1 with the two given entries. -/
def cfg (word delay : CfgEntry) : Vector CfgEntry 8 :=
  #v[{ present := 1, value := 125 }, word, { present := 1, value := 1 }, { present := 1, value := 0 },
     { present := 1, value := 0 }, delay, { present := 1, value := 10 }, { present := 1, value := 11 }]

/-- Y1, Y4. -/
theorem test_cfg_load_accepted :
    let t := after (.cfgLoad (cfg { present := 1, value := 8 } { present := 1, value := 10 })) s0
    (t.statusReg, t.readCsr 0, t.readCsr 1, t.readCsr 5, t.readCsr 7) = (0x0001, 125, 8, 10, 11)
      ∧ (after (.cfgLoad (cfg { present := 1, value := 8 } { present := 1, value := 10 })) t).log
          = [.err (.usageError 0x01)] := by decide +kernel

/-- Y2, Y3: an absent parameter before a wrong word size. -/
theorem test_cfg_load_refused :
    (after (.cfgLoad (cfg { present := 1, value := 16 } { present := 0, value := 10 })) s0).log
        = [.err (.configurationMissing 5)]
      ∧ (after (.cfgLoad (cfg { present := 1, value := 16 } { present := 1, value := 10 })) s0).err = 0x20
      ∧ (after (.cfgLoad (cfg { present := 1, value := 16 } { present := 1, value := 10 })) s0).cfgValid = false := by
  decide +kernel

/-- Y5, Y6. -/
theorem test_set_tunables :
    (after (.setTunables 1 true) s0).readCsr 8 = 5 ∧ (after (.setTunables 3 true) s0).log = [.err (.usageError 0x04)] := by
  decide +kernel

/-- Y8. -/
theorem test_set_cal :
    ((after (.setCal (BitVec.ofInt 32 (-100)) 5000 (BitVec.ofInt 32 (-50)) 4000) s0).readCsr 11).toInt = -50 := by decide +kernel

/-- Y11; BRINGUP's first packet. -/
theorem test_init :
    (after .init s0).returns = [.refused 0x02] ∧ (after .init ready).statusReg = 0x0901
      ∧ (after .init ready).txBuf = [(0, 1)] := by decide +kernel

/-- Y17, and `SHUTDOWN` after BRINGUP. -/
theorem test_shutdown : (after .shutdown s0).statusReg = 0 ∧ (after .shutdown up).statusReg = 0x0001 := by decide +kernel

/-- T10, T11. -/
theorem test_wtr_refused :
    (after (.wtr (pk [0x40, 0x01])) s0).err = 0x20 ∧ (after (.wtr (pk [0x40, 0x01])) s0).txBuf = []
      ∧ (after (.wtr (pk [0x40, 0x01])) up).log = [.err (.usageError 0x10)] := by decide +kernel

/-- T1 and T8, their first step. -/
theorem test_wtr_and_rd_start :
    (after (.wtr (pk [0x40, 0x01])) ready).wire = [.cs true] ∧ (after (.wtr (pk [0x40, 0x01])) ready).txBuf = [(0, 0x40), (1, 1)]
      ∧ (after .rd ready).statusReg = 0x1401 := by decide +kernel

/-- T12. -/
theorem test_gpe : (after .gpe up).statusReg = 0x000F ∧ (after .gpe (after .gpe up)).statusReg = 0x000F
    ∧ (after .gpe ready).statusReg = 0x0001 := by decide +kernel

/-- T13: `step xport`, then the arm delay (Y16). -/
theorem test_t_start :
    (after .tStart (after .gpe up)).statusReg = 0x1C07
      ∧ (after .tXfer (after .tStart (after .gpe up))).statusReg = 0x1D07 := by decide +kernel

theorem test_rda_wtra : (after .rda up).statusReg = 0x000F ∧ (after .wtra up).statusReg = 0x0017 := by decide +kernel

/-- A device's answer that comes next. -/
def answered (a : DevAnswer) (s : State) : State := { s with dev := [a] }

/-- T2: `dev fail -5`. -/
theorem test_t_xfer_fails :
    let t := after .tXfer (answered (.fail (BitVec.ofInt 31 (-5))) (at_ ready .syncWtr .wrCmd))
    t.xport.tRes.toInt = -5 ∧ t.xport.tstate = .complete ∧ t.wire.length = 2 := by decide +kernel

/-- T1: transfer 2, the toggle after it. -/
theorem test_t_xfer_status :
    let t := after .tXfer (answered (.ok (pk [0xAC, 0x27, 0x68, 0xD5, 0x99])) (at_ { ready with xport.tRes := 256 } .syncWtr .wrStatus))
    t.wire = [.rx 4 4, .cs false, .cs true] ∧ t.xport.tRes = 260
      ∧ t.txStatus = [(0, 0xAC), (1, 0x27), (2, 0x68), (3, 0xD5)] := by decide +kernel

/-- A write status in `tx_status`. -/
def withStatus (b0 b1 b2 b3 : Byte) (s : State) : State := { s with txStatus := Memory.load [b0, b1, b2, b3] }

/-- R144, T5. -/
theorem test_status_check :
    (after .statusCheck (withStatus 0xAC 0x27 0x68 0xD5 s0)).result = .flag true
      ∧ (after .statusCheck (withStatus 0xAC 0x27 0x68 0xD4 s0)).result = .flag false := by decide +kernel

/-- T5: the completion of a rejected write. -/
theorem test_t_complete_rejected :
    let t := after .tComplete { withStatus 0xAC 0x27 0x68 0xD4 (at_ ready .syncWtr .complete) with host := .wtr }
    t.log = [.err (.protocolRejection 0xD46827AC)] ∧ t.err = 0x02 ∧ t.host = .ready ∧ t.statusReg = 0x0001 := by decide +kernel

/-- T7: a failed transfer is tested before the status. -/
theorem test_t_complete_failed :
    let t := after .tComplete { (at_ { ready with xport.tRes := BitVec.ofInt 32 (-5) } .syncWtr .complete) with host := .wtr }
    t.log = [.err (.transportFailure (BitVec.ofInt 32 (-5)))] ∧ t.err = 0x01 := by decide +kernel

/-- A packet in `rx_buf`. -/
def received (l : List Byte) (s : State) : State := { s with rxBuf := Memory.load (pk l).toList }

/-- C4a, C4d. -/
theorem test_classify :
    (after .classify (received [0x20, 0x01] s0)).result = .pktClass .keyboard
      ∧ (after .classify (received [0x01, 0x20] s0)).result = .pktClass (.unknown 0x2001) := by decide +kernel

/-- C4b, C4c. -/
theorem test_classify_touch :
    (after .classify (received [0x20, 0x02] s0)).result = .pktClass .touchpad
      ∧ (after .classify (received [0x40, 0xD0] s0)).result = .pktClass .nothing := by decide +kernel

/-- C5. -/
theorem test_decode_kbd :
    (after .decodeKbd (received [0x20, 1, 0, 0, 0, 0, 0, 0, 0, 0, 0, 0x7F, 0, 0, 0, 0, 0, 2, 0, 4, 0, 0, 0, 0, 0, 0x80] s0)).result
      = .keyFrame { counter := 0x7F, modifiers := 2, keys := #v[4, 0, 0, 0, 0, 0], fn := true } := by decide +kernel

/-- C6, C7. -/
theorem test_decode_tp :
    (after .decodeTp (received ([0x20, 2] ++ List.replicate 15 0 ++ [1] ++ List.replicate 46 0
        ++ [0, 0, 0xE8, 3, 0xD0, 7, 0xFF, 0xFF, 0, 0x80, 0xFF, 0x7F, 0, 0, 0, 0, 0x64, 0]) s0)).result
      = .touchFrame { nFingers := 0, click := true
                      fingers := #v[{ noFinger with absX := 1000, absY := 2000, relX := BitVec.ofInt 32 (-1)
                                                    relY := BitVec.ofInt 32 (-32768), toolMajor := 32767, touchMajor := 100 },
                        noFinger, noFinger, noFinger, noFinger, noFinger] } := by decide +kernel

/-- `origin` of finger 1 (30_encoding.md R101: `FO_ORIGIN` 0 in the record at 64 + 30). -/
theorem test_decode_tp_origin :
    (touchFrameOf tv (Memory.load (List.replicate 94 0 ++ [0xFE, 0xFF]))).fingers[1] = { noFinger with origin := BitVec.ofInt 32 (-2) } := by
  decide +kernel

/-- C1c, C1j. -/
theorem test_crc16 :
    (after (.crc16 [0x01]) s0).result = .crc 0xC0C1
      ∧ (after (.crc16 [0xA0, 0xA1, 0xA2, 0x00, 0xA4, 0xA5, 0xA6, 0xA7, 0xA8, 0x02]) s0).result = .crc 0xE340 := by decide +kernel

/-- C1h, C1i. -/
theorem test_crc16_long :
    (after (.crc16 [0x31, 0x32, 0x33, 0x34, 0x35, 0x36, 0x37, 0x38, 0x39]) s0).result = .crc 0xBB3D
      ∧ (after (.crc16 [0, 0, 0, 0, 0, 0, 0, 0, 0, 2]) s0).result = .crc 0xC181 := by decide +kernel

/-- The template `@T`. -/
def tvT : Params :=
  { tv with ledTemplate := pk [0x40, 1, 0, 0, 0, 0, 0, 0, 0xA0, 0xA1, 0xA2, 0xA3, 0xA4, 0xA5, 0xA6, 0xA7, 0xA8, 0xA9, 0xEE, 0xEE, 0x55] }

/-- C2k. -/
theorem test_build_led :
    Memory.bytes (after (.buildLed 7 false) { s0 with par := tvT }).txBuf 0 21
      = [0x40, 1, 0, 0, 0, 0, 0, 0, 0xA0, 0xA1, 0xA2, 7, 0xA4, 0xA5, 0xA6, 0xA7, 0xA8, 0, 0xB7, 0xE2, 0x55] := by decide +kernel

/-- C3: a bit of byte 8 flipped, and of byte 20. -/
theorem test_crc_check :
    let t := after (.buildLed 7 false) { s0 with par := tvT }
    (after .crcCheck t).result = .flag true
      ∧ (after .crcCheck { t with txBuf := Memory.put t.txBuf 8 0xA1 }).result = .flag false
      ∧ (after .crcCheck { t with txBuf := Memory.put t.txBuf 20 0x54 }).result = .flag true := by decide +kernel

/-- A keyboard frame with the given scancodes, Fn bit and modifiers. -/
def keysOf (a b c d e g : Byte) (fn : Bool) (m : Byte) : KeyboardFrame :=
  { counter := 0, modifiers := m, keys := #v[a, b, c, d, e, g], fn := fn }

/-- K1 (d): the key that moved to slot 0 is not released; K2 (b): the modifiers. -/
theorem test_kbd_apply :
    (after (.kbdApply (keysOf 2 0 0 0 0 0 false 0x81)) { s0 with kbd.lastKeys := #v[1, 2, 0, 0, 0, 0] }).events
      = [.key 30 false, .key 48 true, .key 29 true, .key 42 false, .key 56 false, .key 125 false, .key 97 false, .key 54 false,
         .key 100 false, .key 126 true] := by decide +kernel

/-- K4b (c): `fkeys-last` with Fn held; a scancode outside the table. -/
theorem test_kbd_apply_fn :
    let t := after (.kbdApply (keysOf 3 8 0 0 0 0 true 0)) { s0 with tunables := 1 }
    t.events.head? = some (.key 59 true) ∧ t.events.getLast? = some (.key 464 true)
      ∧ t.kbd.lastKeysFn = #v[true, false, false, false, false, false] ∧ t.log = [.err (.boundsViolation 8)]
      ∧ t.err = 0x10 := by decide +kernel

/-- K4b, K4c. -/
theorem test_code_to_key :
    (after (.codeToKey 3 false) { s0 with tunables := 1 }).result = .key 224
      ∧ (after (.codeToKey 3 false) { s0 with tunables := 2 }).result = .key 59
      ∧ (after (.codeToKey 3 true) { s0 with tunables := 2 }).result = .key 224 := by decide +kernel

/-- K5, K6: a key without the flag in modes `disabled` and `fkeys-first`; the ISO swap. -/
theorem test_code_to_key_iso :
    (after (.codeToKey 6 true) s0).result = .key 103 ∧ (after (.codeToKey 6 true) { s0 with tunables := 2 }).result = .key 104
      ∧ (after (.codeToKey 4 false) { s0 with tunables := 4 }).result = .key 86
      ∧ (after (.codeToKey 5 false) { s0 with tunables := 4 }).result = .key 41 := by decide +kernel

/-- `s` with the given calibration sum of Y and the given active slots. -/
def tracking (yMax : Word32) (a b : Option (Int × Int)) (s : State) : State :=
  let g : Option (Int × Int) → Slot := fun o => match o with
    | some (x, y) => { active := true, x := BitVec.ofInt 32 x, y := BitVec.ofInt 32 y }
    | none => { active := false, x := 0, y := 0 }
  { s with cal := { xMin := 0, xMax := 0, yMin := 0, yMax := yMax }
           slots := #v[g a, g b, g none, g none, g none, g none] }

/-- P3 (b). -/
theorem test_tp_apply :
    (after (.tpApply (frameOf [(905, 102, 10)])) (tracking 5000 (some (100, 4900)) (some (900, 4900)) s0)).events
      = [.finger 1 905 4898 20 0 0 0 16384, .slotReleased 0, .frameSync, .click false] := by decide +kernel

/-- P8 (a): slot 1 goes first, to finger 0. -/
theorem test_tp_apply_order :
    let t := after (.tpApply (frameOf [(0, 0, 1), (0, 0, 1)])) (tracking 0 (some (3, -4)) (some (0, -3)) s0)
    t.events.head? = some (.finger 1 0 0 2 0 0 0 16384) ∧ t.slots[0] = { active := true, x := 0, y := 0 } := by decide +kernel

/-- P5: a negative touch-major is present. -/
theorem test_tp_filter :
    (after (.tpFilter (frameOf [(0, 0, 0), (100, 100, 10), (0, 0, 0), (0, 0, 0), (900, 100, -3)])) s0).result
      = .fingers [1, 4] := by decide +kernel

/-- P11: `y = -32768 + 32767 - (-32768)`. -/
theorem test_tp_xform :
    (after (.tpXform { noFinger with absX := BitVec.ofInt 32 (-32768), absY := BitVec.ofInt 32 (-32768) })
      { s0 with cal := { xMin := 0, xMax := 0, yMin := BitVec.ofInt 32 (-32768), yMax := 32767 } }).result
      = .pos { x := BitVec.ofInt 32 (-32768), y := 32767 } := by decide +kernel

/-- P6 and P7: the greedy choice, and the tie to the lower slot. -/
theorem test_tp_assign :
    (after (.tpAssign [{ x := 6, y := 0 }, { x := 14, y := 0 }]) (tracking 0 (some (0, 0)) (some (10, 0)) s0)).result
        = .assignment [1, 0] []
      ∧ (after (.tpAssign [{ x := 5, y := 0 }]) (tracking 0 (some (0, 0)) (some (10, 0)) s0)).result
        = .assignment [0] [1] := by decide +kernel

/-- A finger without a slot gets the least free one. -/
theorem test_tp_assign_fresh :
    (after (.tpAssign [{ x := 90, y := 0 }, { x := 10, y := 0 }, { x := 80, y := 0 }])
      (tracking 0 none (some (10, 0)) s0)).result = .assignment [0, 1, 2] [] := by decide +kernel

/-- P11: the record's numbers; P3: releases before the frame's end. -/
theorem test_tp_emit :
    (after (.tpEmit { nFingers := 0, click := true
                      fingers := #v[{ noFinger with touchMajor := BitVec.ofInt 32 (-32768), touchMinor := 32767
                                                    toolMajor := BitVec.ofInt 32 (-1), orientation := BitVec.ofInt 32 (-32768) },
                        noFinger, noFinger, noFinger, noFinger, noFinger] }
        [{ finger := 0, pos := { x := 1, y := 2 }, slot := 5 }] #v[true, false, false, true, false, false]) s0).events
      = [.finger 5 1 2 (BitVec.ofInt 32 (-65536)) 65534 (BitVec.ofInt 32 (-2)) 0 49152, .slotReleased 0, .slotReleased 3,
         .frameSync, .click true] := by decide +kernel

/-- Program 3: the first `led on`; L1; Y10. -/
theorem test_led_request :
    (after (.ledRequest true) up).statusReg = 0x00F7 ∧ (after (.ledRequest false) up).statusReg = 0x0007
      ∧ (after (.ledRequest true) s0).err = 0x20 ∧ (after (.ledRequest true) s0).led.want = false := by decide +kernel

/-- L10: the sequence number wraps; Program 3: the command's bytes 8 to 19. -/
theorem test_led_send :
    (after .ledSend { up with led.seq := 255 }).led.seq = 0
      ∧ Memory.bytes (after .ledSend { up with led.want := true }).txBuf 8 12 = [0, 0, 0, 0, 0, 0, 0, 0, 0, 2, 0x81, 0xC1] := by
  decide +kernel

/-- Program 3's `step complete`; L9: nothing new after `SHUTDOWN`. -/
theorem test_led_complete :
    let s := { up with led := { want := false, sent := true, inflight := true, seq := 1 } }
    (after (.ledComplete .ok) s).led = { want := false, sent := false, inflight := true, seq := 2 }
      ∧ (after (.ledComplete .failTransport) { s with initDone := false }).statusReg = 0x0085 := by decide +kernel

/-- Y14, and the nothing packet of T12. -/
theorem test_dispatch :
    (after .dispatch (received [0xFF, 0xFF] up)).log = [.err (.unrecognizedPacket 0xFFFF)]
      ∧ (after .dispatch (received [0x40, 0xD0] up)).log = [] := by decide +kernel

/-- Y15, Y16. -/
theorem test_rd_complete :
    (after (.rdComplete .failTransport) (received [0x20, 1] up)).events = []
      ∧ (after (.rdComplete .ok) (received [0x20, 1] up)).events.length = 8 := by decide +kernel

theorem test_nop : (after .nop up).statusReg = 0x0007 ∧ (after .nop up).log = [] := by decide +kernel

/-- The rows of format PKT: Program 1's `@K1`, Program 2's click. -/
theorem test_packet_rows :
    (after (.pktKeyboard (bytesAt ([0x20, 1] ++ List.replicate 15 0 ++ [2, 0, 3]) 2 254)) { up with tunables := 1 }).events.head?
        = some (.key 224 true)
      ∧ (after (.pktTouchpad (bytesAt ([0x20, 2] ++ List.replicate 15 0 ++ [1]) 2 254)) up).events = [.frameSync, .click true]
      ∧ (after (.pktNothing (Vector.replicate 254 7)) up).events = [] := by decide +kernel

/-- The rows STATUS32 and LEDVAL8. -/
theorem test_status_and_value_rows :
    (after .statusAccept up).txStatus = [(0, 0xAC), (1, 0x27), (2, 0x68), (3, 0xD5)]
      ∧ (after (.ledcmdVal true) up).txBuf = [(17, 2)]
      ∧ (after (.ledcmdVal false) { up with txBuf := [(16, 1), (17, 2)] }).txBuf = [(16, 1)] := by decide +kernel

/-- Every row of the table runs as the first instruction after reset; here one of each format. -/
theorem test_runs_after_reset :
    goesOn (step (State.reset.withFetchWord 16 0x0011)) = true ∧ goesOn (step (State.reset.withFetchWord 8 0x15)) = true
      ∧ goesOn (step (State.reset.withFetchWord 16 0xD040)) = true ∧ goesOn (step (State.reset.withFetchWord 32 0xD56827AC)) = true
      ∧ goesOn (step (State.reset.withFetchWord 8 0x02)) = true := by decide +kernel

/-! ## Witnesses: states and operands that meet the hypotheses of the statements

One theorem for each statement with hypotheses, by its name; one conjunct for each clause, at the ends of its ranges. -/

/-- A read exchange half done. -/
def busy : State := at_ { ready with host := .rd } .syncRd .rdData

theorem witness_ResetInputRestoresTheTable :
    paramsWf busy.par = true ∧ { busy with stim := [.reset] }.stim = .reset :: [] := by decide +kernel

theorem witness_StepRunsDecodedInstruction :
    (paramsWf up.par = true ∧ portClosed .op [0x15] up = false ∧ decode up.par.tags .op [0x15] = .ok .tStart)
    ∧ (portClosed .host [0x50, 1] busy = false ∧ decode busy.par.tags .host [0x50, 1] = .ok (.ledRequest true))
    ∧ (portClosed .packet [0x40, 0xD0] busy = false
      ∧ decode busy.par.tags .packet [0x40, 0xD0] = .ok (.pktNothing (bytesAt [0x40, 0xD0] 2 254))) :=
  ⟨⟨by decide, by decide, rfl⟩, ⟨by decide, rfl⟩, by decide, rfl⟩

theorem witness_WaitingChangesNothing :
    (paramsWf s0.par = true ∧ s0.stim = []) ∧ ({ s0 with stim := [.dev (.fail 5)] }.stim = .dev (.fail 5) :: [])
    ∧ (busy.host ≠ .ready ∧ byteAt [0x51] 0 ≠ 0x50) ∧ (busy.dev = [] ∧ busy.xport.tstate ≠ .rdArm)
    ∧ (s0.xport.tstate = .idle) ∧ ((at_ ready .asyncRd .complete).xport.tstate = .complete)
    ∧ (busy.xport.tstate ≠ .complete) := by decide +kernel

theorem witness_ReservedHostWordRaisesUsageError :
    (paramsWf ready.par = true ∧ ready.host = .ready) ∧ (busy.host ≠ .ready ∧ byteAt [0x50, 0x02] 0 = 0x50)
    ∧ hostWordDefined 0x06 0 = false ∧ hostWordDefined 0x00 1 = false ∧ hostWordDefined 0x04 0x08 = false
    ∧ hostWordDefined 0x50 0x02 = false ∧ hostWordDefined 0xFF 0xFF = false := by decide +kernel

/-- Each condition fails by one in the first clause; the last record ends with the buffer in the second. -/
theorem witness_OffsetsCheckedOnParameters :
    (¬ 256 ≤ 255) ∧ (¬ 251 + 5 ≤ 255) ∧ (¬ 77 + 6 * 30 ≤ 256) ∧ (¬ 29 + 2 ≤ 30)
    ∧ (let p : Params := { tv with tpOffFingers := 76, fo := { tv.fo with pressure := 28 } }
       offsetsFit p = true ∧ 28 ∈ fingerOffsetList p.fo ∧ p.tpOffFingers + 5 * p.fingerStride + 28 + 2 = 256)
    ∧ offsetsFit { tv with kbdOffCounter := 256 } = false ∧ offsetsFit { tv with kbdOffKeys := 251 } = false
    ∧ offsetsFit { tv with tpOffFingers := 77 } = false
    ∧ offsetsFit { tv with fo := { tv.fo with pressure := 29 } } = false
    ∧ offsetsFit { tv with fo := { tv.fo with origin := 29 } } = false := by decide +kernel

theorem witness_DecodeInvertsEncode :
    tagsDistinct tv.tags = true ∧ Instr.wellFormed (.rdComplete .failTransport) = true
    ∧ Instr.wellFormed (.crc16 []) = true ∧ crcLengthOk 65535 = true
    ∧ Instr.wellFormed (.tpAssign (List.replicate 6 { x := 0, y := 0 })) = true
    ∧ Instr.wellFormed (.tpEmit (frameOf []) (List.replicate 6 { finger := 5, pos := { x := 0, y := 0 }, slot := 5 })
        (Vector.replicate 6 true)) = true := by decide +kernel

theorem witness_DecodedInstructionBelongsToPort :
    decode tv.tags .host [0x11] = .ok .rd ∧ decode tv.tags .op [0x07, 1] = .ok (.rdComplete .failTransport)
    ∧ decode tv.tags .packet [0x40, 0xD0] = .ok (.pktNothing (bytesAt [0x40, 0xD0] 2 254))
    ∧ decode tv.tags .status [0xAC, 0x27, 0x68, 0xD5] = .ok .statusAccept
    ∧ decode tv.tags .ledVal [2] = .ok (.ledcmdVal true) :=
  ⟨rfl, rfl, rfl, rfl, rfl⟩

/-- The configuration of vector Y1, and with entry 0 or entry 7 absent. -/
def goodCfg : Vector CfgEntry 8 := cfg { present := 1, value := 8 } { present := 1, value := 10 }

theorem witness_CfgLoadStoresEightValues :
    s0.cfgValid = false ∧ (∀ i : Fin 8, goodCfg[i].present ≠ 0) ∧ goodCfg[1].value = 8 := by decide +kernel

theorem witness_CfgLoadRefusedInOrder :
    (ready.cfgValid = true)
    ∧ (s0.cfgValid = false ∧ (goodCfg.set 0 { present := 0, value := 8 })[(0 : Fin 8)].present = 0
      ∧ (∀ j : Fin 8, j < 0 → (goodCfg.set 0 { present := 0, value := 8 })[j].present ≠ 0))
    ∧ ((goodCfg.set 7 { present := 0, value := 8 })[(7 : Fin 8)].present = 0
      ∧ (∀ j : Fin 8, j < 7 → (goodCfg.set 7 { present := 0, value := 8 })[j].present ≠ 0))
    ∧ ((∀ i : Fin 8, (goodCfg.set 1 { present := 1, value := 9 })[i].present ≠ 0)
      ∧ (goodCfg.set 1 { present := 1, value := 9 })[1].value ≠ 8) := by decide +kernel

theorem witness_SetTunablesWritesCsr8 : (0 : BitVec 2) ≠ 3 ∧ (2 : BitVec 2) ≠ 3 ∧ (3 : BitVec 2) = 3 := by decide

/-- The channel and the host are free, the configuration loaded. -/
def free (s : State) : Prop :=
  s.cfgValid = true ∧ s.gpeArmed = false ∧ s.initDone = false ∧ s.xport.tstate = .idle ∧ s.xport.rdPending = false
    ∧ s.xport.wrPending = false ∧ s.led.inflight = false

theorem witness_InitStartsFirstPacket :
    free ready ∧ ready.par.initPackets = pk [1] :: [pk [2]]
    ∧ free { ready with par.initPackets := [] } ∧ { ready with par.initPackets := [] }.par.initPackets = [] := by
  refine ⟨?_, rfl, ?_, rfl⟩ <;> (unfold free; decide)

theorem witness_BlockingCommandRefusedOutsideWindow : ¬ free s0 ∧ ¬ free up ∧ ¬ free busy := by
  unfold free; decide

theorem witness_DispatchFollowsTag :
    (offsetsFit up.par = true ∧ tagsDistinct up.par.tags = true)
    ∧ (0xD040 : Word16) = (received [0x40, 0xD0] up).rxBuf.get 1 ++ (received [0x40, 0xD0] up).rxBuf.get 0
    ∧ (0x0120 : Word16) = (received [0x20, 1] up).rxBuf.get 1 ++ (received [0x20, 1] up).rxBuf.get 0
    ∧ (0x0220 : Word16) = (received [0x20, 2] up).rxBuf.get 1 ++ (received [0x20, 2] up).rxBuf.get 0
    ∧ (0xD040 : Word16) = up.par.tags.nothing ∧ (0x0120 : Word16) = up.par.tags.keyboard ∧ (0x0220 : Word16) = up.par.tags.touchpad
    ∧ (0x0000 : Word16) ≠ up.par.tags.nothing := by decide +kernel

theorem witness_ClassifyReadsTag :
    tagsDistinct s0.par.tags = true
    ∧ (0x0121 : Word16) = (received [0x21, 1] s0).rxBuf.get 1 ++ (received [0x21, 1] s0).rxBuf.get 0 := by decide +kernel

theorem witness_DecodeKbdReadsFields : offsetsFit s0.par = true := by decide

theorem witness_DecodeTpReadsFields : offsetsFit s0.par = true ∧ offsetsFit Config.params = true := by decide

theorem witness_CrcCheckAfterBuildLed : exec (.buildLed 7 true) s0 = .next (after (.buildLed 7 true) s0) := rfl

theorem witness_CodeToKeyTranslates :
    ((1 : Byte) ≠ 0 ∧ (1 : Byte).toNat < nScan s0.par) ∧ ((7 : Byte) ≠ 0 ∧ (7 : Byte).toNat < nScan s0.par)
    ∧ (0 : Byte) = 0 ∧ nScan s0.par ≤ (8 : Byte).toNat ∧ nScan s0.par ≤ (255 : Byte).toNat := by decide

theorem witness_KbdEventCountAndFixedPoint :
    let f := keysOf 1 2 0 0 0 0 true 0x81
    exec (.kbdApply f) s0 = .next (after (.kbdApply f) s0)
      ∧ exec (.kbdApply f) (after (.kbdApply f) s0) = .next (after (.kbdApply f) (after (.kbdApply f) s0)) := ⟨rfl, rfl⟩

theorem witness_TpXformFlipsY :
    let s := tracking (2 ^ 30 - 1) none none s0
    s.cal.yMin.toInt + s.cal.yMax.toInt < 2 ^ 30 ∧ -2 ^ 30 < s.cal.yMin.toInt + s.cal.yMax.toInt
      ∧ -32768 ≤ (BitVec.ofInt 32 (-32768)).toInt ∧ (BitVec.ofInt 32 (-32768)).toInt ≤ 32767 := by decide +kernel

theorem witness_TpAssignIsGreedy :
    ([] : List Pos).length ≤ 6 ∧ (List.replicate 6 ({ x := 0, y := 0 } : Pos)).length ≤ 6 := by decide

theorem witness_TouchAssignmentIsStable :
    let f := frameOf [(100, 100, 10), (900, 100, 10)]
    (touchPositions s0.cal f).Nodup ∧ exec (.tpApply f) s0 = .next (after (.tpApply f) s0) := ⟨by decide +kernel, rfl⟩

/-- A command in flight that carried `on`. -/
def flying (on : Bool) : State := { up with led := { want := on, sent := on, inflight := true, seq := 1 } }

theorem witness_LedRequestSendsOnceNeeded :
    (up.initDone = true ∧ false = up.led.sent) ∧ ((flying false).initDone = true ∧ (flying false).led.inflight = true)
    ∧ (true ≠ up.led.sent ∧ up.led.inflight = false) ∧ s0.initDone = false := by decide

theorem witness_LedCompleteRechecks :
    ((flying true).led.want = (flying true).led.sent) ∧ ({ flying true with initDone := false }.initDone = false)
    ∧ ({ flying true with led.want := false }.led.want ≠ (flying true).led.sent ∧ (flying true).initDone = true) := by decide

theorem witness_TwoRequestsOneSend (on : Bool) :
    let s1 := after (.ledRequest true) (flying on)
    let s2 := after (.ledRequest true) s1
    (flying on).initDone = true ∧ (flying on).led.inflight = true ∧ (flying on).led.sent = on
      ∧ exec (.ledRequest true) (flying on) = .next s1 ∧ exec (.ledRequest true) s1 = .next s2
      ∧ exec (.ledComplete .ok) s2 = .next (after (.ledComplete .ok) s2) := ⟨rfl, rfl, rfl, rfl, rfl, rfl⟩

theorem witness_WtrAndRdStartExchange : free ready := by unfold free; decide

/-- The four clauses; in the third both requests are pending. -/
theorem witness_TStartStartsPendingExchange :
    ((after .gpe up).xport.tstate = .idle ∧ (after .gpe up).xport.rdPending = true ∧ (after .gpe up).xport.wrPending = false)
    ∧ ((after .wtra up).xport.rdPending = false ∧ (after .wtra up).xport.wrPending = true)
    ∧ ((after .wtra (after .gpe up)).xport.rdPending = true ∧ (after .wtra (after .gpe up)).xport.wrPending = true)
    ∧ busy.xport.tstate ≠ .idle ∧ (up.xport.rdPending = false ∧ up.xport.wrPending = false) := by decide

theorem witness_TXferMovesOneTransfer :
    (at_ up .asyncRd .rdArm).xport.tstate = .rdArm
    ∧ (answered (.ok (pk [1])) (at_ up .asyncWtr .wrCmd)).dev = .ok (pk [1]) :: []
    ∧ (at_ up .asyncWtr .wrCmd).xport.tstate = .wrCmd ∧ (at_ up .asyncWtr .wrStatus).xport.tstate = .wrStatus
    ∧ (at_ up .asyncWtr .wrResp).xport.tstate = .wrResp ∧ busy.xport.tstate = .rdData :=
  ⟨rfl, rfl, rfl, rfl, rfl, rfl⟩

/-- The least and the greatest negative result. -/
theorem witness_TXferFailureEndsExchange :
    (answered (.fail 0) busy).dev = .fail 0 :: [] ∧ (1#1 ++ (0 : BitVec 31)).toInt = -2147483648
    ∧ (1#1 ++ (0x7FFFFFFF : BitVec 31)).toInt = -1 := by decide +kernel

/-- A completed write with an accepted status. -/
def written (h : HostCont) (x : TExch) : State :=
  { withStatus 0xAC 0x27 0x68 0xD5 (at_ { ready with xport.tRes := 516 } x .complete) with host := h }

theorem verdict_ok (h : HostCont) (x : TExch) : WriteVerdict (written h x) .ok (written h x) :=
  .inr (.inr ⟨by show 0 ≤ (516 : Word32).toInt; decide, by rfl, rfl, rfl⟩)

theorem witness_TCompleteEndsWrite :
    ((written .wtr .syncWtr).xport.tstate = .complete ∧ (written .wtr .syncWtr).xport.texch = .syncWtr
      ∧ (written .wtr .syncWtr).host = .wtr ∧ WriteVerdict (written .wtr .syncWtr) .ok (written .wtr .syncWtr))
    ∧ ((written .ready .asyncWtr).xport.texch = .asyncWtr
      ∧ WriteVerdict (written .ready .asyncWtr) .ok (written .ready .asyncWtr)) :=
  ⟨⟨rfl, rfl, rfl, verdict_ok _ _⟩, rfl, verdict_ok _ _⟩

/-- A completed write with the status of vector T5, and a failed one with the result -1: the other two verdicts. -/
theorem witness_verdicts :
    let bad := withStatus 0xAC 0x27 0x68 0xD4 (written (.init 0) .syncWtr)
    let failed := { written (.init 0) .syncWtr with xport.tRes := -1 }
    WriteVerdict bad .failProtocol (bad.raise (.protocolRejection 0xD46827AC))
      ∧ WriteVerdict failed .failTransport (failed.raise (.transportFailure (-1))) :=
  ⟨.inr (.inl ⟨by decide, by decide, rfl, by rfl⟩), .inl ⟨by decide, rfl, rfl⟩⟩

theorem witness_TCompleteContinuesInit :
    let s := written (.init 0) .syncWtr
    let e := written (.init 1) .syncWtr
    (s.xport.tstate = .complete ∧ s.xport.texch = .syncWtr ∧ s.host = .init 0 ∧ WriteVerdict s .ok s
      ∧ s.par.initPackets[0 + 1]? = some (pk [2]))
    ∧ (e.host = .init 1 ∧ WriteVerdict e .ok e ∧ e.par.initPackets.length ≤ 1 + 1) :=
  ⟨⟨rfl, rfl, rfl, verdict_ok _ _, rfl⟩, rfl, verdict_ok _ _, by decide⟩

theorem witness_TCompleteEndsRead :
    let s := at_ { ready with host := .rd } .syncRd .complete
    let a := at_ up .asyncRd .complete
    (s.xport.tstate = .complete ∧ offsetsFit s.par = true ∧ s.xport.texch = .syncRd ∧ ReadVerdict s .ok s)
    ∧ (a.xport.texch = .asyncRd ∧ ReadVerdict a .ok a) :=
  ⟨⟨rfl, by decide, rfl, .inr ⟨by decide, rfl, rfl⟩⟩, rfl, .inr ⟨by decide, rfl, rfl⟩⟩

/-- Vector T1 before its command, and vector T12 before its trigger. -/
def startWriteRun : State :=
  { ready with dev := [.ok (pk []), .ok (pk [0xAC, 0x27, 0x68, 0xD5]), .ok (pk [])]
               stim := [hostItem (0x10 :: 0x00 :: (pk [0x40, 1]).toList), .item .op [0x16], .item .op [0x16], .item .op [0x16],
                 .item .op [0x17]] }

def startReadRun : State :=
  { up with dev := [.ok (pk [0x40, 0xD0])]
            stim := [.item .op [0x06], .item .op [0x15], .item .op [0x16], .item .op [0x16], .item .op [0x17]] }

theorem witness_ExchangesRunWhole :
    (paramsWf startWriteRun.par = true ∧ free startWriteRun ∧ startWriteRun.host = .ready
      ∧ startWriteRun.stim = .item .host (0x10 :: 0x00 :: (pk [0x40, 1]).toList) :: .item .op [0x16] :: .item .op [0x16]
          :: .item .op [0x16] :: .item .op [0x17] :: []
      ∧ startWriteRun.dev = .ok (pk []) :: .ok (pk [0xAC, 0x27, 0x68, 0xD5]) :: .ok (pk []) :: [])
    ∧ (paramsWf startReadRun.par = true ∧ startReadRun.gpeArmed = true ∧ startReadRun.xport.tstate = .idle
      ∧ startReadRun.xport.wrPending = false
      ∧ startReadRun.stim = .item .op [0x06] :: .item .op [0x15] :: .item .op [0x16] :: .item .op [0x16] :: .item .op [0x17] :: []
      ∧ startReadRun.dev = .ok (pk [0x40, 0xD0]) :: []) :=
  ⟨⟨by decide, by unfold free; decide, rfl, rfl, rfl⟩, by decide, rfl, rfl, rfl, rfl, rfl⟩

theorem witness_PacketRowsDispatch : offsetsFit s0.par = true ∧ tagsDistinct s0.par.tags = true := by decide

theorem witness_StatusAndLedValueRows : Memory.wf packetLen s0.txBuf = true ∧ Memory.wf packetLen [(17, 2)] = true := by decide

/-- The first and the last bytes of a buffer of 256. -/
theorem witness_MemWriteThenRead :
    0 + 1 ≤ 256 ∧ 248 + 8 ≤ 256 ∧ Memory.wf 256 [(0, 1), (255, 255)] = true := by decide

/-- A consistent state whose next step goes on: the transfer of a read. -/
def moving : State := { answered (.ok (pk [0x20, 1])) busy with stim := [.item .op [0x16]] }

theorem witness_ConsistentKeptByStep : Consistent moving ∧ goesOn (step moving) = true := by decide +kernel

theorem witness_PhasesInFixedOrder :
    Consistent moving ∧ notReset moving = true ∧ goesOn (step moving) = true ∧ moving.xport.tstate ≠ .idle
      ∧ moving.xport.tstate ≠ .complete ∧ (stepped moving).xport.tstate = .complete := by decide +kernel

theorem reset_errLogged : ErrLogged s0 := by
  intro j
  constructor
  · intro h
    exact absurd h (by simp [s0, State.reset])
  · rintro ⟨e, he, _⟩
    exact absurd he (by simp [s0, State.reset])

theorem witness_ErrLoggedKeptByStep :
    ErrLogged { s0 with stim := [hostItem [0x09]] } ∧ goesOn (step { s0 with stim := [hostItem [0x09]] }) = true :=
  ⟨reset_errLogged, by decide +kernel⟩

/-- For the clauses: an error bit set, the configuration loaded; `INIT` ending; `SHUTDOWN` next. -/
theorem witness_RegistersChangeOnlyAsStated :
    (notReset { up with err := 1, stim := [hostItem [0x03]] } = true
      ∧ goesOn (step { up with err := 1, stim := [hostItem [0x03]] }) = true
      ∧ (stepped { up with err := 1, stim := [hostItem [0x03]] }).initDone = false)
    ∧ (stepped { written (.init 1) .syncWtr with stim := [.item .op [0x17]] }).initDone = true := by decide +kernel

theorem witness_StreamsOnlyGrow : goesOn (step moving) = true ∧ notReset moving = true := by decide +kernel

theorem witness_SyncExclusiveKeptByAgents :
    SyncExclusive moving ∧ moving.stim = .item .op [0x16] :: [] ∧ agentMove moving.par.tags (.item .op [0x16]) = true
      ∧ goesOn (step moving) = true ∧ moving.host ≠ .ready := by decide +kernel

/-- An LED command on the wire, its completion next. -/
def ledDone : State :=
  { flying false with xport := { (written .ready .asyncWtr).xport with texch := .asyncWtr }
                      led := { want := true, sent := false, inflight := true, seq := 1 }, stim := [.item .op [0x17]] }

theorem witness_LedConsistentKeptByAgents :
    LedConsistent ledDone ∧ ledDone.stim = .item .op [0x17] :: [] ∧ agentMove ledDone.par.tags (.item .op [0x17]) = true
      ∧ goesOn (step ledDone) = true ∧ (stepped ledDone).led.seq = 2 := by decide +kernel

theorem witness_LedConvergesWithoutShutdown :
    LedConsistent ledDone ∧ LedConverged ledDone ∧ agentMove ledDone.par.tags (.item .op [0x17]) = true ∧ ¬ ShutdownNext ledDone
      ∧ goesOn (step ledDone) = true := by
  refine ⟨by decide, by decide, by decide +kernel, ?_, by decide +kernel⟩
  rintro ⟨bs, rest, h, _⟩
  exact absurd h (by simp [ledDone])

/-- A completed read beside the command; and at the completion of the command's own exchange another agent's move, the request. -/
theorem witness_LedCommandStaysUntilCompleted :
    (let s := { at_ (flying false) .asyncRd .complete with stim := [.item .op [0x17]] }
     SyncExclusive s ∧ s.led.inflight = true ∧ s.stim = .item .op [0x17] :: [] ∧ Stim.item .op [0x17] ≠ .reset
      ∧ agentMove s.par.tags (.item .op [0x17]) = true ∧ s.xport.texch ≠ .asyncWtr ∧ goesOn (step s) = true)
    ∧ (let s := { ledDone with stim := [hostItem [0x50, 1]] }
       SyncExclusive s ∧ s.led.inflight = true ∧ s.stim = hostItem [0x50, 1] :: [] ∧ hostItem [0x50, 1] ≠ .reset
        ∧ agentMove s.par.tags (hostItem [0x50, 1]) = true ∧ s.xport.tstate = .complete ∧ s.xport.texch = .asyncWtr
        ∧ ¬ CompletionNext s ∧ goesOn (step s) = true) := by
  refine ⟨by decide +kernel, by decide, rfl, rfl, by decide, by decide +kernel, rfl, rfl, ?_, by decide +kernel⟩
  rintro ⟨p, bs, rest, h, hd⟩
  simp only [hostItem, List.cons.injEq, Stim.item.injEq] at h
  obtain ⟨⟨rfl, rfl⟩, -⟩ := h
  have e : decode tv.tags .host [0x50, 1] = .ok (.ledRequest true) := rfl
  exact absurd (e.symm.trans hd) (by simp)

end Sys2Proof.Tests
end

section
/-! The scope's statement (00_scope.md R9): a step of an open port runs the instruction its item decodes to. -/

namespace Sys2Proof.Machine

/-- Settles O3: the step takes the move from the schedule, and an open port runs what the item decodes to. The port and the decoder
read only the host register and the tags, which taking the move leaves as they are. -/
theorem stepRunsDecodedInstruction : Obligations.StepRunsDecodedInstruction := by
  intro s p bs rest i hwf hstim hopen hdec
  have hopen' : portClosed p bs { s with stim := rest } = false := hopen
  calc step s
      = runStim (.item p bs) { s with stim := rest } := step_cons hwf hstim
    _ = runItem p bs { s with stim := rest } := rfl
    _ = exec i { s with stim := rest } := runItem_ok hopen' hdec

end Sys2Proof.Machine
end

section
/-! What the decoder answers, whatever the bytes: an instruction of the port they came in at, or a rejection (30_encoding.md R90,
R106). -/

namespace Sys2Proof

/-- An answer of the decoder for the port `p`: an instruction of that port, or a rejection; a rejected status carries its four
bytes. -/
def FitsPort (p : Port) : Except Reject Instr → Prop
  | .ok i => portOfInstr i = p
  | .error (.statusMismatch bs) => bs.length = Machine.statusLen
  | .error _ => True

theorem FitsPort.ite {p : Port} {c : Prop} [Decidable c] {a b : Except Reject Instr} (ha : FitsPort p a) (hb : FitsPort p b) :
    FitsPort p (if c then a else b) := by
  split
  · exact ha
  · exact hb

theorem FitsPort.noArg {i : Instr} (op arg : Byte) (h : portOfInstr i = .host) : FitsPort .host (noArg op arg i) :=
  FitsPort.ite h trivial

theorem FitsPort.orBad {p : Port} (op : Byte) {o : Option Instr} (h : ∀ i, o = some i → portOfInstr i = p) :
    FitsPort p (orBad op o) := by
  cases o with
  | none => trivial
  | some i => exact h i rfl

theorem FitsPort.decodeOutcomeOp {p : Port} (op b : Byte) {mk : XferOutcome → Option Instr}
    (h : ∀ o i, mk o = some i → portOfInstr i = p) : FitsPort p (decodeOutcomeOp op mk b) := by
  refine FitsPort.orBad op fun i hi => ?_
  obtain ⟨o, -, hm⟩ := Option.bind_eq_some_iff.1 hi
  exact h o i hm

theorem decodeHost_fitsPort (bs : List Byte) : FitsPort .host (decodeHost bs) := by
  refine .ite (.noArg _ _ rfl) <| .ite (.noArg _ _ rfl) <| .ite (.noArg _ _ rfl) <| .ite (.noArg _ _ rfl) <| .ite ?_ <|
    .ite (.noArg _ _ rfl) <| .ite (.noArg _ _ rfl) <| .ite (.noArg _ _ rfl) <| .ite ?_ trivial
  · exact .ite rfl trivial
  · exact .ite rfl trivial

theorem portOfInstr_decodeTpAssign {bs : List Byte} {i : Instr} (h : decodeTpAssign bs = some i) : portOfInstr i = .op := by
  unfold decodeTpAssign at h
  split at h
  · cases h
    rfl
  · cases h

theorem portOfInstr_decodeTpEmit {bs : List Byte} {i : Instr} (h : decodeTpEmit bs = some i) : portOfInstr i = .op := by
  unfold decodeTpEmit at h
  split at h
  · obtain ⟨es, -, rfl⟩ := Option.map_eq_some_iff.1 h
    rfl
  · cases h

theorem decodeOp_fitsPort (bs : List Byte) : FitsPort .op (decodeOp bs) := by
  refine .ite rfl <| .ite ?rdComplete <| .ite rfl <| .ite rfl <| .ite rfl <| .ite rfl <| .ite rfl <| .ite rfl <| .ite rfl <|
    .ite rfl <| .ite rfl <| .ite rfl <| .ite rfl <| .ite rfl <| .ite rfl <| .ite rfl <| .ite rfl <| .ite rfl <| .ite rfl <|
    .ite rfl <| .ite ?tpAssign <| .ite ?tpEmit <| .ite rfl <| .ite ?ledComplete trivial
  case rdComplete =>
    refine .decodeOutcomeOp _ _ fun o i h => ?_
    split at h
    · cases h
    · cases h
      rfl
  case tpAssign => exact .orBad _ fun _ => portOfInstr_decodeTpAssign
  case tpEmit => exact .orBad _ fun _ => portOfInstr_decodeTpEmit
  case ledComplete =>
    refine .decodeOutcomeOp _ _ fun o i h => ?_
    cases h
    rfl

theorem decodePacket_fitsPort (t : Tags) (bs : List Byte) : FitsPort .packet (decodePacket t bs) :=
  .ite rfl <| .ite rfl <| .ite rfl trivial

theorem decodeStatus_fitsPort (bs : List Byte) : FitsPort .status (decodeStatus bs) :=
  .ite rfl (by simp [FitsPort, slice, Machine.statusLen])

theorem decodeLedVal_fitsPort (bs : List Byte) : FitsPort .ledVal (decodeLedVal bs) :=
  .ite rfl <| .ite rfl trivial

theorem decode_fitsPort (t : Tags) (p : Port) (bs : List Byte) : FitsPort p (decode t p bs) := by
  cases p
  · exact decodeHost_fitsPort bs
  · exact decodeOp_fitsPort bs
  · exact decodePacket_fitsPort t bs
  · exact decodeStatus_fitsPort bs
  · exact decodeLedVal_fitsPort bs

/-- The instruction that an item decodes to is one of the port's own format. -/
theorem portOfInstr_of_decode {t : Tags} {p : Port} {bs : List Byte} {i : Instr} (h : decode t p bs = .ok i) :
    portOfInstr i = p := by
  have := decode_fitsPort t p bs
  rwa [h] at this

/-- A status word that is not the accepted one is rejected with its four bytes. -/
theorem length_of_statusMismatch {t : Tags} {p : Port} {bs b : List Byte} (h : decode t p bs = .error (.statusMismatch b)) :
    b.length = Machine.statusLen := by
  have := decode_fitsPort t p bs
  rwa [h] at this

end Sys2Proof
end

section
/-! What the operations do to the streams, and the operations that leave the registers which steer the block alone
(10_state.md R45). -/

namespace Sys2Proof.Machine

/-! ## The streams grow -/

/-- From `s` to `t` the parameters stay and every stream grew at its end at most, the log with the `ERR` bits of its errors. -/
structure Grows (s t : State) : Prop where
  par : t.par = s.par
  errors : LogsErrors s t
  events : s.events <+: t.events
  wire : s.wire <+: t.wire
  returns : s.returns <+: t.returns

theorem Grows.of_eq {s t : State} (par : t.par = s.par) (log : t.log = s.log) (err : t.err = s.err) (events : t.events = s.events)
    (wire : t.wire = s.wire) (returns : t.returns = s.returns) : Grows s t :=
  ⟨par, .of_eq log err, events ▸ List.prefix_rfl, wire ▸ List.prefix_rfl, returns ▸ List.prefix_rfl⟩

theorem Grows.refl (s : State) : Grows s s := .of_eq rfl rfl rfl rfl rfl rfl

theorem Grows.trans {s t u : State} (h : Grows s t) (h' : Grows t u) : Grows s u :=
  ⟨h'.par.trans h.par, h.errors.trans h'.errors, h.events.trans h'.events, h.wire.trans h'.wire, h.returns.trans h'.returns⟩

theorem Grows.log {s t : State} (h : Grows s t) : s.log <+: t.log := by
  obtain ⟨ls, hl, -⟩ := h.errors
  exact ⟨ls, hl.symm⟩

theorem Grows.err {s t : State} (h : Grows s t) (j : Fin 6) (hj : s.err.getLsbD j.val = true) : t.err.getLsbD j.val = true := by
  obtain ⟨_, _, he⟩ := h.errors
  exact (he j).2 (.inl hj)

theorem Grows.wireOut (ws : List WireRec) (s : State) : Grows s (s.wireOut ws) :=
  ⟨rfl, .of_eq rfl rfl, List.prefix_rfl, List.prefix_append _ _, List.prefix_rfl⟩

theorem Grows.giveBack (r : HostRet) (s : State) : Grows s (s.giveBack r) :=
  ⟨rfl, .of_eq rfl rfl, List.prefix_rfl, List.prefix_rfl, List.prefix_append _ _⟩

theorem Grows.startExchange (x : TExch) (p : TState) (s : State) : Grows s (s.startExchange x p) :=
  Grows.trans (t := s.goExchange x p) (.of_eq rfl rfl rfl rfl rfl rfl) (.wireOut _ _)

theorem Grows.startSyncWrite (c : HostCont) (p : Packet) (s : State) : Grows s (s.startSyncWrite c p) :=
  ⟨rfl, .of_eq rfl rfl, List.prefix_rfl, List.prefix_append _ _, List.prefix_rfl⟩

theorem Grows.ledSend (s : State) : Grows s (ledSend s) := .of_eq rfl rfl rfl rfl rfl rfl

theorem Grows.initFrom (k : Nat) (s : State) : Grows s (initFrom k s) := by
  rcases initFrom_cases k s with ⟨p, -, e⟩ | ⟨-, e⟩ <;> rw [e]
  · exact .startSyncWrite _ p s
  · exact Grows.trans (t := s.setMode true) (.of_eq rfl rfl rfl rfl rfl rfl) (.giveBack _ _)

theorem Grows.transportTransfer (s : State) : Grows s (transportTransfer s) := by
  obtain ⟨ws, hw⟩ := transportTransfer_wire s
  refine ⟨?_, .of_eq ?_ ?_, ?_, hw ▸ List.prefix_append _ _, ?_⟩ <;> rw [transportTransfer_frame]

theorem Grows.startRead (s : State) : Grows s (startRead s) :=
  Grows.trans (t := s.setRdPending false) (.of_eq rfl rfl rfl rfl rfl rfl) (.startExchange _ _ _)

theorem Grows.startWrite (s : State) : Grows s (startWrite s) :=
  Grows.trans (t := s.setWrPending false) (.of_eq rfl rfl rfl rfl rfl rfl) (.startExchange _ _ _)

theorem Grows.transportStart (s : State) : Grows s (transportStart s) := by
  have drawn : Grows s s.drawn := .of_eq rfl rfl rfl rfl rfl rfl
  rcases transportStart_cases s with e | ⟨-, -, e | e⟩ | ⟨-, -, e | e⟩ <;> rw [e]
  · exact .refl s
  · exact .startRead s
  · exact drawn.trans (.startRead _)
  · exact .startWrite s
  · exact drawn.trans (.startWrite _)

/-! ## The registers that steer the block -/

/-- From `s` to `t` the streams grew at most, and the buffers, the configuration, the Transport, the LED registers, the mode flags
and the blocked host stay: what an error, an event or a value handed to the caller changes is none of these. -/
structure SameControl (s t : State) : Prop extends Grows s t where
  txBuf : t.txBuf = s.txBuf
  txStatus : t.txStatus = s.txStatus
  rxBuf : t.rxBuf = s.rxBuf
  spi : t.spi = s.spi
  cfgValid : t.cfgValid = s.cfgValid
  tunables : t.tunables = s.tunables
  xport : t.xport = s.xport
  led : t.led = s.led
  initDone : t.initDone = s.initDone
  gpeArmed : t.gpeArmed = s.gpeArmed
  host : t.host = s.host

theorem SameControl.refl (s : State) : SameControl s s := ⟨.refl s, rfl, rfl, rfl, rfl, rfl, rfl, rfl, rfl, rfl, rfl, rfl⟩

theorem SameControl.trans {s t u : State} (h : SameControl s t) (h' : SameControl t u) : SameControl s u :=
  ⟨h.toGrows.trans h'.toGrows, h'.txBuf.trans h.txBuf, h'.txStatus.trans h.txStatus, h'.rxBuf.trans h.rxBuf, h'.spi.trans h.spi,
    h'.cfgValid.trans h.cfgValid, h'.tunables.trans h.tunables, h'.xport.trans h.xport, h'.led.trans h.led,
    h'.initDone.trans h.initDone, h'.gpeArmed.trans h.gpeArmed, h'.host.trans h.host⟩

/-- An operation that changes the events, the log, `ERR`, the keyboard history and the slots, and nothing else. -/
theorem SameControl.of_frame {s t : State}
    (frame : t = { s with events := t.events, log := t.log, err := t.err, kbd := t.kbd, slots := t.slots })
    (errors : LogsErrors s t) (events : s.events <+: t.events) : SameControl s t := by
  refine ⟨⟨?_, errors, events, ?_, ?_⟩, ?_, ?_, ?_, ?_, ?_, ?_, ?_, ?_, ?_, ?_, ?_⟩ <;> rw [frame]

theorem SameControl.raise (e : ErrRec) (s : State) : SameControl s (s.raise e) :=
  .of_frame rfl (.raise e s) List.prefix_rfl

theorem SameControl.refuse (op : Byte) (s : State) : SameControl s (s.refuse op) :=
  ⟨⟨rfl, .refuse op s, List.prefix_rfl, List.prefix_rfl, List.prefix_append _ _⟩,
    rfl, rfl, rfl, rfl, rfl, rfl, rfl, rfl, rfl, rfl, rfl⟩

theorem SameControl.emit (es : List Event) (s : State) : SameControl s (s.emit es) :=
  .of_frame rfl (.of_eq rfl rfl) (List.prefix_append _ _)

theorem SameControl.setResult (r : OpResult) (s : State) : SameControl s (s.setResult r) :=
  ⟨.of_eq rfl rfl rfl rfl rfl rfl, rfl, rfl, rfl, rfl, rfl, rfl, rfl, rfl, rfl, rfl, rfl⟩

theorem SameControl.drawn (s : State) : SameControl s s.drawn :=
  ⟨.of_eq rfl rfl rfl rfl rfl rfl, rfl, rfl, rfl, rfl, rfl, rfl, rfl, rfl, rfl, rfl, rfl⟩

theorem SameControl.setCalibration (c : Calibration) (s : State) : SameControl s (s.setCalibration c) :=
  ⟨.of_eq rfl rfl rfl rfl rfl rfl, rfl, rfl, rfl, rfl, rfl, rfl, rfl, rfl, rfl, rfl, rfl⟩

theorem SameControl.queueAnswer (a : DevAnswer) (s : State) : SameControl s { s with dev := s.dev ++ [a] } :=
  ⟨.of_eq rfl rfl rfl rfl rfl rfl, rfl, rfl, rfl, rfl, rfl, rfl, rfl, rfl, rfl, rfl, rfl⟩

theorem SameControl.dropUnknown (tag : Word16) (s : State) : SameControl s (dropUnknown tag s) := by
  refine .of_frame (by rw [dropUnknown_frame]) (.dropUnknown tag s) ?_
  rw [dropUnknown_frame]

/-- The events of `KBD_APPLY` come after those before it: the releases, the presses, the modifiers and the Fn key (R207). -/
theorem kbdApply_events_prefix (f : KeyboardFrame) (s : State) : s.events <+: (kbdApply f s).events := by
  obtain ⟨b, hr, -⟩ := foldl_releaseSlot f six (by decide) s
  obtain ⟨b', hp, -⟩ := foldl_pressSlot f six (kbdReleases f s)
  have releases : s.events <+: (kbdReleases f s).events := by
    rw [kbdReleases, hr]
    exact List.prefix_append _ _
  have presses : (kbdReleases f s).events <+: (kbdPresses f (kbdReleases f s)).events := by
    rw [kbdPresses, hp]
    exact List.prefix_append _ _
  exact (releases.trans presses).trans (List.prefix_append _ _)

theorem SameControl.kbdApply (f : KeyboardFrame) (s : State) : SameControl s (kbdApply f s) :=
  .of_frame (by rw [kbdApply_frame]) (.kbdApply f s) (kbdApply_events_prefix f s)

theorem SameControl.tpApply (f : TouchpadFrame) (s : State) : SameControl s (tpApply f s) :=
  .of_frame (tpApply_frame f s) (.of_eq rfl rfl) (List.prefix_append _ _)

theorem SameControl.dispatchPacket (m : Memory) (s : State) : SameControl s (dispatchPacket m s) := by
  unfold Machine.dispatchPacket
  split
  · exact .refl s
  · exact .kbdApply _ s
  · exact .tpApply _ s
  · exact .dropUnknown _ s

theorem SameControl.rdComplete (o : XferOutcome) (s : State) : SameControl s (rdComplete o s) := by
  unfold Machine.rdComplete
  split
  · exact .dispatchPacket _ s
  · exact .refl s

theorem SameControl.raiseOutcome (o : XferOutcome) (s : State) : SameControl s (raiseOutcome o s) := by
  cases o
  · exact .refl s
  · exact .raise _ s
  · exact .raise _ s

/-! ## The LED queue's operations -/

theorem Grows.ledRequest (on : Bool) (s : State) : Grows s (ledRequest on s) := by
  have want : Grows s (s.setWant on) := .of_eq rfl rfl rfl rfl rfl rfl
  rcases ledRequest_cases on s with ⟨-, e⟩ | ⟨-, -, e⟩ | ⟨-, -, -, e⟩ <;> rw [e]
  · exact (SameControl.raise _ s).toGrows
  · exact want
  · exact want.trans (.ledSend _)

theorem Grows.ledComplete (o : XferOutcome) (s : State) : Grows s (ledComplete o s) := by
  have clear : Grows s s.clearInflight := .of_eq rfl rfl rfl rfl rfl rfl
  rcases ledComplete_cases o s with ⟨-, e⟩ | ⟨-, -, e⟩ <;> rw [e]
  · exact clear
  · exact clear.trans (.ledSend _)

/-! ## The completion step -/

theorem Grows.freeChannel (s : State) : Grows s (freeChannel s) := .of_eq rfl rfl rfl rfl rfl rfl

/-- What the completion step does (R143): errors and events first, then the channel is free, and at last the one thing the exchange
asks for: nothing, a return to the host, `INIT`'s next packet, or the LED handler. -/
theorem completeExchange_cases (s : State) :
    ∃ u : State, SameControl s u ∧
      (((s.xport.texch = .asyncRd ∨ s.xport.texch = .none) ∧ completeExchange s = freeChannel u)
        ∨ ((s.xport.texch = .syncWtr ∨ s.xport.texch = .syncRd) ∧ ∃ r, completeExchange s = (freeChannel u).giveBack r)
        ∨ (s.xport.texch = .syncWtr ∧ ∃ k, s.host = .init k ∧ completeExchange s = initFrom (k + 1) (freeChannel s))
        ∨ (s.xport.texch = .asyncWtr ∧ ∃ o, completeExchange s = ledComplete o (freeChannel u))) := by
  obtain ⟨syncWtr, syncRd, asyncRd, asyncWtr, none⟩ := completeExchange_eq s
  cases hx : s.xport.texch with
  | none => exact ⟨s, .refl s, .inl ⟨.inr rfl, none hx⟩⟩
  | syncRd => exact ⟨_, .raiseOutcome _ s, .inr (.inl ⟨.inr rfl, _, syncRd hx⟩)⟩
  | asyncRd => exact ⟨_, (SameControl.raiseOutcome _ s).trans (.rdComplete _ _), .inl ⟨.inl rfl, asyncRd hx⟩⟩
  | asyncWtr => exact ⟨_, .raiseOutcome _ s, .inr (.inr (.inr ⟨rfl, _, asyncWtr hx⟩))⟩
  | syncWtr =>
    have raised := SameControl.raiseOutcome (writeOutcome s) s
    refine ⟨_, raised, .inr ?_⟩
    rcases returnWrite_cases (writeOutcome s) (freeChannel (raiseOutcome (writeOutcome s) s))
      with ⟨k, -, -, e⟩ | ⟨k, hk, ok, e⟩ | ⟨-, e⟩
    · exact .inl ⟨.inl rfl, _, (syncWtr hx).trans e⟩
    · rw [ok] at e hk
      exact .inr (.inl ⟨rfl, k, hk, (ok ▸ syncWtr hx).trans e⟩)
    · exact .inl ⟨.inl rfl, _, (syncWtr hx).trans e⟩

theorem Grows.completeExchange (s : State) : Grows s (completeExchange s) := by
  obtain ⟨u, hu, h⟩ := completeExchange_cases s
  have freed : Grows s (Machine.freeChannel u) := hu.toGrows.trans (.freeChannel u)
  rcases h with ⟨-, e⟩ | ⟨-, r, e⟩ | ⟨-, k, -, e⟩ | ⟨-, o, e⟩ <;> rw [e]
  · exact freed
  · exact freed.trans (.giveBack r _)
  · exact (Grows.freeChannel s).trans (.initFrom _ _)
  · exact freed.trans (.ledComplete o _)

end Sys2Proof.Machine
end

section
/-! What one step can do, said once: an operation changes the streams alone, or it is one of those named by `Effect`. -/

namespace Sys2Proof.Machine

/-- What the operation `i` can make of the state when it goes on: either it leaves the registers that steer the block alone
(`aside`), or it is one of the operations that write them, under the condition it writes them. -/
inductive Effect (s : State) : Instr → State → Prop where
  | aside {i : Instr} {t : State} (same : SameControl s t) : Effect s i t
  | configured {entries : Vector CfgEntry 8} (v : SpiSettings) (fresh : s.cfgValid = false) :
      Effect s (.cfgLoad entries) (s.storeConfig v)
  | tuned {fnmode : BitVec 2} {iso : Bool} (legal : fnmode ≠ 3) :
      Effect s (.setTunables fnmode iso) (s.setTunablesReg (tunablesOf fnmode iso))
  | shutDown : Effect s .shutdown (s.setMode false)
  | initStarted (free : s.syncReady = true) : Effect s .init (initFrom 0 s)
  | writeStarted {tx : Packet} (free : s.syncReady = true) : Effect s (.wtr tx) (s.startSyncWrite .wtr tx)
  | readStarted (free : s.syncReady = true) : Effect s .rd { s.startExchange .syncRd .rdArm with host := .rd }
  | ledRequested {on : Bool} : Effect s (.ledRequest on) (ledRequest on s)
  | readRequested {i : Instr} : Effect s i (requestRead s)
  | writeRequested : Effect s .wtra (requestWrite s)
  | exchangeStarted : Effect s .tStart (transportStart s)
  | transferred : Effect s .tXfer (transportTransfer s)
  | completed (due : s.xport.tstate = .complete) : Effect s .tComplete (completeExchange s)
  | ledSent : Effect s .ledSend (ledSend s)
  | ledCompleted {o : XferOutcome} : Effect s (.ledComplete o) (ledComplete o s)
  | ledBuilt {n : Byte} {on : Bool} : Effect s (.buildLed n on) (s.buildLed n on)
  | ledValueSet {on : Bool} : Effect s (.ledcmdVal on) { s with txBuf := Memory.write s.txBuf 17 1 (ledValueByte on).toNat }
  | statusArrived {i : Instr} {bs : List Byte} (len : bs.length = statusLen) : Effect s i (receiveStatusWord bs s)

/-! ## The operations with two or more outcomes -/

theorem Effect.of_cfgLoad (entries : Vector CfgEntry 8) (s : State) : Effect s (.cfgLoad entries) (cfgLoad entries s) := by
  unfold cfgLoad
  split
  · exact .aside (.raise _ s)
  · rename_i hv
    split
    · exact .aside (.raise _ s)
    · split
      · exact .aside (.raise _ s)
      · exact .configured _ (Bool.eq_false_iff.2 hv)

theorem Effect.of_gpeTrigger (i : Instr) (s : State) : Effect s i (gpeTrigger s) := by
  unfold gpeTrigger
  split
  · exact .readRequested
  · exact .aside (.refl s)

/-- An `if` between two meanings that go on. -/
theorem Effect.of_ite {c : Prop} [Decidable c] {i : Instr} {s a b t : State}
    (h : (if c then Host.Outcome.next a else .next b : Host.Outcome State Fault Refusal) = .next t) (ha : c → Effect s i a)
    (hb : ¬ c → Effect s i b) : Effect s i t := by
  split at h
  · cases h
    exact ha ‹_›
  · cases h
    exact hb ‹_›

/-- A meaning that goes on only under a condition. -/
theorem Effect.of_guard {c : Prop} [Decidable c] {i : Instr} {s a t : State} {f : Fault}
    (h : (if c then Host.Outcome.next a else .fault f : Host.Outcome State Fault Refusal) = .next t) (ha : Effect s i a) :
    Effect s i t := by
  split at h
  · cases h
    exact ha
  · cases h

theorem Effect.of_exec {i : Instr} {s t : State} (h : exec i s = .next t) : Effect s i t := by
  cases i with
  | nop => cases h; exact .aside (.refl s)
  | cfgLoad entries => cases h; exact .of_cfgLoad entries s
  | init => exact .of_ite h .initStarted fun _ => .aside (.refuse _ s)
  | shutdown => cases h; exact .shutDown
  | setTunables fnmode iso => exact .of_ite h (fun _ => .aside (.raise _ s)) .tuned
  | setCal xMin xMax yMin yMax => cases h; exact .aside (.setCalibration _ s)
  | wtr tx => exact .of_ite h .writeStarted fun _ => .aside (.refuse _ s)
  | rd => exact .of_ite h .readStarted fun _ => .aside (.refuse _ s)
  | ledRequest on => cases h; exact .ledRequested
  | gpe => cases h; exact .of_gpeTrigger _ s
  | rdComplete o =>
    simp only [exec, execRdComplete] at h
    split at h
    · cases h
    · cases h
      exact .aside (.rdComplete o s)
  | dispatch => exact .of_guard h (.aside (.dispatchPacket _ s))
  | rda => cases h; exact .readRequested
  | wtra => cases h; exact .writeRequested
  | tStart => cases h; exact .exchangeStarted
  | tXfer => cases h; exact .transferred
  | tComplete =>
    rcases execTComplete_next h with ⟨-, rfl⟩ | ⟨hc, -, rfl⟩
    · exact .aside (.refl _)
    · exact .completed hc
  | statusCheck => cases h; exact .aside (.setResult _ s)
  | classify => cases h; exact .aside (.setResult _ s)
  | decodeKbd => exact .of_guard h (.aside (.setResult _ s))
  | decodeTp => exact .of_guard h (.aside (.setResult _ s))
  | crc16 d => cases h; exact .aside (.setResult _ s)
  | crcCheck => cases h; exact .aside (.setResult _ s)
  | buildLed n on => cases h; exact .ledBuilt
  | kbdApply f => cases h; exact .aside (.kbdApply f s)
  | codeToKey code fn =>
    exact .of_ite h (fun _ => .aside (.setResult _ s)) fun _ => .aside ((SameControl.setResult _ s).trans (.drawn _))
  | tpApply f => cases h; exact .aside (.tpApply f s)
  | tpFilter f => cases h; exact .aside (.setResult _ s)
  | tpXform f => cases h; exact .aside (.setResult _ s)
  | tpAssign pos => cases h; exact .aside (.setResult _ s)
  | tpEmit f entries released => cases h; exact .aside (.emit _ s)
  | ledSend => cases h; exact .ledSent
  | ledComplete o => cases h; exact .ledCompleted
  | pktKeyboard payload => exact .of_guard h (.aside (.dispatchPacket _ s))
  | pktTouchpad payload => exact .of_guard h (.aside (.dispatchPacket _ s))
  | pktNothing payload => cases h; exact .aside (.dispatchPacket _ s)
  | statusAccept => cases h; exact .statusArrived rfl
  | ledcmdVal on => cases h; exact .ledValueSet

/-! ## The step -/

/-- The instruction that the next move stands for; a move that is no decodable item counts as `NOP`. -/
def nextInstr (s : State) : Instr :=
  match s.stim with
  | .item p bs :: _ =>
    match decode s.par.tags p bs with
    | .ok i => i
    | .error _ => .nop
  | _ => .nop

theorem nextInstr_of_decode {s : State} {p : Port} {bs : List Byte} {rest : List Stim} {i : Instr}
    (hs : s.stim = .item p bs :: rest) (hd : decode s.par.tags p bs = .ok i) : nextInstr s = i := by
  simp only [nextInstr, hs, hd]

/-- An instruction other than `NOP` is the next one only because the next move's item decodes to it. -/
theorem decode_of_nextInstr {s : State} {i : Instr} (h : nextInstr s = i) (hn : i ≠ .nop) :
    ∃ p bs rest, s.stim = .item p bs :: rest ∧ decode s.par.tags p bs = .ok i := by
  subst h
  unfold nextInstr at hn ⊢
  split at hn
  · rename_i p bs rest hs
    split at hn
    · rename_i i hd
      exact ⟨p, bs, rest, hs, hd⟩
    · exact absurd rfl hn
  · exact absurd rfl hn

/-- What a step other than reset does to the state without its taken move: the effect of the move's instruction. -/
theorem Effect.of_step {s t : State} (hr : notReset s = true) (h : step s = .next t) :
    ∃ rest, Effect { s with stim := rest } (nextInstr s) t := by
  obtain ⟨-, ⟨hs, rfl⟩ | ⟨m, rest, hs, hm⟩⟩ := step_next h
  · exact ⟨t.stim, .aside (.refl t)⟩
  refine ⟨rest, ?_⟩
  rcases runStim_next hm with ⟨a, -, rfl⟩ | ⟨rfl, -⟩ | ⟨bs, -, -, -, rfl⟩ | ⟨p, bs, i, rfl, -, hd, he⟩ | ⟨p, bs, r, rfl, -, hd, he⟩
  · exact .aside (.queueAnswer a _)
  · simp [notReset, hs] at hr
  · exact .aside (.refl _)
  · rw [nextInstr_of_decode hs hd]
    exact .of_exec he
  · rcases runReject_next he with ⟨op, rfl, rfl⟩ | ⟨tag, rfl, rfl⟩ | ⟨b, rfl, rfl⟩
    · exact .aside (.raise _ _)
    · exact .aside (.dropUnknown _ _)
    · exact .statusArrived (length_of_statusMismatch hd)

end Sys2Proof.Machine
end

section
/-! The state after reset (10_state.md R50) and the mirror of the state in CSR 13 (R28). -/

namespace Sys2Proof.Machine

/-! ## After reset -/

/-- Settles O1: the table's values are those written in `State.reset`, slot by slot for the history and the tracking slots. -/
theorem resetGivesTheTable : Obligations.ResetGivesTheTable := by
  refine ⟨rfl, rfl, rfl, rfl, rfl, rfl, ?_, ?_, rfl, ?_, rfl, rfl, rfl, rfl, rfl, rfl, rfl, rfl, rfl, rfl⟩ <;> decide

theorem consistent_reset : Consistent State.reset := by decide

theorem errLogged_reset : ErrLogged State.reset := by
  intro j
  have noBit : State.reset.err.getLsbD j.val = false := BitVec.getLsbD_zero
  have noRecord : State.reset.log = [] := rfl
  rw [noBit, noRecord]
  simp

/-- Settles O51: `ERR` and the log are empty, and the other invariants speak of flags, phases and empty buffers. -/
theorem invariantsHoldAfterReset : Obligations.InvariantsHoldAfterReset :=
  ⟨consistent_reset, by decide, by decide, by decide, errLogged_reset⟩

/-! ## The status mirror -/

theorem bit_getLsbD (b : Bool) (i : Nat) : (bit b).getLsbD i = (decide (i = 0) && b) := by
  simp only [bit, BitVec.getLsbD_ofBool]

theorem readCsr_status (s : State) : s.readCsr 13 = s.statusReg.setWidth 64 := by simp [State.readCsr]

/-- The flags of bits 0 to 7, bit 0 first (R28). -/
def State.statusFlags (s : State) : List Bool :=
  [s.cfgValid, s.initDone, s.gpeArmed, s.xport.rdPending, s.xport.wrPending, s.led.inflight, s.led.want, s.led.sent]

/-- Bit `i` of the mirror: the flags, `tstate`, `texch`, `last_fn`, and zeros above (R28). -/
theorem readCsr_status_getLsbD (s : State) (i : Nat) :
    (s.readCsr 13).getLsbD i
      = if i < 8 then s.statusFlags.getD i false
        else if i < 11 then s.xport.tstate.code.getLsbD (i - 8)
        else if i < 14 then s.xport.texch.code.getLsbD (i - 11)
        else decide (i = 14) && s.kbd.lastFn := by
  rw [readCsr_status, BitVec.getLsbD_setWidth]
  by_cases h : i < 16
  · simp only [State.statusReg, BitVec.getLsbD_append, bit_getLsbD]
    interval_cases i <;> simp [State.statusFlags]
  · have above : s.statusReg.getLsbD i = false := BitVec.getLsbD_of_ge _ _ (by omega)
    rw [above, if_neg (by omega), if_neg (by omega), if_neg (by omega), decide_eq_false (p := i = 14) (by omega),
      Bool.and_false, Bool.false_and]

/-- Settles O8: the flags bit by bit, the two codes and the zeros as fields of the word. -/
theorem statusRegisterMirrors : Obligations.StatusRegisterMirrors := by
  refine ⟨fun s => ?_, rfl, rfl, rfl, rfl, rfl, rfl, rfl, rfl, rfl, rfl, rfl, rfl⟩
  have flag (i : Nat) (hi : i < 8) : (s.readCsr 13).getLsbD i = s.statusFlags.getD i false := by
    rw [readCsr_status_getLsbD, if_pos hi]
  have phase : (s.readCsr 13).extractLsb' 8 3 = s.xport.tstate.code := by
    refine BitVec.eq_of_getLsbD_eq fun i hi => ?_
    rw [BitVec.getLsbD_extractLsb', readCsr_status_getLsbD, if_neg (by omega), if_pos (by omega), Nat.add_sub_cancel_left,
      decide_eq_true hi, Bool.true_and]
  have exchange : (s.readCsr 13).extractLsb' 11 3 = s.xport.texch.code := by
    refine BitVec.eq_of_getLsbD_eq fun i hi => ?_
    rw [BitVec.getLsbD_extractLsb', readCsr_status_getLsbD, if_neg (by omega), if_neg (by omega), if_pos (by omega),
      Nat.add_sub_cancel_left, decide_eq_true hi, Bool.true_and]
  have fn : (s.readCsr 13).getLsbD 14 = s.kbd.lastFn := by
    rw [readCsr_status_getLsbD]
    rfl
  have zeros : (s.readCsr 13).extractLsb' 15 49 = 0 := by
    refine BitVec.eq_of_getLsbD_eq fun i hi => ?_
    rw [BitVec.getLsbD_extractLsb', readCsr_status_getLsbD, if_neg (by omega), if_neg (by omega), if_neg (by omega),
      decide_eq_false (p := 15 + i = 14) (by omega), Bool.false_and, Bool.and_false]
    exact BitVec.getLsbD_zero.symm
  exact ⟨flag 0 (by decide), flag 1 (by decide), flag 2 (by decide), flag 3 (by decide), flag 4 (by decide), flag 5 (by decide),
    flag 6 (by decide), flag 7 (by decide), phase, exchange, fn, zeros⟩

end Sys2Proof.Machine
end

section
/-! What every step keeps of the streams and registers (10_state.md R22, R24, R27, R29, R38, R45), of the phases (R31) and of a
consistent state, each read off from the effects. -/

namespace Sys2Proof.Machine

/-! ## Frames of the operations with more than one outcome -/

theorem initFrom_frame (k : Nat) (s : State) :
    initFrom k s = { s with txBuf := (initFrom k s).txBuf, xport := (initFrom k s).xport, initDone := (initFrom k s).initDone
                            gpeArmed := (initFrom k s).gpeArmed, wire := (initFrom k s).wire, host := (initFrom k s).host
                            returns := (initFrom k s).returns } := by
  rcases initFrom_cases k s with ⟨p, -, e⟩ | ⟨-, e⟩ <;> rw [e] <;> rfl

theorem transportStart_frame (s : State) :
    transportStart s = { s with xport := (transportStart s).xport, wire := (transportStart s).wire
                                draws := (transportStart s).draws } := by
  rcases transportStart_cases s with e | ⟨-, -, e | e⟩ | ⟨-, -, e | e⟩ <;> rw [e] <;> rfl

theorem ledRequest_frame (on : Bool) (s : State) :
    ledRequest on s = { s with txBuf := (ledRequest on s).txBuf, led := (ledRequest on s).led
                               xport := { s.xport with wrPending := (ledRequest on s).xport.wrPending }
                               err := (ledRequest on s).err, log := (ledRequest on s).log } := by
  rcases ledRequest_cases on s with ⟨-, e⟩ | ⟨-, -, e⟩ | ⟨-, -, -, e⟩ <;> rw [e] <;> rfl

theorem ledComplete_frame (o : XferOutcome) (s : State) :
    ledComplete o s = { s with txBuf := (ledComplete o s).txBuf, led := (ledComplete o s).led
                               xport := { s.xport with wrPending := (ledComplete o s).xport.wrPending } } := by
  rcases ledComplete_cases o s with ⟨-, e⟩ | ⟨-, -, e⟩ <;> rw [e] <;> rfl

/-! ## Streams and parameters -/

theorem Effect.grows {i : Instr} {s t : State} (h : Effect s i t) : Grows s t := by
  cases h with
  | aside same => exact same.toGrows
  | initStarted => exact .initFrom 0 s
  | writeStarted => exact .startSyncWrite _ _ s
  | readStarted => exact (Grows.startExchange .syncRd .rdArm s).trans (.of_eq rfl rfl rfl rfl rfl rfl)
  | ledRequested => exact .ledRequest _ s
  | exchangeStarted => exact .transportStart s
  | transferred => exact .transportTransfer s
  | completed => exact .completeExchange s
  | ledCompleted => exact .ledComplete _ s
  | _ => exact .of_eq rfl rfl rfl rfl rfl rfl

/-- The reset input is the one move that `notReset` leaves out. -/
theorem step_reset {s t : State} (hr : notReset s = false) (h : step s = .next t) :
    ∃ rest, t = { s with stim := rest }.assertReset := by
  obtain ⟨-, ⟨hs, -⟩ | ⟨m, rest, hs, hm⟩⟩ := step_next h
  · simp [notReset, hs] at hr
  · cases m with
    | item p bs => simp [notReset, hs] at hr
    | dev a => simp [notReset, hs] at hr
    | reset => exact ⟨rest, (Host.Outcome.next.inj hm).symm⟩

/-- Settles O56: every effect lets the streams grow, and reset keeps the parameters. -/
theorem streamsOnlyGrow : Obligations.StreamsOnlyGrow := by
  intro s t h
  cases hr : notReset s with
  | false =>
    obtain ⟨rest, rfl⟩ := step_reset hr h
    exact ⟨rfl, fun hn => by cases hn⟩
  | true =>
    obtain ⟨rest, he⟩ := Effect.of_step hr h
    have hg := he.grows
    exact ⟨hg.par, fun _ => ⟨hg.events, hg.log, hg.wire, hg.returns⟩⟩

/-! ## Registers -/

/-- A loaded configuration stays: `CFG_LOAD` stores one only where there was none (R24, R27). -/
theorem Effect.config_kept {i : Instr} {s t : State} (h : Effect s i t) (hv : s.cfgValid = true) :
    t.cfgValid = true ∧ t.spi = s.spi := by
  cases h with
  | aside same => exact ⟨same.cfgValid.trans hv, same.spi⟩
  | configured v fresh => exact absurd hv (by simp [fresh])
  | initStarted => rw [initFrom_frame]; exact ⟨hv, rfl⟩
  | ledRequested => rw [ledRequest_frame]; exact ⟨hv, rfl⟩
  | exchangeStarted => rw [transportStart_frame]; exact ⟨hv, rfl⟩
  | transferred => rw [transportTransfer_frame]; exact ⟨hv, rfl⟩
  | ledCompleted => rw [ledComplete_frame]; exact ⟨hv, rfl⟩
  | completed =>
    obtain ⟨u, same, h⟩ := completeExchange_cases s
    have hu : u.cfgValid = true ∧ u.spi = s.spi := ⟨same.cfgValid.trans hv, same.spi⟩
    rcases h with ⟨-, e⟩ | ⟨-, r, e⟩ | ⟨-, k, -, e⟩ | ⟨-, o, e⟩ <;> rw [e]
    · exact hu
    · exact hu
    · rw [initFrom_frame]; exact ⟨hv, rfl⟩
    · rw [ledComplete_frame]; exact hu
  | _ => exact ⟨hv, rfl⟩

theorem ledRequest_seq (on : Bool) (s : State) :
    (ledRequest on s).led.seq = s.led.seq ∨ (ledRequest on s).led.seq = s.led.seq + 1 := by
  rcases ledRequest_cases on s with ⟨-, e⟩ | ⟨-, -, e⟩ | ⟨-, -, -, e⟩ <;> rw [e]
  · exact .inl rfl
  · exact .inl rfl
  · exact .inr rfl

theorem ledComplete_seq (o : XferOutcome) (s : State) :
    (ledComplete o s).led.seq = s.led.seq ∨ (ledComplete o s).led.seq = s.led.seq + 1 := by
  rcases ledComplete_cases o s with ⟨-, e⟩ | ⟨-, -, e⟩ <;> rw [e]
  · exact .inl rfl
  · exact .inr rfl

/-- One step sends at most one LED command (44_led_queue.md R262). -/
theorem Effect.ledSeq_cases {i : Instr} {s t : State} (h : Effect s i t) : t.led.seq = s.led.seq ∨ t.led.seq = s.led.seq + 1 := by
  cases h with
  | aside same => exact .inl (congrArg LedRegs.seq same.led)
  | initStarted => rw [initFrom_frame]; exact .inl rfl
  | ledRequested => exact ledRequest_seq _ s
  | exchangeStarted => rw [transportStart_frame]; exact .inl rfl
  | transferred => rw [transportTransfer_frame]; exact .inl rfl
  | ledSent => exact .inr rfl
  | ledCompleted => exact ledComplete_seq _ s
  | completed =>
    obtain ⟨u, same, h⟩ := completeExchange_cases s
    have hu : u.led.seq = s.led.seq := congrArg LedRegs.seq same.led
    rcases h with ⟨-, e⟩ | ⟨-, r, e⟩ | ⟨-, k, -, e⟩ | ⟨-, o, e⟩ <;> rw [e]
    · exact .inl hu
    · exact .inl hu
    · rw [initFrom_frame]; exact .inl rfl
    · rw [← hu]; exact ledComplete_seq o (freeChannel u)
  | _ => exact .inl rfl

/-- What sets `init_done`: the end of `INIT`'s loop, which returns `OK` (45_system.md R283). -/
theorem initFrom_initDone_cases (k : Nat) (s : State) :
    (initFrom k s).initDone = s.initDone ∨ (initFrom k s).initDone = true ∧ (initFrom k s).returns = s.returns ++ [.init .ok] := by
  rcases initFrom_cases k s with ⟨p, -, e⟩ | ⟨-, e⟩ <;> rw [e]
  · exact .inl rfl
  · exact .inr ⟨rfl, rfl⟩

/-- `init_done` stays, is set where `INIT` returns `OK`, or is cleared by `SHUTDOWN` (R38). -/
theorem Effect.initDone_cases {i : Instr} {s t : State} (h : Effect s i t) :
    t.initDone = s.initDone ∨ (t.initDone = true ∧ t.returns = s.returns ++ [.init .ok])
      ∨ (t.initDone = false ∧ i = .shutdown) := by
  cases h with
  | aside same => exact .inl same.initDone
  | shutDown => exact .inr (.inr ⟨rfl, rfl⟩)
  | initStarted => exact (initFrom_initDone_cases 0 s).imp_right .inl
  | ledRequested => rw [ledRequest_frame]; exact .inl rfl
  | exchangeStarted => rw [transportStart_frame]; exact .inl rfl
  | transferred => rw [transportTransfer_frame]; exact .inl rfl
  | ledCompleted => rw [ledComplete_frame]; exact .inl rfl
  | completed =>
    obtain ⟨u, same, h⟩ := completeExchange_cases s
    rcases h with ⟨-, e⟩ | ⟨-, r, e⟩ | ⟨-, k, -, e⟩ | ⟨-, o, e⟩ <;> rw [e]
    · exact .inl same.initDone
    · exact .inl same.initDone
    · exact (initFrom_initDone_cases (k + 1) (freeChannel s)).imp_right .inl
    · rw [ledComplete_frame]; exact .inl same.initDone
  | _ => exact .inl rfl

theorem shutdownNext_of_nextInstr {s : State} (h : nextInstr s = .shutdown) : ShutdownNext s := by
  obtain ⟨p, bs, rest, hs, hd⟩ := decode_of_nextInstr h (by simp)
  obtain rfl : Port.host = p := portOfInstr_of_decode hd
  exact ⟨bs, rest, hs, hd⟩

/-- Settles O55: each register's clause is the effect's. -/
theorem registersChangeOnlyAsStated : Obligations.RegistersChangeOnlyAsStated := by
  intro s t hr h
  obtain ⟨rest, he⟩ := Effect.of_step hr h
  refine ⟨he.grows.err, he.config_kept, he.ledSeq_cases, fun hs ht => ?_, fun hs ht => ?_⟩
  · rcases he.initDone_cases with e | ⟨-, e⟩ | ⟨e, -⟩
    · exact absurd (ht.symm.trans (e.trans hs)) (by simp)
    · exact e
    · exact absurd (ht.symm.trans e) (by simp)
  · rcases he.initDone_cases with e | ⟨e, -⟩ | ⟨-, e⟩
    · exact absurd (ht.symm.trans (e.trans hs)) (by simp)
    · exact absurd (ht.symm.trans e) (by simp)
    · exact shutdownNext_of_nextInstr e

end Sys2Proof.Machine
end

section
/-! The phases of the sequencer (10_state.md R31, R32), the consistency of a state (R25, R38; 20_memory.md R62) and the LED command
in flight (R51), read off from the effects. -/

namespace Sys2Proof.Machine

/-! ## Transfers -/

/-- What `T_XFER` can do: wait, arm the read, or take the device's answer in one of the four transfers (40_transport.md R138 to
R142). -/
theorem transportTransfer_cases (s : State) :
    transportTransfer s = s
      ∨ (s.xport.tstate = .rdArm ∧ transportTransfer s = s.goPhase .rdData)
      ∨ ∃ a rest,
          (s.xport.tstate = .wrCmd ∧ transportTransfer s = sendCommand a { s with dev := rest })
            ∨ (s.xport.tstate = .wrStatus ∧ transportTransfer s = receiveStatus a { s with dev := rest })
            ∨ (s.xport.tstate = .wrResp ∧ transportTransfer s = receiveResponse a { s with dev := rest })
            ∨ (s.xport.tstate = .rdData ∧ transportTransfer s = receivePacket a { s with dev := rest }) := by
  cases hd : s.dev with
  | nil =>
    by_cases ha : s.xport.tstate = .rdArm
    · exact .inr (.inl ⟨ha, transportTransfer_arm ha⟩)
    · exact .inl (transportTransfer_waits (.inr (.inr ⟨hd, ha⟩)))
  | cons a rest =>
    obtain ⟨wrCmd, wrStatus, wrResp, rdData⟩ := transportTransfer_answer hd
    cases ht : s.xport.tstate with
    | idle => exact .inl (transportTransfer_waits (.inl ht))
    | complete => exact .inl (transportTransfer_waits (.inr (.inl ht)))
    | rdArm => exact .inr (.inl ⟨rfl, transportTransfer_arm ht⟩)
    | wrCmd => exact .inr (.inr ⟨a, rest, .inl ⟨rfl, wrCmd ht⟩⟩)
    | wrStatus => exact .inr (.inr ⟨a, rest, .inr (.inl ⟨rfl, wrStatus ht⟩)⟩)
    | wrResp => exact .inr (.inr ⟨a, rest, .inr (.inr (.inl ⟨rfl, wrResp ht⟩))⟩)
    | rdData => exact .inr (.inr ⟨a, rest, .inr (.inr (.inr ⟨rfl, rdData ht⟩))⟩)

/-- The phases that `T_XFER` moves between; a failed transfer leads to `T_COMPLETE` (R138 to R142). -/
def transferSteps : List (TState × TState) :=
  [(.wrCmd, .wrStatus), (.wrStatus, .wrResp), (.wrResp, .complete), (.rdArm, .rdData), (.rdData, .complete), (.wrCmd, .complete),
    (.wrStatus, .complete)]

theorem transportTransfer_phase (s : State) :
    (transportTransfer s).xport.tstate = s.xport.tstate
      ∨ (s.xport.tstate, (transportTransfer s).xport.tstate) ∈ transferSteps := by
  rcases transportTransfer_cases s with
    e | ⟨ht, e⟩ | ⟨a, rest, ⟨ht, e⟩ | ⟨ht, e⟩ | ⟨ht, e⟩ | ⟨ht, e⟩⟩ <;> rw [e]
  · exact .inl rfl
  · simp [ht, transferSteps]
  · cases a <;> simp [ht, sendCommand, transferSteps]
  · cases a <;> simp [ht, receiveStatus, transferSteps]
  · cases a <;> simp [ht, receiveResponse, transferSteps]
  · cases a <;> simp [ht, receivePacket, transferSteps]

/-- The transfers of a read exchange follow the read phases and those of a write exchange the write phases. -/
theorem phaseFits_transfer {a b : TState} {x : TExch} (h : (a, b) ∈ transferSteps) (hf : phaseFits a x = true) :
    phaseFits b x = true := by
  have table : ∀ p ∈ transferSteps, phaseFits p.1 x = true → phaseFits p.2 x = true := by cases x <;> decide
  exact table (a, b) h hf

/-! ## The sequencer -/

/-- `INIT`'s loop keeps the phase or starts a write exchange. -/
theorem initFrom_xport_cases (k : Nat) (s : State) :
    (initFrom k s).xport = s.xport ∨ (initFrom k s).xport.tstate = .wrCmd := by
  rcases initFrom_cases k s with ⟨p, -, e⟩ | ⟨-, e⟩ <;> rw [e]
  · exact .inr rfl
  · exact .inl rfl

/-- After the completion step the channel is free, or `INIT`'s next exchange is at its first phase. -/
theorem completeExchange_tstate_cases (s : State) :
    (completeExchange s).xport.tstate = .idle ∨ (completeExchange s).xport.tstate = .wrCmd := by
  obtain ⟨u, -, h⟩ := completeExchange_cases s
  rcases h with ⟨-, e⟩ | ⟨-, r, e⟩ | ⟨-, k, -, e⟩ | ⟨-, o, e⟩ <;> rw [e]
  · exact .inl rfl
  · exact .inl rfl
  · rcases initFrom_xport_cases (k + 1) (freeChannel s) with e | e
    · exact .inl (congrArg Transport.tstate e)
    · exact .inr e
  · rw [ledComplete_frame]
    exact .inl rfl

/-- What an operation does to the sequencer: nothing, the start of an exchange, a transfer inside it, or its end. -/
theorem Effect.sequencer_cases {i : Instr} {s t : State} (h : Effect s i t) :
    (t.xport.tstate = s.xport.tstate ∧ t.xport.texch = s.xport.texch)
      ∨ (s.xport.tstate = .idle ∧ (t.xport.tstate = .wrCmd ∨ t.xport.tstate = .rdArm))
      ∨ ((s.xport.tstate, t.xport.tstate) ∈ transferSteps ∧ t.xport.texch = s.xport.texch)
      ∨ (s.xport.tstate = .complete ∧ (t.xport.tstate = .idle ∨ t.xport.tstate = .wrCmd)) := by
  cases h with
  | aside same => rw [same.xport]; exact .inl ⟨rfl, rfl⟩
  | initStarted free =>
    obtain ⟨-, -, -, idle, -⟩ := (syncReady_iff s).1 free
    rcases initFrom_xport_cases 0 s with e | e
    · rw [e]; exact .inl ⟨rfl, rfl⟩
    · exact .inr (.inl ⟨idle, .inl e⟩)
  | writeStarted free =>
    obtain ⟨-, -, -, idle, -⟩ := (syncReady_iff s).1 free
    exact .inr (.inl ⟨idle, .inl rfl⟩)
  | readStarted free =>
    obtain ⟨-, -, -, idle, -⟩ := (syncReady_iff s).1 free
    exact .inr (.inl ⟨idle, .inr rfl⟩)
  | ledRequested => rw [ledRequest_frame]; exact .inl ⟨rfl, rfl⟩
  | exchangeStarted =>
    rcases transportStart_cases s with e | ⟨idle, -, e | e⟩ | ⟨idle, -, e | e⟩ <;> rw [e]
    · exact .inl ⟨rfl, rfl⟩
    · exact .inr (.inl ⟨idle, .inr rfl⟩)
    · exact .inr (.inl ⟨idle, .inr rfl⟩)
    · exact .inr (.inl ⟨idle, .inl rfl⟩)
    · exact .inr (.inl ⟨idle, .inl rfl⟩)
  | transferred =>
    have same : (transportTransfer s).xport.texch = s.xport.texch := by rw [transportTransfer_frame]
    rcases transportTransfer_phase s with e | e
    · exact .inl ⟨e, same⟩
    · exact .inr (.inr (.inl ⟨e, same⟩))
  | completed due => exact .inr (.inr (.inr ⟨due, completeExchange_tstate_cases s⟩))
  | ledCompleted => rw [ledComplete_frame]; exact .inl ⟨rfl, rfl⟩
  | _ => exact .inl ⟨rfl, rfl⟩

/-- Settles O53: a start, a transfer and a completion are on the list, and only a start or a completion changes the exchange. -/
theorem phasesInFixedOrder : Obligations.PhasesInFixedOrder := by
  intro s t _ hr h
  obtain ⟨rest, he⟩ := Effect.of_step hr h
  have listed : ∀ p ∈ transferSteps, p ∈ ([(.idle, .wrCmd), (.idle, .rdArm), (.wrCmd, .wrStatus), (.wrStatus, .wrResp),
      (.wrResp, .complete), (.rdArm, .rdData), (.rdData, .complete), (.wrCmd, .complete), (.wrStatus, .complete),
      (.complete, .idle), (.complete, .wrCmd)] : List (TState × TState)) := by decide
  rcases he.sequencer_cases with ⟨phase, exch⟩ | ⟨idle, phase⟩ | ⟨phase, exch⟩ | ⟨complete, phase⟩
  · exact ⟨.inr phase, fun _ _ => exch⟩
  · refine ⟨.inl ?_, fun hn => absurd idle hn⟩
    have : s.xport.tstate = .idle := idle
    rcases phase with e | e <;> rw [this, e] <;> decide
  · exact ⟨.inl (listed _ phase), fun _ _ => exch⟩
  · refine ⟨.inl ?_, fun _ hn => absurd complete hn⟩
    have : s.xport.tstate = .complete := complete
    rcases phase with e | e <;> rw [this, e] <;> decide

/-! ## Consistency: the buffers -/

theorem buffersWf_iff (s : State) :
    s.buffersWf = true
      ↔ Memory.wf packetLen s.txBuf = true ∧ Memory.wf statusLen s.txStatus = true ∧ Memory.wf packetLen s.rxBuf = true := by
  simp [State.buffersWf, and_assoc]

theorem buffersWf_loadTx {s : State} (h : s.buffersWf = true) (p : Packet) : (s.loadTx p).buffersWf = true := by
  obtain ⟨-, status, rx⟩ := (buffersWf_iff s).1 h
  exact (buffersWf_iff _).2 ⟨Memory.load_wf _ (by simp [packetLen]), status, rx⟩

theorem buffersWf_setStatus {s : State} (h : s.buffersWf = true) {bs : List Byte} (hl : bs.length ≤ statusLen) :
    (s.setStatus bs).buffersWf = true := by
  obtain ⟨tx, -, rx⟩ := (buffersWf_iff s).1 h
  exact (buffersWf_iff _).2 ⟨tx, Memory.load_wf _ hl, rx⟩

theorem buffersWf_setRx {s : State} (h : s.buffersWf = true) {bs : List Byte} (hl : bs.length ≤ packetLen) :
    (s.setRx bs).buffersWf = true := by
  obtain ⟨tx, status, -⟩ := (buffersWf_iff s).1 h
  exact (buffersWf_iff _).2 ⟨tx, status, Memory.load_wf _ hl⟩

theorem buffersWf_buildLed {s : State} (h : s.buffersWf = true) (n : Byte) (on : Bool) : (s.buildLed n on).buffersWf = true := by
  obtain ⟨-, status, rx⟩ := (buffersWf_iff s).1 h
  exact (buffersWf_iff _).2 ⟨ledCommand_wf _ n on, status, rx⟩

theorem buffersWf_initFrom {s : State} (h : s.buffersWf = true) (k : Nat) : (initFrom k s).buffersWf = true := by
  rcases initFrom_cases k s with ⟨p, -, e⟩ | ⟨-, e⟩ <;> rw [e]
  · exact buffersWf_loadTx h p
  · exact h

theorem buffersWf_ledSend {s : State} (h : s.buffersWf = true) : (ledSend s).buffersWf = true :=
  buffersWf_buildLed h s.led.seq s.led.want

theorem buffersWf_ledRequest {s : State} (h : s.buffersWf = true) (on : Bool) : (ledRequest on s).buffersWf = true := by
  rcases ledRequest_cases on s with ⟨-, e⟩ | ⟨-, -, e⟩ | ⟨-, -, -, e⟩ <;> rw [e]
  · exact h
  · exact h
  · exact buffersWf_ledSend (s := s.setWant on) h

theorem buffersWf_ledComplete {s : State} (h : s.buffersWf = true) (o : XferOutcome) : (ledComplete o s).buffersWf = true := by
  rcases ledComplete_cases o s with ⟨-, e⟩ | ⟨-, -, e⟩ <;> rw [e]
  · exact h
  · exact buffersWf_ledSend (s := s.clearInflight) h

theorem SameControl.buffersWf {s t : State} (same : SameControl s t) (h : s.buffersWf = true) : t.buffersWf = true := by
  rw [buffersWf_iff, same.txBuf, same.txStatus, same.rxBuf]
  exact (buffersWf_iff s).1 h

/-- Every transfer stores as many bytes as its buffer has, received or free ones. -/
theorem buffersWf_transportTransfer {s : State} (h : s.buffersWf = true) : (transportTransfer s).buffersWf = true := by
  rcases transportTransfer_cases s with
    e | ⟨-, e⟩ | ⟨a, rest, ⟨-, e⟩ | ⟨-, e⟩ | ⟨-, e⟩ | ⟨-, e⟩⟩ <;> rw [e]
  · exact h
  · exact h
  · cases a <;> exact h
  · cases a
    · exact buffersWf_setStatus h (by simp)
    · exact buffersWf_setStatus h (by simp)
  · cases a
    · exact buffersWf_setRx h (by simp [packetLen])
    · exact buffersWf_setRx h (by simp)
  · cases a
    · exact buffersWf_setRx h (by simp [packetLen])
    · exact buffersWf_setRx h (by simp)

theorem Effect.buffersWf {i : Instr} {s t : State} (he : Effect s i t) (h : s.buffersWf = true) : t.buffersWf = true := by
  cases he with
  | aside same => exact same.buffersWf h
  | initStarted => exact buffersWf_initFrom h 0
  | writeStarted => exact buffersWf_loadTx h _
  | ledRequested => exact buffersWf_ledRequest h _
  | exchangeStarted => rw [transportStart_frame]; exact h
  | transferred => exact buffersWf_transportTransfer h
  | ledSent => exact buffersWf_ledSend h
  | ledCompleted => exact buffersWf_ledComplete h _
  | ledBuilt => exact buffersWf_buildLed h _ _
  | ledValueSet =>
    obtain ⟨tx, status, rx⟩ := (buffersWf_iff s).1 h
    exact (buffersWf_iff _).2 ⟨Memory.write_wf tx (by decide) _, status, rx⟩
  | statusArrived len => exact buffersWf_setStatus h len.le
  | completed =>
    obtain ⟨u, same, h'⟩ := completeExchange_cases s
    have freed : (freeChannel u).buffersWf = true := same.buffersWf h
    rcases h' with ⟨-, e⟩ | ⟨-, r, e⟩ | ⟨-, k, -, e⟩ | ⟨-, o, e⟩ <;> rw [e]
    · exact freed
    · exact freed
    · exact buffersWf_initFrom (s := freeChannel s) h _
    · exact buffersWf_ledComplete freed o
  | _ => exact h

/-! ## Consistency: the mode registers -/

/-- The part of a state's consistency that speaks of `fnmode` and the mode flags (R25, R38). -/
structure ModesFit (s : State) : Prop where
  legal : s.fnmode ≠ 3
  together : s.initDone = s.gpeArmed
  configured : s.initDone = true → s.cfgValid = true

theorem fnmode_tunablesOf : ∀ (fnmode : BitVec 2) (iso : Bool), (tunablesOf fnmode iso).extractLsb' 0 2 = fnmode := by decide

theorem ModesFit.of_eq {s t : State} (h : ModesFit s) (tunables : t.tunables = s.tunables) (initDone : t.initDone = s.initDone)
    (gpeArmed : t.gpeArmed = s.gpeArmed) (cfgValid : t.cfgValid = s.cfgValid) : ModesFit t where
  legal := by rw [State.fnmode, tunables]; exact h.legal
  together := by rw [initDone, gpeArmed]; exact h.together
  configured := by rw [initDone, cfgValid]; exact h.configured

theorem ModesFit.initFrom {s : State} (h : ModesFit s) (hv : s.cfgValid = true) (k : Nat) : ModesFit (initFrom k s) := by
  rcases initFrom_cases k s with ⟨p, -, e⟩ | ⟨-, e⟩ <;> rw [e]
  · exact h.of_eq rfl rfl rfl rfl
  · exact ⟨h.legal, rfl, fun _ => hv⟩

theorem Effect.modesFit {i : Instr} {s t : State} (he : Effect s i t) (h : ModesFit s) (hv : s.host ≠ .ready → s.cfgValid = true) :
    ModesFit t := by
  cases he with
  | aside same => exact h.of_eq same.tunables same.initDone same.gpeArmed same.cfgValid
  | configured v fresh => exact ⟨h.legal, h.together, fun _ => rfl⟩
  | @tuned fnmode iso legal => exact ⟨fun e => legal ((fnmode_tunablesOf fnmode iso).symm.trans e), h.together, h.configured⟩
  | shutDown => exact ⟨h.legal, rfl, fun e => by cases e⟩
  | initStarted free =>
    obtain ⟨configured, -⟩ := (syncReady_iff s).1 free
    exact h.initFrom configured 0
  | ledRequested => rw [ledRequest_frame]; exact h.of_eq rfl rfl rfl rfl
  | exchangeStarted => rw [transportStart_frame]; exact h.of_eq rfl rfl rfl rfl
  | transferred => rw [transportTransfer_frame]; exact h.of_eq rfl rfl rfl rfl
  | ledCompleted => rw [ledComplete_frame]; exact h.of_eq rfl rfl rfl rfl
  | completed =>
    obtain ⟨u, same, h'⟩ := completeExchange_cases s
    have hu : ModesFit u := h.of_eq same.tunables same.initDone same.gpeArmed same.cfgValid
    rcases h' with ⟨-, e⟩ | ⟨-, r, e⟩ | ⟨-, k, hk, e⟩ | ⟨-, o, e⟩ <;> rw [e]
    · exact hu.of_eq rfl rfl rfl rfl
    · exact hu.of_eq rfl rfl rfl rfl
    · have blocked : s.host ≠ .ready := by simp [hk]
      exact ModesFit.initFrom (s := freeChannel s) (h.of_eq rfl rfl rfl rfl) (hv blocked) _
    · rw [ledComplete_frame]; exact hu.of_eq rfl rfl rfl rfl
  | _ => exact h.of_eq rfl rfl rfl rfl

/-! ## Consistency: the channel and the blocked host -/

/-- The part of a state's consistency that speaks of the phase, the exchange and the blocked host (R31, R32; 40_transport.md
R145). -/
structure ChannelFits (s : State) : Prop where
  phase : phaseFits s.xport.tstate s.xport.texch = true
  host : hostFits s.host s.xport.texch = true
  configured : s.host ≠ .ready → s.cfgValid = true

theorem ChannelFits.of_eq {s t : State} (h : ChannelFits s) (tstate : t.xport.tstate = s.xport.tstate)
    (texch : t.xport.texch = s.xport.texch) (host : t.host = s.host) (cfgValid : t.cfgValid = s.cfgValid) : ChannelFits t where
  phase := by rw [tstate, texch]; exact h.phase
  host := by rw [host, texch]; exact h.host
  configured := by rw [host, cfgValid]; exact h.configured

theorem ChannelFits.of_free {s : State} (tstate : s.xport.tstate = .idle) (texch : s.xport.texch = .none) (host : s.host = .ready) :
    ChannelFits s where
  phase := by rw [tstate, texch]; rfl
  host := by rw [host, texch]; rfl
  configured := fun h => absurd host h

theorem phaseFits_idle {x : TExch} (h : phaseFits .idle x = true) : x = .none := by
  cases x with
  | none => rfl
  | _ => cases h

/-- Only a synchronous exchange blocks the host. -/
theorem hostFits_ready {h : HostCont} {x : TExch} (hf : hostFits h x = true) (hw : x ≠ .syncWtr) (hr : x ≠ .syncRd) :
    h = .ready := by
  unfold hostFits at hf
  split at hf
  · rfl
  · rfl
  · rfl
  · exact absurd rfl hw
  · exact absurd rfl hw
  · exact absurd rfl hr
  · cases hf

theorem ChannelFits.ready {s : State} (h : ChannelFits s) (hw : s.xport.texch ≠ .syncWtr) (hr : s.xport.texch ≠ .syncRd) :
    s.host = .ready := hostFits_ready h.host hw hr

/-- At `T_IDLE` nothing is exchanged and the host is not blocked. -/
theorem ChannelFits.idle {s : State} (h : ChannelFits s) (idle : s.xport.tstate = .idle) :
    s.xport.texch = .none ∧ s.host = .ready := by
  have texch : s.xport.texch = .none := phaseFits_idle (idle ▸ h.phase)
  exact ⟨texch, h.ready (by simp [texch]) (by simp [texch])⟩

theorem ChannelFits.initFrom {s : State} (tstate : s.xport.tstate = .idle) (texch : s.xport.texch = .none) (hv : s.cfgValid = true)
    (k : Nat) : ChannelFits (initFrom k s) := by
  rcases initFrom_cases k s with ⟨p, -, e⟩ | ⟨-, e⟩ <;> rw [e]
  · exact ⟨rfl, rfl, fun _ => hv⟩
  · exact .of_free tstate texch rfl

/-- An asynchronous exchange starts with the channel idle, so with no host blocked (40_transport.md R137). -/
theorem ChannelFits.startRead {s : State} (h : ChannelFits s) (idle : s.xport.tstate = .idle) : ChannelFits (startRead s) :=
  ⟨rfl, congrArg (hostFits · .asyncRd) (h.idle idle).2, h.configured⟩

theorem ChannelFits.startWrite {s : State} (h : ChannelFits s) (idle : s.xport.tstate = .idle) : ChannelFits (startWrite s) :=
  ⟨rfl, congrArg (hostFits · .asyncWtr) (h.idle idle).2, h.configured⟩

theorem ChannelFits.completeExchange {s : State} (h : ChannelFits s) : ChannelFits (completeExchange s) := by
  obtain ⟨u, same, h'⟩ := completeExchange_cases s
  rcases h' with ⟨hx, e⟩ | ⟨-, r, e⟩ | ⟨-, k, hk, e⟩ | ⟨hx, o, e⟩ <;> rw [e]
  · have ready : s.host = .ready := by
      rcases hx with hx | hx <;> exact h.ready (by simp [hx]) (by simp [hx])
    exact .of_free rfl rfl (same.host.trans ready)
  · exact .of_free rfl rfl rfl
  · have blocked : s.host ≠ .ready := by simp [hk]
    exact ChannelFits.initFrom (s := freeChannel s) rfl rfl (h.configured blocked) _
  · have ready : s.host = .ready := h.ready (by simp [hx]) (by simp [hx])
    rw [ledComplete_frame]
    exact .of_free rfl rfl (same.host.trans ready)

theorem Effect.channelFits {i : Instr} {s t : State} (he : Effect s i t) (h : ChannelFits s) : ChannelFits t := by
  cases he with
  | aside same => exact h.of_eq (by rw [same.xport]) (by rw [same.xport]) same.host same.cfgValid
  | configured v fresh => exact ⟨h.phase, h.host, fun _ => rfl⟩
  | initStarted free =>
    obtain ⟨configured, -, -, idle, -⟩ := (syncReady_iff s).1 free
    obtain ⟨texch, -⟩ := h.idle idle
    exact .initFrom idle texch configured 0
  | writeStarted free =>
    obtain ⟨configured, -⟩ := (syncReady_iff s).1 free
    exact ⟨rfl, rfl, fun _ => configured⟩
  | readStarted free =>
    obtain ⟨configured, -⟩ := (syncReady_iff s).1 free
    exact ⟨rfl, rfl, fun _ => configured⟩
  | ledRequested => rw [ledRequest_frame]; exact h.of_eq rfl rfl rfl rfl
  | exchangeStarted =>
    have drawn : ChannelFits s.drawn := h.of_eq rfl rfl rfl rfl
    rcases transportStart_cases s with e | ⟨idle, -, e | e⟩ | ⟨idle, -, e | e⟩ <;> rw [e]
    · exact h
    · exact h.startRead idle
    · exact drawn.startRead idle
    · exact h.startWrite idle
    · exact drawn.startWrite idle
  | transferred =>
    have texch : (transportTransfer s).xport.texch = s.xport.texch := by rw [transportTransfer_frame]
    have host : (transportTransfer s).host = s.host := by rw [transportTransfer_frame]
    have cfgValid : (transportTransfer s).cfgValid = s.cfgValid := by rw [transportTransfer_frame]
    rcases transportTransfer_phase s with e | e
    · exact h.of_eq e texch host cfgValid
    · refine ⟨?_, by rw [host, texch]; exact h.host, by rw [host, cfgValid]; exact h.configured⟩
      rw [texch]
      exact phaseFits_transfer e h.phase
  | completed => exact h.completeExchange
  | ledCompleted => rw [ledComplete_frame]; exact h.of_eq rfl rfl rfl rfl
  | _ => exact h.of_eq rfl rfl rfl rfl

/-! ## Consistency -/

theorem consistent_iff (s : State) : Consistent s ↔ s.buffersWf = true ∧ ModesFit s ∧ ChannelFits s := by
  constructor
  · rintro ⟨buffers, phase, host, legal, together, done, blocked⟩
    exact ⟨buffers, ⟨legal, together, done⟩, ⟨phase, host, blocked⟩⟩
  · rintro ⟨buffers, ⟨legal, together, done⟩, ⟨phase, host, blocked⟩⟩
    exact ⟨buffers, phase, host, legal, together, done, blocked⟩

/-- Settles O52: every effect keeps the three parts, and the reset input gives the registers their values after reset. -/
theorem consistentKeptByStep : Obligations.ConsistentKeptByStep := by
  intro s t hc h
  cases hr : notReset s with
  | false =>
    obtain ⟨rest, rfl⟩ := step_reset hr h
    exact consistent_reset
  | true =>
    obtain ⟨buffers, modes, channel⟩ := (consistent_iff s).1 hc
    obtain ⟨rest, he⟩ := Effect.of_step hr h
    exact (consistent_iff t).2 ⟨he.buffersWf buffers, he.modesFit (modes.of_eq rfl rfl rfl rfl) channel.configured,
      he.channelFits (channel.of_eq rfl rfl rfl rfl)⟩

/-! ## The LED command in flight -/

theorem byAgent_of_host {i : Instr} : portOfInstr i = .host → byAgent i = true := by
  cases i <;> simp [portOfInstr, byAgent]

/-- The instruction of an agent's move is an agent's. -/
theorem byAgent_nextInstr {s : State} {m : Stim} {rest : List Stim} (hs : s.stim = m :: rest) (ha : agentMove s.par.tags m = true) :
    byAgent (nextInstr s) = true := by
  by_cases hn : nextInstr s = .nop
  · rw [hn]; rfl
  obtain ⟨p, bs, rest', hs', hd⟩ := decode_of_nextInstr rfl hn
  obtain ⟨rfl, -⟩ := List.cons.inj (hs.symm.trans hs')
  cases p with
  | host => exact byAgent_of_host (portOfInstr_of_decode hd)
  | op => simpa only [agentMove, hd] using ha
  | packet => simpa only [agentMove, hd] using ha
  | status => simpa only [agentMove, hd] using ha
  | ledVal => simpa only [agentMove, hd] using ha

/-- With a command in flight a request only notes the wanted value (44_led_queue.md R260, R261). -/
theorem ledRequest_inflight {s : State} (h : s.led.inflight = true) (on : Bool) :
    (ledRequest on s).txBuf = s.txBuf ∧ (ledRequest on s).led.inflight = true := by
  rcases ledRequest_cases on s with ⟨-, e⟩ | ⟨-, -, e⟩ | ⟨-, -, hf, -⟩
  · rw [e]; exact ⟨rfl, h⟩
  · rw [e]; exact ⟨rfl, h⟩
  · exact absurd h (by simp [hf])

theorem completeExchange_inflight {s : State} (h : s.led.inflight = true) (ready : s.host = .ready)
    (hx : s.xport.texch ≠ .asyncWtr) :
    (completeExchange s).txBuf = s.txBuf ∧ (completeExchange s).led.inflight = true := by
  obtain ⟨u, same, h'⟩ := completeExchange_cases s
  have hu : u.txBuf = s.txBuf ∧ u.led.inflight = true := ⟨same.txBuf, by rw [same.led]; exact h⟩
  rcases h' with ⟨-, e⟩ | ⟨-, r, e⟩ | ⟨-, k, hk, -⟩ | ⟨hw, -⟩
  · rw [e]; exact hu
  · rw [e]; exact hu
  · exact absurd (ready.symm.trans hk) (by simp)
  · exact absurd hw hx

/-- Of the agents' operations only the completion of the command's own exchange touches the command in flight; the blocking commands
are refused meanwhile (R51; 20_memory.md R74). -/
theorem Effect.inflight_kept {i : Instr} {s t : State} (he : Effect s i t) (h : s.led.inflight = true) (ready : s.host = .ready)
    (agent : byAgent i = true) (other : ¬ (s.xport.tstate = .complete ∧ s.xport.texch = .asyncWtr ∧ i = .tComplete)) :
    t.txBuf = s.txBuf ∧ t.led.inflight = true := by
  have notFree : s.syncReady ≠ true := by
    intro free
    obtain ⟨-, -, -, -, -, -, idle⟩ := (syncReady_iff s).1 free
    exact absurd h (by simp [idle])
  cases he with
  | aside same => exact ⟨same.txBuf, by rw [same.led]; exact h⟩
  | initStarted free => exact absurd free notFree
  | writeStarted free => exact absurd free notFree
  | readStarted free => exact absurd free notFree
  | ledRequested => exact ledRequest_inflight h _
  | exchangeStarted => rw [transportStart_frame]; exact ⟨rfl, h⟩
  | transferred => rw [transportTransfer_frame]; exact ⟨rfl, h⟩
  | completed due => exact completeExchange_inflight h ready fun hx => other ⟨due, hx, rfl⟩
  | ledSent => cases agent
  | ledCompleted => cases agent
  | ledBuilt => cases agent
  | ledValueSet => cases agent
  | _ => exact ⟨rfl, h⟩

theorem completionNext_of_nextInstr {s : State} (h : nextInstr s = .tComplete) : CompletionNext s := by
  obtain ⟨p, bs, rest, hs, hd⟩ := decode_of_nextInstr h (by simp)
  exact ⟨p, bs, rest, hs, hd⟩

/-- Settles O60: an in-flight command means that no host command blocks, so the agent's effect keeps `tx_buf`. -/
theorem ledCommandStaysUntilCompleted : Obligations.LedCommandStaysUntilCompleted := by
  intro s t m rest hex hf hs hm ha hc h
  have ready : s.host = .ready := by
    by_contra hb
    obtain ⟨-, -, -, -, idle⟩ := hex hb
    exact absurd hf (by simp [idle])
  have hr : notReset s = true := by
    cases m with
    | reset => exact absurd rfl hm
    | item p bs => simp [notReset, hs]
    | dev a => simp [notReset, hs]
  obtain ⟨rest', he⟩ := Effect.of_step hr h
  refine he.inflight_kept hf ready (byAgent_nextInstr hs ha) ?_
  rintro ⟨complete, exch, next⟩
  exact hc ⟨complete, exch, completionNext_of_nextInstr next⟩

end Sys2Proof.Machine
end

section
/-! The buffer access rules: what `MemWrite` stores and what it keeps (20_memory.md R61, R62). -/

namespace Sys2Proof.Machine

/-- Least significant byte first: byte `i` of the written range is digit `i` of the value in base 256 (R62, R63). -/
theorem Memory.get_write_inside {size off n : Nat} {m : Memory} (h : Memory.wf size m = true) (hr : off + n ≤ size) (v : Nat)
    {i : Nat} (hi : i < n) : ((m.write off n v).get (off + i)).toNat = v / 256 ^ i % 256 := by
  have inRange : i < (leBytes n v).length := by rwa [leBytes_length]
  have stored : (m.write off n v).get (off + i) = (leBytes n v)[i] := by
    rw [Memory.get_write h hr, if_pos (by omega), Nat.add_sub_cancel_left, List.getD_eq_getElem _ _ inRange]
  rw [stored, leBytes_getElem]

theorem Memory.get_write_outside {size off n a : Nat} {m : Memory} (h : Memory.wf size m = true) (hr : off + n ≤ size) (v : Nat)
    (ha : a < off ∨ off + n ≤ a) : (m.write off n v).get a = m.get a := by
  rw [Memory.get_write h hr, if_neg (by omega)]

theorem Memory.read_write {size off n : Nat} {m : Memory} (h : Memory.wf size m = true) (hr : off + n ≤ size) (v : Nat) :
    (m.write off n v).read off n = v % 256 ^ n := by
  rw [Memory.read, Memory.bytes_write h hr, leNat_leBytes]

/-- Settles O50: the four laws of `MemWrite` for one range inside the buffer. -/
theorem memWriteThenRead : Obligations.MemWriteThenRead := by
  intro m off n v size hr h
  exact ⟨Memory.write_wf h hr v, fun i hi => Memory.get_write_inside h hr v hi,
    fun a ha => Memory.get_write_outside h hr v ha, Memory.read_write h hr v⟩

end Sys2Proof.Machine
end

section
/-! The conditions on the open offsets (20_memory.md R76): a step refuses a set that fails them, and under a set that passes no
operation reaches the fault (log entry 29). -/

namespace Sys2Proof.Machine

/-! ## The conditions -/

/-- R76's conditions in the rule's order; `TP_OFF_NFINGERS` is a byte offset by its type. -/
theorem offsetsFit_iff (p : Params) :
    offsetsFit p = true
      ↔ p.kbdOffCounter ≤ 255 ∧ p.kbdOffMods ≤ 255 ∧ p.kbdOffFn ≤ 255 ∧ p.kbdOffKeys + 5 ≤ 255
        ∧ p.tpOffNFingers.val ≤ 255 ∧ p.tpOffClick ≤ 255 ∧ p.tpOffFingers + 6 * p.fingerStride ≤ 256
        ∧ ∀ o ∈ fingerOffsetList p.fo, o + 2 ≤ p.fingerStride := by
  have nFingers : p.tpOffNFingers.val ≤ 255 := Nat.le_of_lt_succ p.tpOffNFingers.isLt
  simp only [offsetsFit, Bool.and_eq_true, decide_eq_true_eq, List.all_eq_true, nFingers, true_and, and_assoc]

theorem offsetsFit_of_paramsWf {p : Params} (h : paramsWf p = true) : offsetsFit p = true :=
  (Bool.and_eq_true_iff.1 h).1

/-- A field of finger `k` ends with its record, and the sixth record ends inside the packet. -/
theorem fingerField_in_packet {p : Params} {k o : Nat} (fits : offsetsFit p = true) (hk : k < 6)
    (ho : o ∈ fingerOffsetList p.fo) : p.tpOffFingers + k * p.fingerStride + o + 2 ≤ 256 := by
  obtain ⟨-, -, -, -, -, -, records, fields⟩ := (offsetsFit_iff p).1 fits
  calc p.tpOffFingers + k * p.fingerStride + o + 2
      = p.tpOffFingers + k * p.fingerStride + (o + 2) := by omega
    _ ≤ p.tpOffFingers + k * p.fingerStride + p.fingerStride := Nat.add_le_add_left (fields o ho) _
    _ = p.tpOffFingers + (k + 1) * p.fingerStride := by rw [Nat.succ_mul, Nat.add_assoc]
    _ ≤ p.tpOffFingers + 6 * p.fingerStride := Nat.add_le_add_left (Nat.mul_le_mul_right _ hk) _
    _ ≤ 256 := records

theorem step_refused {s : State} (h : offsetsFit s.par ≠ true) : step s = .refused .parameters :=
  if_neg fun wf => h (offsetsFit_of_paramsWf wf)

/-! ## No fault under well-formed offsets -/

/-- An `if` between two meanings that go on goes on. -/
theorem exists_next_ite {c : Prop} [Decidable c] (a b : State) :
    ∃ t, (if c then .next a else .next b : Host.Outcome State Fault Refusal) = .next t := by
  split
  · exact ⟨a, rfl⟩
  · exact ⟨b, rfl⟩

/-- A meaning whose only stop is the fault under ill-formed offsets goes on under well-formed ones. -/
theorem next_of_fits {p : Params} {q : Prop} [Decidable q] (fits : offsetsFit p = true) (f : Fault) (t : State) :
    (if q ∧ offsetsFit p = false then .fault f else .next t : Host.Outcome State Fault Refusal) = .next t :=
  if_neg fun ⟨_, bad⟩ => Bool.false_ne_true (bad.symm.trans fits)

theorem exists_execTComplete_next {s : State} (fits : offsetsFit s.par = true) : ∃ t, execTComplete s = .next t := by
  unfold execTComplete
  rw [next_of_fits fits]
  exact exists_next_ite _ _

/-- Under well-formed offsets every instruction has a next state, in every state. -/
theorem exists_exec_next {s : State} (fits : offsetsFit s.par = true) (i : Instr) : ∃ t, exec i s = .next t := by
  cases i with
  | init => exact exists_next_ite _ _
  | setTunables => exact exists_next_ite _ _
  | wtr => exact exists_next_ite _ _
  | rd => exact exists_next_ite _ _
  | codeToKey => exact exists_next_ite _ _
  | tComplete => exact exists_execTComplete_next fits
  | rdComplete => exact ⟨_, next_of_fits fits _ _⟩
  | dispatch => exact ⟨_, if_pos fits⟩
  | decodeKbd => exact ⟨_, if_pos fits⟩
  | decodeTp => exact ⟨_, if_pos fits⟩
  | pktKeyboard => exact ⟨_, if_pos fits⟩
  | pktTouchpad => exact ⟨_, if_pos fits⟩
  | _ => exact ⟨_, rfl⟩

theorem runReject_ne_fault (x : Reject) (s : State) (r : Fault) : runReject x s ≠ .fault r := by
  cases x <;> simp [runReject]

theorem runItem_ne_fault {s : State} (fits : offsetsFit s.par = true) (p : Port) (bs : List Byte) (r : Fault) :
    runItem p bs s ≠ .fault r := by
  unfold runItem
  split
  · simp
  · split
    · next i _ =>
      obtain ⟨t, ht⟩ := exists_exec_next fits i
      simp [ht]
    · exact runReject_ne_fault _ s r

theorem runStim_ne_fault {s : State} (fits : offsetsFit s.par = true) (m : Stim) (r : Fault) : runStim m s ≠ .fault r := by
  cases m with
  | item p bs => exact runItem_ne_fault fits p bs r
  | dev a => simp [runStim]
  | reset => simp [runStim]

/-- The check of the parameters comes before any operation runs, so no step ends in the fault. -/
theorem step_ne_fault (s : State) (r : Fault) : step s ≠ .fault r := by
  unfold step
  split
  · next wf =>
    split
    · simp
    · next m rest _ => exact runStim_ne_fault (s := { s with stim := rest }) (offsetsFit_of_paramsWf wf) m r
  · simp

/-- Settles O6: `offsetsFit` is R76's conditions; the default set is closed but for the opaque tables, which they do not read. -/
theorem offsetsCheckedOnParameters : Obligations.OffsetsCheckedOnParameters := by
  refine ⟨fun s h => ?_, fun p k o fits hk ho => fingerField_in_packet fits hk ho, step_ne_fault, by decide, by decide⟩
  exact step_refused (mt (offsetsFit_iff s.par).1 h)

end Sys2Proof.Machine
end

section
/-! The decoder on the encoder's bytes, port by port (30_encoding.md R91, R92, R95, R96, R102, R104, R105): the number or tag in front
selects the row, and the row's operands stand where the encoder put them. -/

namespace Sys2Proof

/-! ## Operands of host commands -/

theorem tunablesArg_fields (fnmode : BitVec 2) (iso : Bool) :
    (tunablesArg fnmode iso).extractLsb' 3 5 = 0 ∧ (tunablesArg fnmode iso).extractLsb' 0 2 = fnmode
      ∧ (tunablesArg fnmode iso).getLsbD 2 = iso := by
  revert fnmode iso
  decide

theorem byteOfBool_fields (b : Bool) : (byteOfBool b).extractLsb' 1 7 = 0 ∧ (byteOfBool b).getLsbD 0 = b := by
  revert b
  decide

/-! ## Rows with operands -/

theorem decodeHost_setTunables (fnmode : BitVec 2) (iso : Bool) :
    decodeHost [0x04, tunablesArg fnmode iso] = .ok (.setTunables fnmode iso) := by
  obtain ⟨reserved, mode, isoBit⟩ := tunablesArg_fields fnmode iso
  calc decodeHost [0x04, tunablesArg fnmode iso]
      = .ok (.setTunables ((tunablesArg fnmode iso).extractLsb' 0 2) ((tunablesArg fnmode iso).getLsbD 2)) := if_pos reserved
    _ = .ok (.setTunables fnmode iso) := by rw [mode, isoBit]

theorem decodeHost_ledRequest (on : Bool) : decodeHost [0x50, byteOfBool on] = .ok (.ledRequest on) := by
  obtain ⟨reserved, wanted⟩ := byteOfBool_fields on
  calc decodeHost [0x50, byteOfBool on]
      = .ok (.ledRequest ((byteOfBool on).getLsbD 0)) := if_pos reserved
    _ = .ok (.ledRequest on) := by rw [wanted]

theorem decodeHost_setCal (xMin xMax yMin yMax : Word32) :
    decodeHost (0x05 :: 0x00 :: (encodeWord32 xMin ++ encodeWord32 xMax ++ encodeWord32 yMin ++ encodeWord32 yMax))
      = .ok (.setCal xMin xMax yMin yMax) := by
  generalize hbs : 0x05 :: 0x00 :: (encodeWord32 xMin ++ encodeWord32 xMax ++ encodeWord32 yMin ++ encodeWord32 yMax) = bs
  have row : decodeHost bs = .ok (.setCal (wordAt 32 bs 2 4) (wordAt 32 bs 6 4) (wordAt 32 bs 10 4) (wordAt 32 bs 14 4)) := by
    rw [← hbs]; rfl
  have fields : wordAt 32 bs 2 4 = xMin ∧ wordAt 32 bs 6 4 = xMax ∧ wordAt 32 bs 10 4 = yMin ∧ wordAt 32 bs 14 4 = yMax := by
    refine ⟨word32At_exact (a := [0x05, 0x00]) (t := encodeWord32 xMax ++ encodeWord32 yMin ++ encodeWord32 yMax) ?_ ?_,
      word32At_exact (a := [0x05, 0x00] ++ encodeWord32 xMin) (t := encodeWord32 yMin ++ encodeWord32 yMax) ?_ ?_,
      word32At_exact (a := [0x05, 0x00] ++ encodeWord32 xMin ++ encodeWord32 xMax) (t := encodeWord32 yMax) ?_ ?_,
      word32At_exact (a := [0x05, 0x00] ++ encodeWord32 xMin ++ encodeWord32 xMax ++ encodeWord32 yMin) (t := []) ?_ ?_⟩ <;>
      simp [← hbs]
  obtain ⟨h0, h1, h2, h3⟩ := fields
  rw [row, h0, h1, h2, h3]

theorem decodeHost_wtr (tx : Packet) : decodeHost (0x10 :: 0x00 :: tx.toList) = .ok (.wtr tx) := by
  have operand : bytesAt (0x10 :: 0x00 :: tx.toList) 2 256 = tx := by
    simpa using bytesAt_exact [0x10, 0x00] [] tx 2 rfl
  exact congrArg (Except.ok ∘ Instr.wtr) operand

theorem decodeOp_rdComplete (o : XferOutcome) (h : rdOutcomeOk o = true) :
    decodeOp [0x07, encodeOutcome o] = .ok (.rdComplete o) := by
  cases o with
  | ok => rfl
  | failTransport => rfl
  | failProtocol => cases h

theorem decodeOp_crc16 (d : List Byte) (h : crcLengthOk d.length = true) :
    decodeOp (0x23 :: (leBytes 2 d.length ++ d)) = .ok (.crc16 d) := by
  have toNat : (BitVec.ofNat 16 d.length).toNat = d.length := Nat.mod_eq_of_lt (of_decide_eq_true h)
  have length : wordAt 16 (0x23 :: (leBytes 2 d.length ++ d)) 1 2 = BitVec.ofNat 16 d.length :=
    wordAt_exact (a := [0x23]) (t := d) (by rw [toNat]; rfl) rfl rfl
  have operand : slice (0x23 :: (leBytes 2 d.length ++ d)) 3 d.length = d := by
    simpa using slice_exact (0x23 :: leBytes 2 d.length) d []
  calc decodeOp (0x23 :: (leBytes 2 d.length ++ d))
      = .ok (.crc16 (slice (0x23 :: (leBytes 2 d.length ++ d)) 3 (wordAt 16 (0x23 :: (leBytes 2 d.length ++ d)) 1 2).toNat)) := rfl
    _ = .ok (.crc16 d) := by rw [length, toNat, operand]

theorem decodeKeyFrame_operand (op : Byte) (f : KeyboardFrame) : decodeKeyFrame (op :: encodeKeyFrame f) 1 = f :=
  decodeKeyFrame_encodeKeyFrame (a := [op]) (t := []) (by simp) rfl

theorem decodeTouchFrame_operand (op : Byte) (f : TouchpadFrame) : decodeTouchFrame (op :: encodeTouchFrame f) 1 = f :=
  decodeTouchFrame_encodeTouchFrame (a := [op]) (t := []) (by simp) rfl

theorem decodeFinger_operand (op : Byte) (f : FingerRec) : decodeFinger (op :: encodeFinger f) 1 = f :=
  decodeFinger_encodeFinger (a := [op]) (t := []) (by simp) rfl

theorem decodeTpAssign_encode (pos : List Pos) (h : fingerCountOk pos.length = true) :
    decodeTpAssign (0x43 :: BitVec.ofNat 8 pos.length :: pos.flatMap encodePos) = some (.tpAssign pos) := by
  have atMost : pos.length ≤ 6 := of_decide_eq_true h
  have count : (byteAt (0x43 :: BitVec.ofNat 8 pos.length :: pos.flatMap encodePos) 1).toNat = pos.length :=
    Nat.mod_eq_of_lt (by omega)
  have operand : decodePosList (0x43 :: BitVec.ofNat 8 pos.length :: pos.flatMap encodePos) pos.length 2 = pos :=
    decodePosList_flatMap pos (a := [0x43, BitVec.ofNat 8 pos.length]) (t := []) (by simp) rfl
  rw [decodeTpAssign, count, if_pos atMost, operand]

/-! ## Packets -/

theorem tagsDistinct_iff (t : Tags) :
    Machine.tagsDistinct t = true ↔ t.keyboard ≠ t.touchpad ∧ t.keyboard ≠ t.nothing ∧ t.touchpad ≠ t.nothing := by
  simp [Machine.tagsDistinct, and_assoc]

theorem wordAt_encodeTag (tag : Word16) (rest : List Byte) : wordAt 16 (encodeTag tag ++ rest) 0 2 = tag :=
  wordAt_exact (a := []) (t := rest) rfl rfl rfl

theorem bytesAt_payload (tag : Word16) (payload : Vector Byte 254) : bytesAt (encodeTag tag ++ payload.toList) 2 254 = payload := by
  simpa using bytesAt_exact (encodeTag tag) [] payload 2 (leBytes_length 2 tag.toNat).symm

/-- A packet's row follows its tag (R92, R94). -/
theorem decodePacket_encodeTag (t : Tags) (tag : Word16) (payload : Vector Byte 254) :
    decodePacket t (encodeTag tag ++ payload.toList)
      = if tag = t.nothing then .ok (.pktNothing payload) else if tag = t.keyboard then .ok (.pktKeyboard payload)
        else if tag = t.touchpad then .ok (.pktTouchpad payload) else .error (.unknownTag tag) := by
  simp only [decodePacket, wordAt_encodeTag, bytesAt_payload]

/-! ## Each port -/

theorem decodeHost_encode (t : Tags) {i : Instr} (port : portOfInstr i = .host) : decodeHost (encode t i) = .ok i := by
  cases i with
  | nop | init | shutdown | rd => rfl
  | cfgLoad entries => exact congrArg (Except.ok ∘ Instr.cfgLoad) (decodeCfg_flatMap 0x01 0x00 entries)
  | setTunables fnmode iso => exact decodeHost_setTunables fnmode iso
  | setCal xMin xMax yMin yMax => exact decodeHost_setCal xMin xMax yMin yMax
  | wtr tx => exact decodeHost_wtr tx
  | ledRequest on => exact decodeHost_ledRequest on
  | _ => cases port

theorem decodeOp_encode (t : Tags) {i : Instr} (port : portOfInstr i = .op) (wf : i.wellFormed = true) :
    decodeOp (encode t i) = .ok i := by
  cases i with
  | gpe | dispatch | rda | wtra | statusCheck | tStart | tXfer | tComplete | classify | decodeKbd | decodeTp | crcCheck | ledSend => rfl
  | rdComplete o => exact decodeOp_rdComplete o wf
  | crc16 d => exact decodeOp_crc16 d wf
  | buildLed n on => exact congrArg (Except.ok ∘ Instr.buildLed n) (boolOf_byteOfBool on)
  | kbdApply f => exact congrArg (Except.ok ∘ Instr.kbdApply) (decodeKeyFrame_operand 0x30 f)
  | codeToKey code fn => exact congrArg (Except.ok ∘ Instr.codeToKey code) (boolOf_byteOfBool fn)
  | tpApply f => exact congrArg (Except.ok ∘ Instr.tpApply) (decodeTouchFrame_operand 0x40 f)
  | tpFilter f => exact congrArg (Except.ok ∘ Instr.tpFilter) (decodeTouchFrame_operand 0x41 f)
  | tpXform f => exact congrArg (Except.ok ∘ Instr.tpXform) (decodeFinger_operand 0x42 f)
  | tpAssign pos => exact congrArg (orBad 0x43) (decodeTpAssign_encode pos wf)
  | tpEmit f entries released => exact congrArg (orBad 0x44) (decodeTpEmit_encode t f entries released (of_decide_eq_true wf))
  | ledComplete o => cases o <;> rfl
  | _ => cases port

/-- The tags must be distinct: the decoder tries them one after the other (41_codec.md R171). -/
theorem decodePacket_encode {t : Tags} (distinct : Machine.tagsDistinct t = true) {i : Instr} (port : portOfInstr i = .packet) :
    decodePacket t (encode t i) = .ok i := by
  obtain ⟨keyboardTouchpad, keyboardNothing, touchpadNothing⟩ := (tagsDistinct_iff t).1 distinct
  cases i with
  | pktNothing payload => exact (decodePacket_encodeTag t _ payload).trans (if_pos rfl)
  | pktKeyboard payload =>
    refine (decodePacket_encodeTag t _ payload).trans ?_
    rw [if_neg keyboardNothing, if_pos rfl]
  | pktTouchpad payload =>
    refine (decodePacket_encodeTag t _ payload).trans ?_
    rw [if_neg touchpadNothing, if_neg keyboardTouchpad.symm, if_pos rfl]
  | _ => cases port

/-- Settles O10: the decoder of the instruction's own port reads it back. -/
theorem decodeInvertsEncode : Obligations.DecodeInvertsEncode := by
  intro t i distinct wf
  cases port : portOfInstr i with
  | host => exact decodeHost_encode t port
  | op => exact decodeOp_encode t port wf
  | packet => exact decodePacket_encode distinct port
  | status =>
    cases i with
    | statusAccept => rfl
    | _ => cases port
  | ledVal =>
    cases i with
    | ledcmdVal on => cases on <;> rfl
    | _ => cases port

/-! ## Table words -/

/-- Settles O9: the decoder evaluated on ten words. -/
theorem tableWordsDecode : Obligations.TableWordsDecode := by
  unfold Obligations.TableWordsDecode
  decide +kernel

end Sys2Proof
end

section
/-! Host words that 30_encoding.md R104's table does not define (R106 (5)). -/

namespace Sys2Proof

/-! ## The rows of the table -/

theorem noArg_of_ne {arg : Byte} (h : arg ≠ 0) (op : Byte) (i : Instr) : noArg op arg i = .error (.usage op) := if_neg h

/-- The reserved bits of `SET_TUNABLES`: a field to the decoder, a mask in R104. -/
theorem and_F8_of_extract {arg : Byte} : arg.extractLsb' 3 5 = 0 → arg &&& 0xF8 = 0 := by
  revert arg
  decide +kernel

/-- The reserved bits of `LED_REQUEST`: a field to the decoder, a mask in R104. -/
theorem and_FE_of_extract {arg : Byte} : arg.extractLsb' 1 7 = 0 → arg &&& 0xFE = 0 := by
  revert arg
  decide +kernel

/-- The commands of R104's table without an argument. -/
def plainCommands : List Byte := [0x00, 0x01, 0x02, 0x03, 0x05, 0x10, 0x11]

/-- What makes a host word undefined, by its operation number (R104). -/
theorem hostWordDefined_eq_false_iff (op arg : Byte) :
    Machine.hostWordDefined op arg = false
      ↔ (op ∈ plainCommands → arg ≠ 0) ∧ (op = 0x04 → arg &&& 0xF8 ≠ 0) ∧ (op = 0x50 → arg &&& 0xFE ≠ 0) := by
  have table : Machine.hostWordDefined op arg
      = (plainCommands.contains op && arg == 0 || op == 0x04 && arg &&& 0xF8 == 0 || op == 0x50 && arg &&& 0xFE == 0) := rfl
  rw [← Bool.not_eq_true, table]
  simp only [Bool.or_eq_true, Bool.and_eq_true, List.contains_iff_mem, beq_iff_eq, not_or, not_and, and_assoc, ne_eq]

/-- An undefined word is rejected in its row if the table has its operation number, and after the last row otherwise. -/
theorem decodeHost_undefined {bs : List Byte} (h : Machine.hostWordDefined (byteAt bs 0) (byteAt bs 1) = false) :
    decodeHost bs = .error (.usage (byteAt bs 0)) := by
  obtain ⟨noArgument, tunables, led⟩ := (hostWordDefined_eq_false_iff _ _).1 h
  have plain (c : Byte) (hc : c ∈ plainCommands) (i : Instr) (hop : byteAt bs 0 = c) :
      noArg (byteAt bs 0) (byteAt bs 1) i = .error (.usage (byteAt bs 0)) := noArg_of_ne (noArgument (hop ▸ hc)) _ i
  exact ite_eq_iff'.2 ⟨plain 0x00 (by decide) _, fun _ => ite_eq_iff'.2 ⟨plain 0x01 (by decide) _, fun _ =>
    ite_eq_iff'.2 ⟨plain 0x02 (by decide) _, fun _ => ite_eq_iff'.2 ⟨plain 0x03 (by decide) _, fun _ =>
    ite_eq_iff'.2 ⟨fun hop => if_neg (mt and_F8_of_extract (tunables hop)), fun _ => ite_eq_iff'.2 ⟨plain 0x05 (by decide) _, fun _ =>
    ite_eq_iff'.2 ⟨plain 0x10 (by decide) _, fun _ => ite_eq_iff'.2 ⟨plain 0x11 (by decide) _, fun _ =>
    ite_eq_iff'.2 ⟨fun hop => if_neg (mt and_FE_of_extract (led hop)), fun _ => rfl⟩⟩⟩⟩⟩⟩⟩⟩⟩

/-! ## The step -/

namespace Machine

/-- An item of an open port that decodes to none has the effect of its rejection. -/
theorem runItem_error {p : Port} {bs : List Byte} {s : State} {r : Reject} (hc : portClosed p bs s = false)
    (hd : decode s.par.tags p bs = .error r) : runItem p bs s = runReject r s := by
  unfold runItem
  rw [if_neg (by simp [hc]), hd]

/-- The host's port is open to a host that is not blocked, and to the sink's word always (45_system.md R280). -/
theorem portClosed_host_false {bs : List Byte} {s : State} (h : s.host = .ready ∨ byteAt bs 0 = 0x50) :
    portClosed .host bs s = false := by
  rcases h with h | h <;> simp [portClosed, fromSink, h]

/-- `UsageError` has code 5 (60_exceptions.md R300). -/
theorem raise_usageError (op : Byte) (s : State) :
    s.raise (.usageError op) = { s with err := s.err ||| 0b100000, log := s.log ++ [.err (.usageError op)] } := rfl

/-- Settles O5: the undefined word is rejected by the decoder, and its rejection is the error action. -/
theorem reservedHostWordRaisesUsageError : Obligations.ReservedHostWordRaisesUsageError := by
  intro s bs rest hwf hstim hopen undef
  have opened : portClosed .host bs { s with stim := rest } = false := portClosed_host_false hopen
  have run : step s = .next (State.raise (.usageError (byteAt bs 0)) { s with stim := rest }) :=
    calc step s
      _ = runItem .host bs { s with stim := rest } := step_cons hwf hstim
      _ = runReject (.usage (byteAt bs 0)) { s with stim := rest } := runItem_error opened (decodeHost_undefined undef)
  rw [run, raise_usageError]

end Machine

end Sys2Proof
end

section
/-! The data formats as instructions (30_encoding.md R91 to R97, R100): a packet goes to the operation of its tag, the accepted status
and the LED value byte go to their buffers (log entries 18 to 20). -/

namespace Sys2Proof.Machine

/-! ## A packet as a buffer -/

/-- The tag comes first, least significant byte first (R91, 20_memory.md R61). -/
theorem encodeTag_eq (tag : Word16) : encodeTag tag = [tag.extractLsb' 0 8, tag.extractLsb' 8 8] := by
  simp [encodeTag, leBytes, BitVec.extractLsb', Nat.shiftRight_eq_div_pow]

theorem get_packetMemory (tag : Word16) (payload : Vector Byte 254) (a : Nat) :
    (packetMemory tag payload).get a = packetByte tag payload a := by
  have bytes : packetMemory tag payload = Memory.load (tag.extractLsb' 0 8 :: tag.extractLsb' 8 8 :: payload.toList) :=
    congrArg (fun front => Memory.load (front ++ payload.toList)) (encodeTag_eq tag)
  rw [bytes, Memory.get_load]
  match a with
  | 0 => rfl
  | 1 => rfl
  | a + 2 => rfl

/-- The class of a packet is that of its tag (41_codec.md R171). -/
theorem classifyPacket_packetMemory (t : Tags) (tag : Word16) (payload : Vector Byte 254) :
    classifyPacket t (packetMemory tag payload) = classifyTag t tag := by
  have read : le16 (packetMemory tag payload) 0 = tag := by
    rw [le16_eq, get_packetMemory, get_packetMemory]
    exact (BitVec.extractLsb'_append_extractLsb'_eq_extractLsb' rfl).trans BitVec.extractLsb'_eq_self
  rw [classifyPacket, read]

section

variable {t : Tags}

theorem classifyTag_nothing : classifyTag t t.nothing = .nothing := if_pos rfl

theorem classifyTag_keyboard (distinct : tagsDistinct t = true) : classifyTag t t.keyboard = .keyboard := by
  obtain ⟨-, keyboardNothing, -⟩ := (tagsDistinct_iff t).1 distinct
  rw [classifyTag, if_neg keyboardNothing, if_pos rfl]

theorem classifyTag_touchpad (distinct : tagsDistinct t = true) : classifyTag t t.touchpad = .touchpad := by
  obtain ⟨keyboardTouchpad, -, touchpadNothing⟩ := (tagsDistinct_iff t).1 distinct
  rw [classifyTag, if_neg touchpadNothing, if_neg keyboardTouchpad.symm, if_pos rfl]

end

/-! ## Dispatch by class (45_system.md R287) -/

section

variable {m : Memory} {s : State}

theorem dispatchPacket_nothing (h : classifyPacket s.par.tags m = .nothing) : dispatchPacket m s = s := by
  rw [dispatchPacket, h]

theorem dispatchPacket_keyboard (h : classifyPacket s.par.tags m = .keyboard) :
    dispatchPacket m s = kbdApply (keyFrameOf s.par m) s := by
  rw [dispatchPacket, h]

theorem dispatchPacket_touchpad (h : classifyPacket s.par.tags m = .touchpad) :
    dispatchPacket m s = tpApply (touchFrameOf s.par m) s := by
  rw [dispatchPacket, h]

end

/-! ## The keyboard frame -/

theorem keyFrameOf_keys (p : Params) (m : Memory) (i : Fin 6) : (keyFrameOf p m).keys[i] = m.get (p.kbdOffKeys + i.val) := by
  match i with
  | 0 | 1 | 2 | 3 | 4 | 5 => rfl

theorem flagAt_iff (m : Memory) (off : Nat) : flagAt m off = true ↔ m.get off ≠ 0 := bne_iff_ne

/-! ## The rows -/

theorem exec_pktKeyboard {s : State} (fits : offsetsFit s.par = true) (distinct : tagsDistinct s.par.tags = true)
    (payload : Vector Byte 254) :
    exec (.pktKeyboard payload) s = .next (kbdApply (keyFrameOf s.par (packetMemory s.par.tags.keyboard payload)) s) := by
  have keyboard := (classifyPacket_packetMemory s.par.tags _ payload).trans (classifyTag_keyboard distinct)
  rw [← dispatchPacket_keyboard keyboard]
  exact if_pos fits

theorem exec_pktTouchpad {s : State} (fits : offsetsFit s.par = true) (distinct : tagsDistinct s.par.tags = true)
    (payload : Vector Byte 254) :
    exec (.pktTouchpad payload) s = .next (tpApply (touchFrameOf s.par (packetMemory s.par.tags.touchpad payload)) s) := by
  have touchpad := (classifyPacket_packetMemory s.par.tags _ payload).trans (classifyTag_touchpad distinct)
  rw [← dispatchPacket_touchpad touchpad]
  exact if_pos fits

theorem exec_pktNothing (payload : Vector Byte 254) (s : State) : exec (.pktNothing payload) s = .next s := by
  have nothing := (classifyPacket_packetMemory s.par.tags _ payload).trans classifyTag_nothing
  exact congrArg Host.Outcome.next (dispatchPacket_nothing nothing)

/-- Settles O48: the frames are those of the buffer that holds the packet, whose bytes are the packet's. -/
theorem packetRowsDispatch : Obligations.PacketRowsDispatch := by
  intro payload s fits distinct
  refine ⟨⟨keyFrameOf s.par (packetMemory s.par.tags.keyboard payload), _, exec_pktKeyboard fits distinct payload, rfl,
      get_packetMemory _ _ _, get_packetMemory _ _ _, fun i => ?_, ?_⟩,
    ⟨packetMemory s.par.tags.touchpad payload, _, exec_pktTouchpad fits distinct payload, rfl, fun a _ => get_packetMemory _ _ a⟩,
    exec_pktNothing payload s⟩
  · rw [keyFrameOf_keys, get_packetMemory]
  · rw [← get_packetMemory]
    exact flagAt_iff _ _

/-! ## The status and the LED value byte -/

/-- The accepted pattern passes its own check (40_transport.md R144). -/
theorem statusAccepted_load : statusAccepted (Memory.load statusAcceptBytes) = true := by decide

theorem get_write_ledValue {m : Memory} (h : Memory.wf packetLen m = true) (on : Bool) (a : Nat) :
    (m.write 17 1 (ledValueByte on).toNat).get a = if a = 17 then ledValueByte on else m.get a := by
  rw [Memory.get_write h (by decide)]
  by_cases ha : a = 17
  · subst ha
    simp [leBytes]
  · rw [if_neg (by omega), if_neg ha]

/-- Settles O49: the status is loaded whole, and the value byte is one byte written. -/
theorem statusAndLedValueRows : Obligations.StatusAndLedValueRows := by
  refine ⟨fun s => ⟨_, rfl, ?_, rfl, Memory.load_wf statusAcceptBytes (by decide)⟩,
    fun on s h => ⟨_, rfl, rfl, ?_, fun a ha => ?_, Memory.write_wf h (by decide) _⟩⟩
  · rw [receiveStatusWord, statusAccepted_load]
    rfl
  · exact (get_write_ledValue h on 17).trans (if_pos rfl)
  · exact (get_write_ledValue h on a).trans (if_neg ha)

end Sys2Proof.Machine
end

section
/-! The buffers as the Transport's claims read them, and the verdict on a write status (20_memory.md R61, R62; 40_transport.md R144). -/

namespace Sys2Proof.Machine

theorem firstBytes_eq_bytes (m : Memory) (n : Nat) : firstBytes m n = m.bytes 0 n := by
  rw [firstBytes, Memory.bytes, List.range_eq_range']

theorem firstBytes_load {bs : List Byte} {n : Nat} (h : bs.length = n) : firstBytes (Memory.load bs) n = bs := by
  rw [firstBytes_eq_bytes, ← h, Memory.bytes_load]

/-- A packet that fills its buffer is what the buffer holds. -/
theorem firstBytes_load_packet (p : Packet) : firstBytes (Memory.load p.toList) 256 = p.toList :=
  firstBytes_load p.length_toList

theorem load_packet_wf (p : Packet) : Memory.wf packetLen (Memory.load p.toList) = true :=
  Memory.load_wf p.toList p.length_toList.le

/-- The check compares the four bytes with the pattern of 30_encoding.md R95. -/
theorem statusAccepted_iff (m : Memory) : statusAccepted m = true ↔ firstBytes m 4 = [0xAC, 0x27, 0x68, 0xD5] := by
  rw [firstBytes_eq_bytes, statusAccepted, beq_iff_eq]
  rfl

/-- Settles O40: the four bytes are equal to the pattern exactly if each one is. -/
theorem statusCheckComparesFourBytes : Obligations.StatusCheckComparesFourBytes := by
  intro s
  have bytes : firstBytes s.txStatus 4 = [s.txStatus.get 0, s.txStatus.get 1, s.txStatus.get 2, s.txStatus.get 3] := rfl
  refine ⟨statusAccepted s.txStatus, rfl, ?_⟩
  rw [statusAccepted_iff, bytes]
  simp only [List.cons.injEq, and_true]

end Sys2Proof.Machine
end

section
/-! How an exchange begins: the blocking commands inside and outside their window, and `T_START` (40_transport.md R137, R145, R146;
45_system.md R283, R291). -/

namespace Sys2Proof.Machine

/-! ## The blocking commands -/

/-- Outside the window the guard of a blocking command takes its second branch. -/
theorem exec_blocking_refused {s : State} {i : Instr} {op : Byte}
    (command : i = .init ∧ op = 0x02 ∨ (∃ tx : Packet, i = .wtr tx ∧ op = 0x10) ∨ i = .rd ∧ op = 0x11)
    (closed : ¬ s.syncReady = true) : exec i s = .next (s.refuse op) := by
  rcases command with ⟨rfl, rfl⟩ | ⟨tx, rfl, rfl⟩ | ⟨rfl, rfl⟩ <;> exact if_neg closed

/-- Settles O17: the window is the guard, and the refusal writes `ERR`, the log and the returns alone. -/
theorem blockingCommandRefusedOutsideWindow : Obligations.BlockingCommandRefusedOutsideWindow := by
  intro s i op command outside
  exact exec_blocking_refused command (mt (syncReady_iff s).1 outside)

theorem exec_wtr {s : State} (free : s.syncReady = true) (tx : Packet) :
    exec (.wtr tx) s = .next (s.startSyncWrite .wtr tx) := if_pos free

theorem exec_rd {s : State} (free : s.syncReady = true) :
    exec .rd s = .next { s.startExchange .syncRd .rdArm with host := .rd } := if_pos free

/-- Settles O39: inside the window both commands start their exchange. -/
theorem wtrAndRdStartExchange : Obligations.WtrAndRdStartExchange := by
  intro s configured unarmed undone idle noRead noWrite noLed
  have free : s.syncReady = true := (syncReady_iff s).2 ⟨configured, unarmed, undone, idle, noRead, noWrite, noLed⟩
  exact ⟨fun tx => ⟨_, exec_wtr free tx, rfl, firstBytes_load_packet tx, load_packet_wf tx⟩, exec_rd free⟩

/-! ## `T_START` -/

section

variable {s : State}

theorem transportStart_read (idle : s.xport.tstate = .idle) (read : s.xport.rdPending = true) (noWrite : s.xport.wrPending = false) :
    transportStart s = startRead s := by
  rw [transportStart, if_neg (not_not.2 idle), read, noWrite]

theorem transportStart_write (idle : s.xport.tstate = .idle) (noRead : s.xport.rdPending = false) (write : s.xport.wrPending = true) :
    transportStart s = startWrite s := by
  rw [transportStart, if_neg (not_not.2 idle), noRead, write]

/-- Both requests pending: the free choice is drawn (R137; log entry 11). -/
theorem transportStart_both (idle : s.xport.tstate = .idle) (read : s.xport.rdPending = true) (write : s.xport.wrPending = true) :
    transportStart s = if Config.arbReadFirst s.draws then startRead s.drawn else startWrite s.drawn := by
  rw [transportStart, if_neg (not_not.2 idle), read, write]

theorem transportStart_disabled
    (h : s.xport.tstate ≠ .idle ∨ (s.xport.rdPending = false ∧ s.xport.wrPending = false)) : transportStart s = s := by
  rcases h with busy | ⟨noRead, noWrite⟩
  · exact if_pos busy
  · rw [transportStart, noRead, noWrite]
    exact ite_self s

end

theorem exec_tStart {s t : State} (h : transportStart s = t) : exec .tStart s = .next t := congrArg Host.Outcome.next h

/-- Settles O41: the four cases of `T_START`; drawing the choice only counts. -/
theorem tStartStartsPendingExchange : Obligations.TStartStartsPendingExchange := by
  rintro s _ _ rfl rfl
  refine ⟨fun idle read noWrite => exec_tStart (transportStart_read idle read noWrite),
    fun idle noRead write => exec_tStart (transportStart_write idle noRead write),
    fun idle read write => exec_tStart ((transportStart_both idle read write).trans ?_),
    fun disabled => exec_tStart (transportStart_disabled disabled)⟩
  cases Config.arbReadFirst s.draws <;> rfl

end Sys2Proof.Machine
end

section
/-! One transfer of an exchange, with the device answering in full and failing (40_transport.md R138 to R142). -/

namespace Sys2Proof.Machine

/-- The result of a failed transfer has its sign bit set (R133). -/
theorem failResult_neg (low : BitVec 31) : (failResult low).toInt < 0 := by
  have sign : (failResult low).msb = true := by
    rw [failResult, BitVec.msb_append]
    rfl
  exact of_decide_eq_true ((tRes_msb _).symm.trans sign)

theorem exec_tXfer {s t : State} (h : transportTransfer s = t) : exec .tXfer s = .next t := congrArg Host.Outcome.next h

/-- Settles O42: each phase performs its own transfer, and a receive buffer holds what was received. -/
theorem tXferMovesOneTransfer : Obligations.TXferMovesOneTransfer := by
  refine ⟨fun s arm => exec_tXfer (transportTransfer_arm arm), fun s data rest answer => ?_⟩
  obtain ⟨wrCmd, wrStatus, wrResp, rdData⟩ := transportTransfer_answer answer
  have statusLength : (data.toList.take statusLen).length = 4 := by simp [statusLen]
  refine ⟨fun h => ?_, fun h => ⟨_, exec_tXfer (wrStatus h), rfl, firstBytes_load statusLength, ?_⟩,
    fun h => ⟨_, exec_tXfer (wrResp h), rfl, firstBytes_load_packet data, load_packet_wf data⟩,
    fun h => ⟨_, exec_tXfer (rdData h), rfl, firstBytes_load_packet data, load_packet_wf data⟩⟩
  · rw [firstBytes_eq_bytes]
    exact exec_tXfer (wrCmd h)
  · exact Memory.load_wf _ statusLength.le

/-- Settles O43: each phase ends with the negative result; the free bytes fill the buffer exactly. -/
theorem tXferFailureEndsExchange : Obligations.TXferFailureEndsExchange := by
  rintro s low rest _ answer rfl
  obtain ⟨wrCmd, wrStatus, wrResp, rdData⟩ := transportTransfer_answer answer
  have packetWf : Memory.wf packetLen (Memory.load (freeBytes s.draws packetLen)) = true :=
    Memory.load_wf _ (freeBytes_length _ _).le
  refine ⟨failResult_neg low, fun h => ?_,
    fun h => ⟨_, exec_tXfer (wrStatus h), rfl, Memory.load_wf _ (freeBytes_length _ _).le⟩, ?_⟩
  · have wire : s.wire ++ [.tx (firstBytes s.txBuf 256), .cs false] = s.wire ++ [.tx (s.txBuf.bytes 0 packetLen)] ++ [.cs false] := by
      rw [firstBytes_eq_bytes, List.append_assoc]
      rfl
    rw [wire]
    exact exec_tXfer (wrCmd h)
  · rintro (h | h)
    · exact ⟨_, exec_tXfer (wrResp h), rfl, packetWf⟩
    · exact ⟨_, exec_tXfer (rdData h), rfl, packetWf⟩

end Sys2Proof.Machine
end

section
/-! How an exchange ends: the verdict of the completion step, and what each kind of exchange makes of it (40_transport.md R143;
44_led_queue.md R264; 45_system.md R283, R286). -/

namespace Sys2Proof.Machine

/-! ## Verdicts -/

/-- The outcome and the error action that the write verdict of 60_exceptions.md R310 states are the ones the completion computes. -/
theorem WriteVerdict.eq_raiseOutcome {s s1 : State} {o : XferOutcome} (h : WriteVerdict s o s1) :
    o = writeOutcome s ∧ s1 = raiseOutcome (writeOutcome s) s := by
  rcases h with ⟨neg, rfl, rfl⟩ | ⟨pos, mismatch, rfl, rfl⟩ | ⟨pos, accepted, rfl, none⟩
  · have outcome : writeOutcome s = .failTransport := if_pos ((tRes_msb _).trans (decide_eq_true neg))
    rw [outcome]
    exact ⟨rfl, rfl⟩
  · have outcome : writeOutcome s = .failProtocol := by
      rw [writeOutcome, tRes_msb, decide_eq_false (by omega), if_neg Bool.false_ne_true, if_neg (mt (statusAccepted_iff _).1 mismatch)]
    rw [outcome, ← read_four]
    exact ⟨rfl, rfl⟩
  · have outcome : writeOutcome s = .ok := by
      rw [writeOutcome, tRes_msb, decide_eq_false (by omega), if_neg Bool.false_ne_true, if_pos ((statusAccepted_iff _).2 accepted)]
    rw [outcome]
    exact ⟨rfl, none⟩

theorem ReadVerdict.eq_raiseOutcome {s s1 : State} {o : XferOutcome} (h : ReadVerdict s o s1) :
    o = readOutcome s ∧ s1 = raiseOutcome (readOutcome s) s := by
  rcases h with ⟨neg, rfl, rfl⟩ | ⟨pos, rfl, none⟩
  · have outcome : readOutcome s = .failTransport := if_pos ((tRes_msb _).trans (decide_eq_true neg))
    rw [outcome]
    exact ⟨rfl, rfl⟩
  · have outcome : readOutcome s = .ok := by
      rw [readOutcome, tRes_msb, decide_eq_false (by omega), if_neg Bool.false_ne_true]
    rw [outcome]
    exact ⟨rfl, none⟩

/-! ## The completion step goes on -/

/-- Only the read exchange of the event path decodes a packet, so only it needs the offsets to fit. -/
theorem exec_tComplete {s : State} (due : s.xport.tstate = .complete) (fits : s.xport.texch = .asyncRd → offsetsFit s.par = true) :
    exec .tComplete s = .next (completeExchange s) := by
  have goes : ¬ (willDispatch s = true ∧ offsetsFit s.par = false) := by
    rintro ⟨dispatches, unfit⟩
    have eventPath : s.xport.texch = .asyncRd := of_decide_eq_true (Bool.and_eq_true_iff.1 dispatches).1
    exact Bool.false_ne_true (unfit.symm.trans (fits eventPath))
  exact (if_neg (not_not.2 due)).trans (if_neg goes)

/-- The completion of a write exchange cannot fault. -/
theorem exec_tComplete_of_write {s : State} (due : s.xport.tstate = .complete)
    (write : s.xport.texch = .syncWtr ∨ s.xport.texch = .asyncWtr) : exec .tComplete s = .next (completeExchange s) :=
  exec_tComplete due fun read => by rcases write with h | h <;> cases h.symm.trans read

/-! ## The return of a synchronous write -/

section

variable {s : State} {k : Nat}

theorem returnWrite_wtr (host : s.host = .wtr) (o : XferOutcome) :
    returnWrite o s = s.giveBack (.wtr o (firstBytes s.txStatus 4) (firstBytes s.rxBuf 256)) := by
  rw [returnWrite, host, firstBytes_eq_bytes, firstBytes_eq_bytes]
  rfl

theorem returnWrite_init_failed (host : s.host = .init k) {o : XferOutcome} (failed : o ≠ .ok) :
    returnWrite o s = s.giveBack (.init o) := by
  rw [returnWrite, host]
  exact if_neg failed

theorem returnWrite_init_ok (host : s.host = .init k) : returnWrite .ok s = initFrom (k + 1) s := by
  rw [returnWrite, host]
  rfl

end

theorem initFrom_packet {s : State} {k : Nat} {p : Packet} (h : s.par.initPackets[k]? = some p) :
    initFrom k s = s.startSyncWrite (.init k) p := by
  rw [initFrom, h]

theorem initFrom_end {s : State} {k : Nat} (h : s.par.initPackets.length ≤ k) :
    initFrom k s = (s.setMode true).giveBack (.init .ok) := by
  rw [initFrom, List.getElem?_eq_none h]

/-! ## The completions -/

/-- `WTR` returns the outcome with the bytes that its exchange left in the two buffers. -/
theorem completeExchange_wtr {s : State} (write : s.xport.texch = .syncWtr) (host : s.host = .wtr) :
    completeExchange s
      = { freeChannel (raiseOutcome (writeOutcome s) s) with
          host := .ready
          returns := s.returns ++ [.wtr (writeOutcome s) (firstBytes s.txStatus 4) (firstBytes s.rxBuf 256)] } := by
  have waits : (freeChannel (raiseOutcome (writeOutcome s) s)).host = .wtr := (SameControl.raiseOutcome _ s).host.trans host
  rw [(completeExchange_eq s).1 write, returnWrite_wtr waits]
  cases writeOutcome s <;> rfl

/-- Settles O44: the verdict's state is freed, and then `WTR` returns or the LED handler runs. -/
theorem tCompleteEndsWrite : Obligations.TCompleteEndsWrite := by
  rintro s s1 freed o due verdict rfl
  obtain ⟨rfl, rfl⟩ := verdict.eq_raiseOutcome
  obtain ⟨-, -, -, asyncWtr, -⟩ := completeExchange_eq s
  refine ⟨fun write host => ?_, fun write => ⟨_, exec_tComplete_of_write due (.inr write), ?_⟩⟩
  · rw [exec_tComplete_of_write due (.inl write), completeExchange_wtr write host]
    rfl
  · rw [asyncWtr write]
    rfl

/-- Settles O45: the outcome decides between the end of `INIT` and its loop, and the packet list ends the loop. -/
theorem tCompleteContinuesInit : Obligations.TCompleteContinuesInit := by
  rintro s s1 freed o k due write host verdict rfl
  obtain ⟨ho, rfl⟩ := verdict.eq_raiseOutcome
  rw [exec_tComplete_of_write due (.inl write), (completeExchange_eq s).1 write, ← ho]
  have waits : (freeChannel (raiseOutcome o s)).host = .init k := (SameControl.raiseOutcome o s).host.trans host
  refine ⟨fun failed => ?_, ?_, ?_⟩
  · rw [returnWrite_init_failed waits failed]
    cases o <;> rfl
  · rintro rfl last
    exact congrArg Host.Outcome.next ((returnWrite_init_ok waits).trans (initFrom_end (s := freeChannel s) last))
  · rintro rfl p next
    have started := (returnWrite_init_ok waits).trans (initFrom_packet (s := freeChannel s) next)
    exact ⟨_, congrArg Host.Outcome.next started, rfl, firstBytes_load_packet p, load_packet_wf p⟩

theorem exec_rdComplete {s : State} (fits : offsetsFit s.par = true) (o : XferOutcome) :
    exec (.rdComplete o) s = .next (rdComplete o s) := next_of_fits fits _ _

/-- Settles O46: after the verdict `RD` returns without dispatch, and the event path's handler runs on a channel not yet free. -/
theorem tCompleteEndsRead : Obligations.TCompleteEndsRead := by
  intro s s1 o due fits verdict
  obtain ⟨rfl, rfl⟩ := verdict.eq_raiseOutcome
  obtain ⟨-, syncRd, asyncRd, -, -⟩ := completeExchange_eq s
  have fits' : offsetsFit (raiseOutcome (readOutcome s) s).par = true := (SameControl.raiseOutcome _ s).par ▸ fits
  rw [exec_tComplete due fun _ => fits]
  refine ⟨fun read => ?_, fun read => ⟨_, exec_rdComplete fits' _, congrArg Host.Outcome.next (asyncRd read)⟩⟩
  rw [syncRd read, firstBytes_eq_bytes]
  cases readOutcome s <;> rfl

end Sys2Proof.Machine
end

section
/-! A packet's effect does not depend on the channel it came over (45_system.md R287). -/

namespace Sys2Proof.Machine

/-- The state with another wire trace, other coming answers and moves, and other Transport registers. -/
def State.withChannel (wire : List WireRec) (dev : List DevAnswer) (stim : List Stim) (xport : Transport) (s : State) : State :=
  { s with wire := wire, dev := dev, stim := stim, xport := xport }

section

variable (wire : List WireRec) (dev : List DevAnswer) (stim : List Stim) (xport : Transport) (s : State)

theorem releaseSlot_withChannel (f : KeyboardFrame) (i : Fin 6) :
    releaseSlot f (s.withChannel wire dev stim xport) i = (releaseSlot f s i).withChannel wire dev stim xport := by
  rw [releaseSlot_eq, releaseSlot_eq]
  rfl

theorem pressSlot_withChannel (f : KeyboardFrame) (i : Fin 6) :
    pressSlot f (s.withChannel wire dev stim xport) i = (pressSlot f s i).withChannel wire dev stim xport := by
  rw [pressSlot_eq, pressSlot_eq]
  rfl

theorem kbdApply_withChannel (f : KeyboardFrame) :
    kbdApply f (s.withChannel wire dev stim xport) = (kbdApply f s).withChannel wire dev stim xport := by
  have releases : kbdReleases f (s.withChannel wire dev stim xport) = (kbdReleases f s).withChannel wire dev stim xport :=
    List.foldl_hom (State.withChannel wire dev stim xport) fun u i => releaseSlot_withChannel wire dev stim xport u f i
  have presses (u : State) : kbdPresses f (u.withChannel wire dev stim xport) = (kbdPresses f u).withChannel wire dev stim xport :=
    List.foldl_hom (State.withChannel wire dev stim xport) fun u i => pressSlot_withChannel wire dev stim xport u f i
  rw [kbdApply, releases, presses]
  rfl

theorem dropUnknown_withChannel (tag : Word16) :
    dropUnknown tag (s.withChannel wire dev stim xport) = (dropUnknown tag s).withChannel wire dev stim xport := by
  have flag : (s.withChannel wire dev stim xport).par.traceUnknown = s.par.traceUnknown := rfl
  rw [dropUnknown, dropUnknown, flag]
  split <;> rfl

theorem dispatchPacket_withChannel (m : Memory) :
    dispatchPacket m (s.withChannel wire dev stim xport) = (dispatchPacket m s).withChannel wire dev stim xport := by
  have tags : (s.withChannel wire dev stim xport).par.tags = s.par.tags := rfl
  rw [dispatchPacket, dispatchPacket, tags]
  cases classifyPacket s.par.tags m with
  | nothing => rfl
  | keyboard => exact kbdApply_withChannel wire dev stim xport s _
  | touchpad => rfl
  | unknown tag => exact dropUnknown_withChannel wire dev stim xport s tag

end

end Sys2Proof.Machine
end

section
/-! Whole exchanges, step after step: the start, the transfers and the completion, joined to a run (40_transport.md R134, R135, R145;
45_system.md R284, R286, R290). -/

namespace Sys2Proof.Machine

/-! ## Runs -/

theorem Steps.cons {n : Nat} {s u t : State} (first : step s = .next u) (others : Steps n u t) : Steps (n + 1) s t :=
  ⟨u, first, others⟩

theorem Steps.trans {m n : Nat} {s u t : State} (h : Steps m s u) (h' : Steps n u t) : Steps (n + m) s t := by
  induction m generalizing s with
  | zero =>
    obtain rfl : u = s := h
    exact h'
  | succ m ih =>
    obtain ⟨v, first, others⟩ := h
    exact ⟨v, first, ih others⟩

/-- An internal operation is a move of its own agent, whether the host is blocked or not. -/
theorem step_op {s : State} {rest : List Stim} {bs : List Byte} {i : Instr} (wf : paramsWf s.par = true)
    (next : s.stim = .item .op bs :: rest) (reads : decodeOp bs = .ok i) : step s = exec i { s with stim := rest } :=
  (step_cons wf next).trans (runItem_ok rfl reads)

/-- A run goes on with an internal operation, and what is known of the operation's result is known of the run's. -/
theorem Steps.op {n : Nat} {s u : State} {rest : List Stim} {bs : List Byte} {i : Instr} {P : State → Prop} (run : Steps n s u)
    (wf : paramsWf u.par = true) (next : u.stim = .item .op bs :: rest) (reads : decodeOp bs = .ok i)
    (goes : ∃ t, exec i { u with stim := rest } = .next t ∧ P t) : ∃ t, Steps (1 + n) s t ∧ P t := by
  obtain ⟨t, ht, p⟩ := goes
  exact ⟨t, run.trans (.cons ((step_op wf next reads).trans ht) rfl), p⟩

/-! ## The transfers of an exchange

The runs below end in a state written as an update of the first one. Taking that state apart (`cases s`) lets Lean compare the
updates field by field. -/

/-- The transfer of a phase that waits for the device (R138 to R140, R142). -/
def transferOf : TState → Option (DevAnswer → State → State)
  | .wrCmd => some sendCommand
  | .wrStatus => some receiveStatus
  | .wrResp => some receiveResponse
  | .rdData => some receivePacket
  | .idle | .rdArm | .complete => none

/-- The wire records of a write exchange after chip select, the device answering in full (R134). -/
def writeRecords (bytes : List Byte) : List WireRec :=
  [.tx bytes, .rx 4 4, .cs false, .cs true, .rx 256 256, .cs false]

/-- The wire records of a read exchange after chip select, the device answering in full (R135). -/
def readRecords : List WireRec := [.rx 256 256, .cs false]

section

variable {s : State} {rest : List Stim} {more : List DevAnswer}

theorem transportTransfer_of_answer {a : DevAnswer} {act : DevAnswer → State → State} (answer : s.dev = a :: more) :
    transferOf s.xport.tstate = some act → transportTransfer s = act a { s with dev := more } := by
  obtain ⟨wrCmd, wrStatus, wrResp, rdData⟩ := transportTransfer_answer answer
  cases phase : s.xport.tstate with
  | wrCmd => rintro ⟨⟩; exact wrCmd phase
  | wrStatus => rintro ⟨⟩; exact wrStatus phase
  | wrResp => rintro ⟨⟩; exact wrResp phase
  | rdData => rintro ⟨⟩; exact rdData phase
  | idle | rdArm | complete => rintro ⟨⟩

theorem step_transfer {a : DevAnswer} {act : DevAnswer → State → State} (wf : paramsWf s.par = true)
    (next : s.stim = .item .op [0x16] :: rest) (answer : s.dev = a :: more) (phase : transferOf s.xport.tstate = some act) :
    step s = .next (act a { s with stim := rest, dev := more }) :=
  (step_op wf next rfl).trans (exec_tXfer (transportTransfer_of_answer (s := { s with stim := rest }) answer phase))

theorem step_armRead (wf : paramsWf s.par = true) (next : s.stim = .item .op [0x16] :: rest) (phase : s.xport.tstate = .rdArm) :
    step s = .next ({ s with stim := rest }.goPhase .rdData) :=
  (step_op wf next rfl).trans (exec_tXfer (transportTransfer_arm phase))

theorem steps_writeTransfers {sent status resp : Packet} (wf : paramsWf s.par = true) (phase : s.xport.tstate = .wrCmd)
    (schedule : s.stim = .item .op [0x16] :: .item .op [0x16] :: .item .op [0x16] :: rest)
    (answers : s.dev = .ok sent :: .ok status :: .ok resp :: more) :
    Steps 3 s { s with
      stim := rest, dev := more
      txStatus := Memory.load (status.toList.take 4), rxBuf := Memory.load resp.toList
      wire := s.wire ++ writeRecords (firstBytes s.txBuf 256)
      xport := { s.xport with tRes := 516, tstate := .complete } } := by
  have wire : s.wire ++ writeRecords (firstBytes s.txBuf 256)
      = s.wire ++ [WireRec.tx (s.txBuf.bytes 0 256)] ++ [WireRec.rx 4 4, WireRec.cs false, WireRec.cs true]
        ++ [WireRec.rx 256 256, WireRec.cs false] := by
    simp [writeRecords, firstBytes_eq_bytes]
  rw [wire]
  cases s
  exact .cons (step_transfer wf schedule answers (congrArg transferOf phase)) <| .cons (step_transfer wf rfl rfl rfl) <|
    .cons (step_transfer wf rfl rfl rfl) rfl

theorem steps_readTransfers {data : Packet} (wf : paramsWf s.par = true) (phase : s.xport.tstate = .rdArm)
    (schedule : s.stim = .item .op [0x16] :: .item .op [0x16] :: rest) (answers : s.dev = .ok data :: more) :
    Steps 2 s { s with
      stim := rest, dev := more, rxBuf := Memory.load data.toList, wire := s.wire ++ readRecords
      xport := { s.xport with tRes := 256, tstate := .complete } } := by
  cases s
  exact .cons (step_armRead wf schedule phase) <| .cons (step_transfer wf rfl answers rfl) rfl

/-! ## A whole `WTR` -/

theorem step_wtr {tx : Packet} (wf : paramsWf s.par = true) (free : s.syncReady = true) (ready : s.host = .ready)
    (next : s.stim = .item .host (0x10 :: 0x00 :: tx.toList) :: rest) :
    step s = .next (State.startSyncWrite .wtr tx { s with stim := rest }) :=
  calc step s
      = runItem .host (0x10 :: 0x00 :: tx.toList) { s with stim := rest } := step_cons wf next
    _ = exec (.wtr tx) { s with stim := rest } := runItem_ok (portClosed_host_false (.inl ready)) (decodeHost_wtr tx)
    _ = .next (State.startSyncWrite .wtr tx { s with stim := rest }) := exec_wtr (s := { s with stim := rest }) free tx

/-- From the command to the end of its last transfer. -/
theorem steps_wtrTransfers {tx sent status resp : Packet} (wf : paramsWf s.par = true) (free : s.syncReady = true)
    (ready : s.host = .ready)
    (schedule : s.stim = .item .host (0x10 :: 0x00 :: tx.toList) :: .item .op [0x16] :: .item .op [0x16] :: .item .op [0x16] :: rest)
    (answers : s.dev = .ok sent :: .ok status :: .ok resp :: more) :
    Steps 4 s { s with
      stim := rest, dev := more, host := .wtr
      txBuf := Memory.load tx.toList, txStatus := Memory.load (status.toList.take 4), rxBuf := Memory.load resp.toList
      wire := s.wire ++ .cs true :: writeRecords tx.toList
      xport := { s.xport with tstate := .complete, texch := .syncWtr, tRes := 516 } } := by
  have wire : s.wire ++ .cs true :: writeRecords tx.toList
      = s.wire ++ [WireRec.cs true] ++ writeRecords (firstBytes (Memory.load tx.toList) 256) := by
    rw [firstBytes_load_packet, List.append_cons]
  rw [wire]
  cases s
  exact .cons (step_wtr wf free ready schedule) (steps_writeTransfers wf rfl rfl answers)

/-- After transfers in full the status decides (R143, R144). -/
theorem writeOutcome_ok_iff (full : s.xport.tRes.msb = false) :
    (writeOutcome s = .ok ↔ firstBytes s.txStatus 4 = [0xAC, 0x27, 0x68, 0xD5]) ∧ writeOutcome s ≠ .failTransport := by
  rw [← statusAccepted_iff, writeOutcome, full, if_neg Bool.false_ne_true]
  cases statusAccepted s.txStatus <;> decide

/-- The completion of `WTR` after transfers in full; `ERR` and the log change as the verdict says. -/
theorem exec_tComplete_wtr (due : s.xport.tstate = .complete) (write : s.xport.texch = .syncWtr) (host : s.host = .wtr)
    (full : s.xport.tRes.msb = false) :
    ∃ t, exec .tComplete s = .next t ∧ ∃ (o : XferOutcome) (err : BitVec 6) (log : List LogRec),
      t = { s with
        err := err, log := log, host := .ready, xport := { s.xport with texch := .none, tstate := .idle }
        returns := s.returns ++ [HostRet.wtr o (firstBytes s.txStatus 4) (firstBytes s.rxBuf 256)] }
      ∧ (o = .ok ↔ firstBytes s.txStatus 4 = [0xAC, 0x27, 0x68, 0xD5]) ∧ o ≠ .failTransport := by
  obtain ⟨err, log, raised⟩ : ∃ err log, raiseOutcome (writeOutcome s) s = { s with err := err, log := log } :=
    ⟨_, _, raiseOutcome_frame _ s⟩
  refine ⟨_, exec_tComplete_of_write due (.inl write), writeOutcome s, err, log, ?_, writeOutcome_ok_iff full⟩
  rw [completeExchange_wtr write host, raised]
  rfl

/-! ## A whole event read -/

theorem step_gpe (wf : paramsWf s.par = true) (armed : s.gpeArmed = true) (next : s.stim = .item .op [0x06] :: rest) :
    step s = .next (requestRead { s with stim := rest }) :=
  (step_op wf next rfl).trans (congrArg Host.Outcome.next (if_pos armed))

theorem step_startRead (wf : paramsWf s.par = true) (next : s.stim = .item .op [0x15] :: rest) (idle : s.xport.tstate = .idle)
    (read : s.xport.rdPending = true) (noWrite : s.xport.wrPending = false) :
    step s = .next (startRead { s with stim := rest }) :=
  (step_op wf next rfl).trans (exec_tStart (transportStart_read idle read noWrite))

/-- From the trigger to the end of the transfer. -/
theorem steps_gpeTransfers {data : Packet} (wf : paramsWf s.par = true) (armed : s.gpeArmed = true)
    (idle : s.xport.tstate = .idle) (noWrite : s.xport.wrPending = false)
    (schedule : s.stim = .item .op [0x06] :: .item .op [0x15] :: .item .op [0x16] :: .item .op [0x16] :: rest)
    (answers : s.dev = .ok data :: more) :
    Steps 4 s { s with
      stim := rest, dev := more, rxBuf := Memory.load data.toList, wire := s.wire ++ .cs true :: readRecords
      xport := { tstate := .complete, texch := .asyncRd, tRes := 256, rdPending := false, wrPending := s.xport.wrPending } } := by
  rw [List.append_cons s.wire]
  cases s
  exact .cons (step_gpe wf armed schedule) <| .cons (step_startRead wf rfl idle rfl noWrite) <|
    steps_readTransfers wf rfl rfl answers

/-- The completion of an event read in full: the packet is dispatched and the channel is free. -/
theorem exec_tComplete_asyncRd (fits : offsetsFit s.par = true) (due : s.xport.tstate = .complete)
    (read : s.xport.texch = .asyncRd) (full : s.xport.tRes.msb = false) :
    exec .tComplete s = .next (freeChannel (dispatchPacket s.rxBuf s)) := by
  have outcome : readOutcome s = .ok := by
    rw [readOutcome, full, if_neg Bool.false_ne_true]
  obtain ⟨-, -, asyncRd, -, -⟩ := completeExchange_eq s
  rw [exec_tComplete due fun _ => fits, asyncRd read, outcome]
  rfl

/-- A trigger and its read: the packet is dispatched as if the channel had not been used, and the channel is left as the rules say. -/
theorem steps_gpe {data : Packet} (wf : paramsWf s.par = true) (armed : s.gpeArmed = true) (idle : s.xport.tstate = .idle)
    (noWrite : s.xport.wrPending = false)
    (schedule : s.stim = .item .op [0x06] :: .item .op [0x15] :: .item .op [0x16] :: .item .op [0x16] :: .item .op [0x17] :: rest)
    (answers : s.dev = .ok data :: more) :
    Steps 5 s ((dispatchPacket (Memory.load data.toList) { s with rxBuf := Memory.load data.toList }).withChannel
      (s.wire ++ .cs true :: readRecords) more rest
      { tstate := .idle, texch := .none, tRes := 256, rdPending := false, wrPending := s.xport.wrPending }) := by
  have full : (256 : Word32).msb = false := by decide
  obtain ⟨_, run, rfl⟩ := (steps_gpeTransfers wf armed idle noWrite schedule answers).op wf rfl rfl
    ⟨_, exec_tComplete_asyncRd (offsetsFit_of_paramsWf wf) rfl rfl full, rfl⟩
  have dispatched := congrArg freeChannel (dispatchPacket_withChannel (s.wire ++ .cs true :: readRecords) more rest
    { tstate := .complete, texch := .asyncRd, tRes := 256, rdPending := false, wrPending := s.xport.wrPending }
    { s with rxBuf := Memory.load data.toList } (Memory.load data.toList))
  exact (congrArg (Steps 5 s) dispatched).mp run

theorem exec_dispatch (fits : offsetsFit s.par = true) : exec .dispatch s = .next (dispatchPacket s.rxBuf s) := if_pos fits

end

/-! ## The two runs -/

/-- Settles O47: each run is its start, its transfers and its completion; what the event read dispatches does not look at the
channel. -/
theorem exchangesRunWhole : Obligations.ExchangesRunWhole := by
  refine ⟨?write, ?read⟩
  case write =>
    intro s tx sent status resp rest more wf configured unarmed undone idle noRead noWrite noLed ready schedule answers
    have free : s.syncReady = true := (syncReady_iff s).2 ⟨configured, unarmed, undone, idle, noRead, noWrite, noLed⟩
    have full : (516 : Word32).msb = false := by decide
    obtain ⟨t, run, o, err, log, rfl, accepted, answered⟩ :=
      (steps_wtrTransfers wf free ready schedule answers).op wf rfl rfl (exec_tComplete_wtr rfl rfl rfl full)
    have statusBytes : firstBytes (Memory.load (status.toList.take 4)) 4 = status.toList.take 4 := firstBytes_load (by simp)
    have returned : s.returns ++ [HostRet.wtr o (firstBytes (Memory.load (status.toList.take 4)) 4)
        (firstBytes (Memory.load resp.toList) 256)]
          = s.returns ++ [HostRet.wtr o (status.toList.take 4) resp.toList] := by rw [statusBytes, firstBytes_load_packet]
    have registers : ({ s.xport with tstate := .idle, texch := .none, tRes := 516 } : Transport)
        = { tstate := .idle, texch := .none, tRes := 516, rdPending := false, wrPending := false } := by simp only [noRead, noWrite]
    exact ⟨_, o, run, rfl, returned, statusBytes ▸ accepted, answered, registers, rfl, rfl, rfl, rfl⟩
  case read =>
    intro s data rest more wf armed idle noWrite schedule answers
    have run := steps_gpe wf armed idle noWrite schedule answers
    rw [noWrite] at run
    have kept := (SameControl.dispatchPacket (Memory.load data.toList) { s with rxBuf := Memory.load data.toList }).rxBuf
    have dispatched := exec_dispatch (s := { s with rxBuf := Memory.load data.toList }) (offsetsFit_of_paramsWf wf)
    exact ⟨_, _, run, (congrArg (firstBytes · 256) kept).trans (firstBytes_load_packet data),
      (congrArg (fun m => exec .dispatch { s with rxBuf := m }) kept).trans dispatched, rfl⟩

end Sys2Proof.Machine
end

section
/-! The codec's reads: the class of a tag and the fields of keyboard and touchpad packets (41_codec.md R171 to R173). None of the
operations writes anything but the result register. -/

namespace Sys2Proof.Machine

/-! ## The class of a tag (R171) -/

/-- The branches of `CLASSIFY` in its order of tests. -/
theorem classifyTag_cases (t : Tags) (tag : Word16) :
    (tag = t.nothing ∧ classifyTag t tag = .nothing) ∨ (tag = t.keyboard ∧ classifyTag t tag = .keyboard)
      ∨ (tag = t.touchpad ∧ classifyTag t tag = .touchpad)
      ∨ (tag ≠ t.nothing ∧ tag ≠ t.keyboard ∧ tag ≠ t.touchpad ∧ classifyTag t tag = .unknown tag) := by
  unfold classifyTag
  split
  · next nothing => exact .inl ⟨nothing, rfl⟩
  · next notNothing =>
    split
    · next keyboard => exact .inr (.inl ⟨keyboard, rfl⟩)
    · next notKeyboard =>
      split
      · next touchpad => exact .inr (.inr (.inl ⟨touchpad, rfl⟩))
      · next notTouchpad => exact .inr (.inr (.inr ⟨notNothing, notKeyboard, notTouchpad, rfl⟩))

/-- Under distinct tags the order of the tests does not matter: each class stands for its tag alone. -/
theorem classifyTag_iff {t : Tags} (distinct : tagsDistinct t = true) (tag : Word16) :
    (classifyTag t tag = .nothing ↔ tag = t.nothing) ∧ (classifyTag t tag = .keyboard ↔ tag = t.keyboard)
      ∧ (classifyTag t tag = .touchpad ↔ tag = t.touchpad)
      ∧ ∀ u : Word16, classifyTag t tag = .unknown u
          ↔ u = tag ∧ tag ≠ t.nothing ∧ tag ≠ t.keyboard ∧ tag ≠ t.touchpad := by
  obtain ⟨keyboardTouchpad, keyboardNothing, touchpadNothing⟩ := (tagsDistinct_iff t).1 distinct
  rcases classifyTag_cases t tag with ⟨rfl, cls⟩ | ⟨rfl, cls⟩ | ⟨rfl, cls⟩ | ⟨notNothing, notKeyboard, notTouchpad, cls⟩
  · simp [cls, keyboardNothing.symm, touchpadNothing.symm]
  · simp [cls, keyboardNothing, keyboardTouchpad]
  · simp [cls, touchpadNothing, keyboardTouchpad.symm]
  · simp [cls, notNothing, notKeyboard, notTouchpad, eq_comm]

/-- `CLASSIFY` reads the tag in the first two bytes of `rx_buf`. -/
theorem exec_classify (s : State) :
    exec .classify s = .next { s with result := .pktClass (classifyTag s.par.tags (s.rxBuf.get 1 ++ s.rxBuf.get 0)) } := by
  have tag : le16 s.rxBuf 0 = s.rxBuf.get 1 ++ s.rxBuf.get 0 := le16_eq s.rxBuf 0
  rw [← tag]
  rfl

/-- Settles O20: the class is that of the tag, and distinct tags make each class decide its tag. -/
theorem classifyReadsTag : Obligations.ClassifyReadsTag := by
  rintro s tag distinct rfl
  exact ⟨_, exec_classify s, classifyTag_iff distinct _⟩

/-! ## The frames of packets (R172, R173) -/

theorem exec_decodeKbd {s : State} (fits : offsetsFit s.par = true) :
    exec .decodeKbd s = .next { s with result := .keyFrame (keyFrameOf s.par s.rxBuf) } := if_pos fits

theorem exec_decodeTp {s : State} (fits : offsetsFit s.par = true) :
    exec .decodeTp s = .next { s with result := .touchFrame (touchFrameOf s.par s.rxBuf) } := if_pos fits

/-- Settles O21: the frame is that of `rx_buf`. -/
theorem decodeKbdReadsFields : Obligations.DecodeKbdReadsFields := by
  intro s fits
  exact ⟨keyFrameOf s.par s.rxBuf, exec_decodeKbd fits, rfl, rfl, keyFrameOf_keys s.par s.rxBuf, flagAt_iff _ _⟩

/-- Widening a field to s32 keeps its two's complement value (00_scope.md R11). -/
theorem toInt_sle16 (m : Memory) (off : Nat) : (sle16 m off).toInt = signed16At m off := by
  rw [sle16, BitVec.toInt_signExtend_of_le (by decide), le16_eq, signed16At]

theorem touchFrameOf_fingers (p : Params) (m : Memory) (k : Fin 6) : (touchFrameOf p m).fingers[k] = fingerOf p m k.val := by
  match k with
  | 0 | 1 | 2 | 3 | 4 | 5 => rfl

/-- Settles O22: each record of the frame is that of its place in `rx_buf`, each field the widened one of its offset. -/
theorem decodeTpReadsFields : Obligations.DecodeTpReadsFields := by
  intro s fits
  refine ⟨touchFrameOf s.par s.rxBuf, exec_decodeTp fits, rfl, flagAt_iff _ _, ?_⟩
  rintro k _ rfl
  rw [touchFrameOf_fingers]
  have field (o : Nat) := toInt_sle16 s.rxBuf (s.par.tpOffFingers + k.val * s.par.fingerStride + o)
  exact ⟨field _, field _, field _, field _, field _, field _, field _, field _, field _, field _, field _⟩

end Sys2Proof.Machine
end

section
/-! The CRC register and the LED command that carries its value (41_codec.md R176 to R178). -/

namespace Sys2Proof.Machine

/-! ## CRC-16 (R176) -/

/-- A last shift instead of a first one. -/
theorem crcShifts_succ_last (poly : Word16) (n : Nat) (crc : Word16) :
    crcShifts poly (n + 1) crc = crcShift poly (crcShifts poly n crc) := by
  induction n generalizing crc with
  | zero => rfl
  | succ n ih => exact ih (crcShift poly crc)

theorem crcShifts_eq_repeat (poly : Word16) (n : Nat) (crc : Word16) :
    crcShifts poly n crc = Nat.repeat (crcShift poly) n crc := by
  induction n with
  | zero => rfl
  | succ n ih => rw [crcShifts_succ_last, ih, Nat.repeat]

/-- The register after one more byte. -/
theorem crcOf_concat (poly : Word16) (d : List Byte) (b : Byte) :
    crcOf poly (d ++ [b]) = Nat.repeat (crcShift poly) 8 (crcOf poly d ^^^ b.setWidth 16) := by
  calc crcOf poly (d ++ [b])
      = crcByte poly (crcOf poly d) b := crcOf_append poly d [b]
    _ = Nat.repeat (crcShift poly) 8 (crcOf poly d ^^^ b.setWidth 16) := crcShifts_eq_repeat poly 8 _

/-- "any sequence of zero bytes gives 0" (R176). -/
theorem crcOf_replicate_zero (poly : Word16) (n : Nat) : crcOf poly (List.replicate n 0) = 0 := by
  induction n with
  | zero => rfl
  | succ n ih =>
    calc crcOf poly (List.replicate (n + 1) 0)
        = (List.replicate n 0).foldl (crcByte poly) (crcByte poly 0 0) := rfl
      _ = crcOf poly (List.replicate n 0) := by rw [crcByte_zero, crcOf]
      _ = 0 := ih

theorem crcOf_leading_zeros (poly : Word16) (n : Nat) (d : List Byte) : crcOf poly (List.replicate n 0 ++ d) = crcOf poly d := by
  rw [crcOf_append, crcOf_replicate_zero, crcOf]

/-- R176's values under `CRC_POLY = 0xA001`. -/
theorem crcOf_values :
    crcOf 0xA001 [0x01] = 0xC0C1 ∧ crcOf 0xA001 [0x80] = 0xA001 ∧ crcOf 0xA001 [0xFF] = 0x4040
      ∧ crcOf 0xA001 [0x31, 0x32, 0x33, 0x34, 0x35, 0x36, 0x37, 0x38, 0x39] = 0xBB3D
      ∧ crcOf 0xA001 [0x01, 0x02, 0x03, 0x04, 0x05, 0x06, 0x07, 0x08, 0x09, 0x0A] = 0xC4C3 := by
  decide +kernel

/-- Settles O23: the function is `crcOf`. -/
theorem crc16FollowsRegister : Obligations.Crc16FollowsRegister :=
  ⟨crcOf, fun _ _ => rfl, fun _ => rfl, crcOf_concat, crcOf_leading_zeros, crcOf_values⟩

/-! ## The LED command (R177) -/

theorem exec_buildLed (n : Byte) (on : Bool) (s : State) :
    exec (.buildLed n on) s = .next { s with txBuf := ledCommand s.par n on } := rfl

/-- Before the CRC is stored the command is R96's table, byte for byte. -/
theorem ledFields_get_eq_ledByte (p : Params) (n : Byte) (on : Bool) (a : Nat) : (ledFields p n on).get a = ledByte p n on a := by
  rw [ledFields_get, ledByte]
  by_cases value : a = 17
  · rw [if_pos value, if_neg (by omega), if_pos value, ledValueByte]
  · rw [if_neg value, if_neg value, Config.unlistedByte]

/-- Storing the CRC changes no other byte. -/
theorem ledCommand_get_eq_ledByte (p : Params) (n : Byte) (on : Bool) {a : Nat} (h18 : a ≠ 18) (h19 : a ≠ 19) :
    (ledCommand p n on).get a = ledByte p n on a := by
  rw [ledCommand_get p n on h18 h19, ← ledFields_get, ledFields_get_eq_ledByte]

/-- The region of the CRC, byte by byte. -/
theorem ledCrc_eq (poly : Word16) (m : Memory) : ledCrc poly m = crcOf poly ((List.range 10).map (fun i => m.get (8 + i))) := rfl

theorem holdsLedCommand_ledCommand (p : Params) (n : Byte) (on : Bool) : HoldsLedCommand p n on (ledCommand p n on) where
  canonical := ledCommand_wf p n on
  fields _ _ h18 h19 := ledCommand_get_eq_ledByte p n on h18 h19
  checksum := by
    rw [← le16_eq, ledCommand_crc, ledCrc_eq]
    simp only [ledFields_get_eq_ledByte]

/-- Settles O24: `tx_buf` holds the built command, which is R96's. -/
theorem buildLedMakesLedCommand : Obligations.BuildLedMakesLedCommand := by
  intro n on s
  exact ⟨_, exec_buildLed n on s, rfl, holdsLedCommand_ledCommand s.par n on⟩

/-! ## The check (R178) -/

theorem exec_crcCheck (s : State) : exec .crcCheck s = .next { s with result := .flag (crcCheckOf s.par.crcPoly s.txBuf) } := rfl

/-- The check compares the stored CRC with that of the region. -/
theorem crcCheckOf_eq (poly : Word16) (m : Memory) :
    crcCheckOf poly m = decide (m.get 19 ++ m.get 18 = crcOf poly ((List.range 10).map (fun i => m.get (8 + i)))) := by
  rw [crcCheckOf, le16_eq, ledCrc_eq, beq_eq_decide]

/-- Storing the CRC outside its own region keeps it right. -/
theorem crcCheckOf_ledCommand (p : Params) (n : Byte) (on : Bool) : crcCheckOf p.crcPoly (ledCommand p n on) = true :=
  beq_iff_eq.2 ((ledCommand_crc p n on).trans (ledCrc_ledCommand p n on).symm)

/-- Settles O25: the verdict compares the stored CRC, and the built command passes. -/
theorem crcCheckAfterBuildLed : Obligations.CrcCheckAfterBuildLed := by
  refine ⟨fun s => ?verdict, fun n on s t built => ?roundTrip⟩
  case verdict => rw [exec_crcCheck, crcCheckOf_eq]
  case roundTrip =>
    obtain rfl : _ = t := Host.Outcome.next.inj ((exec_buildLed n on s).symm.trans built)
    rw [exec_crcCheck, crcCheckOf_ledCommand]

end Sys2Proof.Machine
end

section
/-! The Keyboard State Machine: translation of one scancode, and the whole effect of one frame (42_keyboard.md R205 to R216). -/

namespace Sys2Proof.Machine

/-! ## Translation (R205, R206) -/

/-- In a mode other than `disabled` an entry applies as R205 says. -/
theorem fnApplies_iff {fnmode : BitVec 2} (enabled : fnmode ≠ 0) (fn : Bool) (e : FnEntry) :
    fnApplies fnmode fn e = true
      ↔ fnmode ≠ 0 ∧ ((e.fkey = true ∧ ((fnmode = 1 ∧ fn = false) ∨ (fnmode = 2 ∧ fn = true)))
          ∨ (e.fkey = false ∧ fn = true)) := by
  rw [and_iff_right enabled]
  cases flag : e.fkey <;> simp [fnApplies, flag]

theorem fnTranslate_eq_keyAfterFn (p : Params) (fnmode : BitVec 2) (fn : Bool) (key : Key) :
    fnTranslate p fnmode fn key = keyAfterFn p fnmode fn key := by
  rw [fnTranslate, keyAfterFn, fnLookup_eq_firstMatch]
  by_cases disabled : fnmode = 0
  · cases firstMatch FnEntry.source p.fnTable key <;> simp [disabled]
  · cases firstMatch FnEntry.source p.fnTable key with
    | none => exact if_neg disabled
    | some e => simp only [if_neg disabled, fnApplies_iff disabled]

theorem isoTranslate_eq_keyAfterIso (p : Params) (iso : Bool) (key : Key) :
    isoTranslate p iso key = keyAfterIso p iso key := by
  rw [isoTranslate, keyAfterIso, isoLookup_eq_firstMatch]
  cases firstMatch IsoEntry.source p.isoTable key with
  | none => exact ite_self key
  | some e => rfl

/-- The ISO swap comes after Fn translation (R206 (3)). -/
theorem codeToKey_eq_keyOfCode (s : State) (code : Byte) (fn : Bool) : codeToKey s code fn = keyOfCode s fn code := by
  rw [codeToKey, translateKey, isoTranslate_eq_keyAfterIso, fnTranslate_eq_keyAfterFn]
  rfl

theorem exec_codeToKey_of_scancode {code : Byte} {s : State} (key : code ≠ 0) (inTable : code.toNat < nScan s.par)
    (fn : Bool) : exec (.codeToKey code fn) s = .next (s.setResult (.key (codeToKey s code fn))) :=
  if_pos ⟨key, inTable⟩

/-- Outside its callers' range the operation draws a key (log entry 17). -/
theorem exec_codeToKey_of_not_scancode {code : Byte} {s : State} (outside : code = 0 ∨ nScan s.par ≤ code.toNat)
    (fn : Bool) :
    exec (.codeToKey code fn) s = .next ((s.setResult (.key (translateKey s fn (Config.freeKey s.draws)))).drawn) :=
  if_neg fun ⟨key, inTable⟩ => outside.elim key (Nat.not_le_of_lt inTable)

/-- Settles O26: in the table the key is `keyOfCode`'s; outside it the key is one that is drawn. -/
theorem codeToKeyTranslates : Obligations.CodeToKeyTranslates := by
  refine ⟨fun code fn s key inTable => ?scancode, fun code fn s outside => ?other⟩
  case scancode => rw [exec_codeToKey_of_scancode key inTable, codeToKey_eq_keyOfCode]; rfl
  case other => exact ⟨_, exec_codeToKey_of_not_scancode outside fn⟩

/-! ## The slots of a frame (R208, R209, R214) -/

theorem flatMap_ite_singleton {α β : Type} (p : α → Bool) (g : α → β) (l : List α) :
    l.flatMap (fun a => if p a then [g a] else []) = (l.filter p).map g := by
  induction l with
  | nil => rfl
  | cons a l ih => cases h : p a <;> simp [h, ih]

/-- The violations of step 1 and of step 2: `violations` in its two parts. -/
theorem violations_eq (f : KeyboardFrame) (s : State) :
    violations f s = six.flatMap (releaseViolations f s) ++ six.flatMap (pressViolations f s) :=
  congrArg₂ (· ++ ·) (flatMap_ite_singleton _ _ six).symm (flatMap_ite_singleton _ _ six).symm

theorem flatMap_releaseEvents (f : KeyboardFrame) (s : State) :
    six.flatMap (releaseEvents f s)
      = (releasedKeys f s).map (fun i => .key (keyOfCode s s.kbd.lastKeysFn[i] s.kbd.lastKeys[i]) false) := by
  simp only [← codeToKey_eq_keyOfCode]
  exact flatMap_ite_singleton _ _ six

theorem flatMap_pressEvents (f : KeyboardFrame) (s : State) :
    six.flatMap (pressEvents f s) = (pressedKeys f s).map (fun i => .key (keyOfCode s f.fn f.keys[i]) true) := by
  simp only [← codeToKey_eq_keyOfCode]
  exact flatMap_ite_singleton _ _ six

/-- Step 2 looks at the frame, the parameters and the tunables only, which step 1 leaves. -/
theorem pressEvents_afterSlots (f : KeyboardFrame) (s : State) (es : List Event) (vs : List Byte) (b : Vector Bool 6) :
    pressEvents f (s.afterSlots es vs b) = pressEvents f s := rfl

theorem pressViolations_afterSlots (f : KeyboardFrame) (s : State) (es : List Event) (vs : List Byte)
    (b : Vector Bool 6) : pressViolations f (s.afterSlots es vs b) = pressViolations f s := rfl

/-- The Fn bit of slot `i` after the frame: that of the press, else of the release, else as it was (R208, R209). -/
def fnBitAfter (f : KeyboardFrame) (s : State) (i : Fin 6) : Bool :=
  if isKey s.par f.keys[i] then f.fn else if goneFrom f s i then false else s.kbd.lastKeysFn[i]

/-- Steps 1 and 2: releases before presses, violations before and after, and the Fn bit of each slot. -/
theorem kbdPresses_kbdReleases (f : KeyboardFrame) (s : State) :
    kbdPresses f (kbdReleases f s)
      = s.afterSlots (six.flatMap (releaseEvents f s) ++ six.flatMap (pressEvents f s)) (violations f s)
          (Vector.ofFn (fnBitAfter f s)) := by
  obtain ⟨b, releases, released⟩ := foldl_releaseSlot f six (by decide) s
  obtain ⟨b', presses, pressed⟩ := foldl_pressSlot f six (s.afterSlots (six.flatMap (releaseEvents f s))
    (six.flatMap (releaseViolations f s)) b)
  have bits : b' = Vector.ofFn (fnBitAfter f s) := by
    refine Vector.ext fun i lt => ?_
    have press : b'[i] = if isKey s.par f.keys[i] = true then f.fn else b[i] :=
      (pressed ⟨i, lt⟩).trans (if_congr (and_iff_right (mem_six _)) rfl rfl)
    have release : b[i] = if goneFrom f s ⟨i, lt⟩ = true then false else s.kbd.lastKeysFn[i] :=
      (released ⟨i, lt⟩).trans (if_congr (and_iff_right (mem_six _)) rfl rfl)
    rw [press, release, Vector.getElem_ofFn]
    rfl
  rw [kbdPresses, kbdReleases, releases, presses, pressEvents_afterSlots, pressViolations_afterSlots,
    State.afterSlots_afterSlots, ← violations_eq, bits]

/-! ## The frame (R207) -/

/-- `s` after `KBD_APPLY` of the frame (R207 to R212). -/
def State.afterFrame (f : KeyboardFrame) (s : State) : State :=
  { s with events := s.events ++ frameEvents f s
           log := s.log ++ (violations f s).map (fun c => .err (.boundsViolation c))
           err := s.err ||| (if (violations f s).isEmpty then 0 else 0b010000)
           kbd := { lastKeys := f.keys, lastKeysFn := Vector.ofFn (fnBitAfter f s), lastFn := f.fn } }

theorem frameEvents_eq (f : KeyboardFrame) (s : State) :
    frameEvents f s
      = six.flatMap (releaseEvents f s) ++ six.flatMap (pressEvents f s)
          ++ (modifierEvents s.par f ++ fnEvents s.par f s.kbd.lastFn) := by
  rw [flatMap_releaseEvents, flatMap_pressEvents, ← List.append_assoc]
  rfl

/-- Steps 3 to 5 complete what steps 1 and 2 leave. -/
theorem kbdApply_eq_afterFrame (f : KeyboardFrame) (s : State) : kbdApply f s = s.afterFrame f := by
  rw [kbdApply, kbdPresses_kbdReleases, State.afterFrame, frameEvents_eq, ← List.append_assoc s.events]
  rfl

theorem exec_kbdApply (f : KeyboardFrame) (s : State) : exec (.kbdApply f) s = .next (s.afterFrame f) :=
  congrArg Host.Outcome.next (kbdApply_eq_afterFrame f s)

/-- Settles O27: the five steps together leave `afterFrame`. -/
theorem kbdApplyFiveSteps : Obligations.KbdApplyFiveSteps := by
  intro f s
  exact ⟨s.afterFrame f, exec_kbdApply f s, rfl, fun i => Vector.getElem_ofFn i.isLt⟩

/-! ## The events of one frame, and of the same frame again (R216) -/

theorem frameEvents_length (f : KeyboardFrame) (s : State) :
    (frameEvents f s).length = (releasedKeys f s).length + (pressedKeys f s).length + 8
      + (if f.fn = s.kbd.lastFn then 0 else 1) := by
  have modifiers : eight.length = 8 := rfl
  simp only [frameEvents, List.length_append, List.length_map, modifiers]
  split <;> rfl

theorem afterFrame_events_length (f : KeyboardFrame) (s : State) :
    (s.afterFrame f).events.length = s.events.length + (frameEvents f s).length := List.length_append

/-- After a frame no history slot has gone from it. -/
theorem goneFrom_afterFrame (f : KeyboardFrame) (s : State) (i : Fin 6) : goneFrom f (s.afterFrame f) i = false :=
  decide_eq_false (not_not_intro ⟨i, rfl⟩)

theorem releasedKeys_afterFrame (f : KeyboardFrame) (s : State) : releasedKeys f (s.afterFrame f) = [] := by
  simp [releasedKeys, goneFrom_afterFrame]

/-- What a frame presses does not depend on the history. -/
theorem pressedKeys_afterFrame (f : KeyboardFrame) (s : State) :
    pressedKeys f (s.afterFrame f) = pressedKeys f s := rfl

theorem frameEvents_afterFrame_length (f : KeyboardFrame) (s : State) :
    (frameEvents f (s.afterFrame f)).length = (pressedKeys f s).length + 8 := by
  have sameFn : f.fn = (s.afterFrame f).kbd.lastFn := rfl
  rw [frameEvents_length, releasedKeys_afterFrame, pressedKeys_afterFrame, if_pos sameFn, List.length_nil, Nat.zero_add,
    Nat.add_zero]

/-- A pressed slot takes the frame's Fn again, and with nothing gone every other slot keeps its bit. -/
theorem fnBitAfter_afterFrame (f : KeyboardFrame) (s : State) (i : Fin 6) :
    fnBitAfter f (s.afterFrame f) i = fnBitAfter f s i := by
  have bit : (s.afterFrame f).kbd.lastKeysFn[i] = fnBitAfter f s i := Vector.getElem_ofFn i.isLt
  have params : (s.afterFrame f).par = s.par := rfl
  rw [fnBitAfter, goneFrom_afterFrame, bit, params]
  by_cases pressed : isKey s.par f.keys[i] = true
  · rw [if_pos pressed, fnBitAfter, if_pos pressed]
  · rw [if_neg pressed, if_neg Bool.false_ne_true]

theorem kbd_afterFrame_afterFrame (f : KeyboardFrame) (s : State) :
    ((s.afterFrame f).afterFrame f).kbd = (s.afterFrame f).kbd := by
  have bits : fnBitAfter f (s.afterFrame f) = fnBitAfter f s := funext (fnBitAfter_afterFrame f s)
  rw [State.afterFrame, bits]
  rfl

/-- Settles O28: the second application starts where the first ended, with nothing gone and Fn unchanged. -/
theorem kbdEventCountAndFixedPoint : Obligations.KbdEventCountAndFixedPoint := by
  intro f s t u first second
  obtain rfl : s.afterFrame f = t := Host.Outcome.next.inj ((exec_kbdApply f s).symm.trans first)
  obtain rfl : (s.afterFrame f).afterFrame f = u := Host.Outcome.next.inj ((exec_kbdApply f _).symm.trans second)
  refine ⟨?count, ?countAgain, kbd_afterFrame_afterFrame f s⟩
  case count => rw [afterFrame_events_length, frameEvents_length]; simp only [Nat.add_assoc]
  case countAgain => rw [afterFrame_events_length, frameEvents_afterFrame_length, Nat.add_assoc]

end Sys2Proof.Machine
end

section
/-! The Touch Tracker's filter, transform and events (43_touch.md R232, R233, R237): the model's 32-bit arithmetic is the rules'
integer arithmetic, wrapped. -/

namespace Sys2Proof.Machine

/-! ## Arithmetic on s32 -/

/-- Doubling in 32 bits (R237). -/
theorem two_mul_eq_ofInt (a : Word32) : 2 * a = BitVec.ofInt 32 (2 * a.toInt) := by
  rw [BitVec.ofInt_mul, BitVec.ofInt_toInt]
  rfl

theorem sub_eq_ofInt (a b : Word32) : a - b = BitVec.ofInt 32 (a.toInt - b.toInt) := by
  rw [Int.sub_eq_add_neg, BitVec.ofInt_add, BitVec.ofInt_neg, BitVec.ofInt_toInt, BitVec.ofInt_toInt,
    BitVec.sub_eq_add_neg]

theorem add_sub_eq_ofInt (a b c : Word32) : a + b - c = BitVec.ofInt 32 (a.toInt + b.toInt - c.toInt) := by
  rw [Int.sub_eq_add_neg, BitVec.ofInt_add, BitVec.ofInt_add, BitVec.ofInt_neg, BitVec.ofInt_toInt, BitVec.ofInt_toInt,
    BitVec.ofInt_toInt, BitVec.sub_eq_add_neg]

/-! ## Filter and transform -/

theorem exec_tpFilter (f : TouchpadFrame) (s : State) :
    exec (.tpFilter f) s = .next (s.setResult (.fingers (presentFingers f))) := rfl

theorem exec_tpXform (f : FingerRec) (s : State) :
    exec (.tpXform f) s = .next (s.setResult (.pos (transformFinger s.cal f))) := rfl

theorem mem_presentFingers {f : TouchpadFrame} {k : Fin 6} :
    k ∈ presentFingers f ↔ f.fingers[k].touchMajor ≠ 0 := by
  rw [presentFingers, List.mem_filter, and_iff_right (mem_six k), bne_iff_ne]

theorem presentFingers_ascending (f : TouchpadFrame) : (presentFingers f).Pairwise (· < ·) :=
  List.Pairwise.filter _ (by decide)

theorem presentFingers_length_le (f : TouchpadFrame) : (presentFingers f).length ≤ 6 := List.length_filter_le _ six

/-- Settles O29: filtering the six indices keeps their order. -/
theorem tpFilterListsTouchingFingers : Obligations.TpFilterListsTouchingFingers := fun f s =>
  ⟨presentFingers f, exec_tpFilter f s, presentFingers_ascending f, fun _ => mem_presentFingers, presentFingers_length_le f⟩

/-- The flipped Y, wrapped to s32 (R233). -/
theorem transformFinger_y (c : Calibration) (f : FingerRec) :
    (transformFinger c f).y = BitVec.ofInt 32 (c.yMin.toInt + c.yMax.toInt - f.absY.toInt) :=
  add_sub_eq_ofInt c.yMin c.yMax f.absY

/-- Settles O30: within R233's bound the flipped Y is below `2^30 + 2^15` in magnitude, so wrapping to s32 keeps it. -/
theorem tpXformFlipsY : Obligations.TpXformFlipsY := by
  intro f s
  refine ⟨transformFinger s.cal f, exec_tpXform f s, rfl, transformFinger_y s.cal f, ?exact⟩
  case exact =>
    intro calLow calHigh yLow yHigh
    rw [transformFinger_y]
    exact BitVec.toInt_ofInt_eq_self (by decide) (by omega) (by omega)

/-! ## Events -/

theorem exec_tpEmit (f : TouchpadFrame) (entries : List TouchEntry) (released : Vector Bool 6) (s : State) :
    exec (.tpEmit f entries released) s
      = .next (s.emit (touchEvents s.par f entries (six.filter (fun j => released[j])))) := rfl

theorem fingerEvent_eq (p : Params) (f : TouchpadFrame) (e : TouchEntry) :
    fingerEvent p f e
      = .finger e.slot e.pos.x e.pos.y
          (BitVec.ofInt 32 (2 * f.fingers[e.finger].touchMajor.toInt))
          (BitVec.ofInt 32 (2 * f.fingers[e.finger].touchMinor.toInt))
          (BitVec.ofInt 32 (2 * f.fingers[e.finger].toolMajor.toInt))
          (BitVec.ofInt 32 (2 * f.fingers[e.finger].toolMinor.toInt))
          (BitVec.ofInt 32 (p.maxOrientation.toInt - f.fingers[e.finger].orientation.toInt)) := by
  simp only [fingerEvent, two_mul_eq_ofInt, sub_eq_ofInt]

/-- Settles O32: the record of each entry is R237's, and only the event stream grows. -/
theorem tpEmitAppendsFrame : Obligations.TpEmitAppendsFrame := by
  intro f entries released s
  rw [exec_tpEmit, touchEvents, funext (fingerEvent_eq s.par f), State.emit, ← List.append_assoc, ← List.append_assoc]

end Sys2Proof.Machine
end

section
/-! `TP_ASSIGN` (43_touch.md R235, R236): the answer of the greedy loop and the allocation after it, described without the loop. -/

namespace Sys2Proof.Machine

theorem exec_tpAssign (pos : List Pos) (s : State) :
    exec (.tpAssign pos) s
      = .next (s.setResult (.assignment (assignSlots s.slots pos).1 (assignSlots s.slots pos).2)) := rfl

/-! ## Distances -/

theorem sqDist_eq_distance (sl : Slot) (p : Pos) : sqDist sl p = distance sl p := by
  simp only [sqDist, distance, pow_two]

theorem pairingOf_eq {pos : List Pos} {q : Nat} {p : Pos} (at_q : pos[q]? = some p) (slots : Vector Slot 6) (s : Fin 6) :
    pairingOf slots pos s q = { dist := distance slots[s] p, slot := s, finger := q } := by
  rw [pairingOf, sqDist_eq_distance, List.getD_eq_getElem?_getD, at_q, Option.getD_some]

/-- The loop's order and R235's are one: what a pairing does not precede comes no later than it. -/
theorem pairNotAfter_of_precedes_eq_false {slots : Vector Slot 6} {pos : List Pos} {s s' : Fin 6} {q q' : Nat} {p p' : Pos}
    (at_q : pos[q]? = some p) (at_q' : pos[q']? = some p')
    (least : precedes (pairingOf slots pos s q) (pairingOf slots pos s' q') = false) :
    pairNotAfter slots s' q' p' s q p := by
  rw [pairingOf_eq at_q, pairingOf_eq at_q', ← Bool.not_eq_true, precedes_iff] at least
  dsimp only at least
  rw [pairNotAfter, Fin.lt_def, Fin.ext_iff]
  omega

/-! ## The two parts of the assignment -/

/-- A finger is matched once or left over. -/
theorem GreedyDone.matched_left_nodup {slots : Vector Slot 6} {pos : List Pos} {m r : Matching} {new : List (Nat × Fin 6)}
    (loop : GreedyDone slots pos m r new) (fingers : m.left.Nodup) : (new.map Prod.fst ++ r.left).Nodup := by
  refine List.nodup_append.2 ⟨loop.fingers, fingers.sublist loop.left_sub, ?_⟩
  rintro _ matched q left rfl
  obtain ⟨p, hp, rfl⟩ := List.mem_map.1 matched
  obtain ⟨-, -, gone, -⟩ := loop.from_both p hp
  exact gone left

/-- `new` are the pairs that the loop of R235 matched, `fresh` the ones that R236 allocated after it. -/
structure AssignDone (slots : Vector Slot 6) (pos : List Pos) (new fresh : List (Nat × Fin 6)) : Prop where
  loop  : GreedyDone slots pos { free := activeSlots slots, left := List.range pos.length, matched := [] }
    (matchFingers slots pos) new
  alloc : FreshDone (activeSlots slots) (matchFingers slots pos).left new fresh

/-- A free index always exists (R236 (2)): when a finger is left over every active slot is matched, and with six fingers at most
the matched and the left ones are at most six. -/
theorem exists_assignDone (slots : Vector Slot 6) {pos : List Pos} (six_at_most : pos.length ≤ 6) :
    ∃ new fresh, AssignDone slots pos new fresh := by
  obtain ⟨new, loop⟩ := matchFingers_done slots pos
  have once := loop.matched_left_nodup List.nodup_range
  obtain ⟨-, -, apart⟩ := List.nodup_append.1 once
  have count : (new.map Prod.fst ++ (matchFingers slots pos).left).length ≤ (List.range pos.length).length :=
    nodup_length_le once fun q hq => by
      rcases List.mem_append.1 hq with hq | hq
      · obtain ⟨m, hm, rfl⟩ := List.mem_map.1 hq
        exact (loop.from_both m hm).1
      · exact loop.left_sub.subset hq
  obtain ⟨fresh, alloc⟩ := allocateFresh_done (activeSlots slots) (matchFingers slots pos).left new
    (List.pairwise_lt_range.sublist loop.left_sub) loop.fingers
    (fun q left matched => apart q matched q left rfl) loop.slotsOf
    (fun left s active => by
      have none_free : (matchFingers slots pos).free = [] := loop.finished.resolve_right left
      rcases loop.mem_free s active with free | ⟨q, hq⟩
      · rw [none_free] at free; cases free
      · exact List.mem_map.2 ⟨(q, s), hq, rfl⟩)
    (by rw [List.length_append, List.length_map, List.length_range] at count; omega)
  exact ⟨new, fresh, loop, alloc⟩

/-- The released slots are those the loop left free. -/
theorem assignSlots_released (slots : Vector Slot 6) (pos : List Pos) :
    (assignSlots slots pos).2 = (matchFingers slots pos).free := rfl

section

variable {slots : Vector Slot 6} {pos : List Pos} {new fresh : List (Nat × Fin 6)}

namespace AssignDone

/-- `slot_of` looks the fingers up among the pairs. -/
theorem slotOf_eq (d : AssignDone slots pos new fresh) :
    (assignSlots slots pos).1 = (List.range pos.length).map (slotOfFinger (fresh ++ new)) := by
  rw [assignSlots, d.loop.matched, List.append_nil, d.alloc.result]

theorem mem_pairs_of_lt (d : AssignDone slots pos new fresh) {q : Nat} (lt : q < pos.length) :
    ∃ s, (q, s) ∈ fresh ++ new := by
  rcases d.loop.mem_left q (List.mem_range.2 lt) with left | ⟨s, matched⟩
  · obtain ⟨s, allocated⟩ := d.alloc.covers q left
    exact ⟨s, List.mem_append_left _ allocated⟩
  · exact ⟨s, List.mem_append_right _ matched⟩

theorem lt_of_mem_pairs (d : AssignDone slots pos new fresh) {q : Nat} {s : Fin 6} (h : (q, s) ∈ fresh ++ new) :
    q < pos.length := by
  rcases List.mem_append.1 h with allocated | matched
  · exact List.mem_range.1 (d.loop.left_sub.subset (d.alloc.unused _ allocated).1)
  · exact List.mem_range.1 (d.loop.from_both _ matched).1

/-- Finger `q` gets slot `s` exactly when the two are paired. -/
theorem getElem?_slotOf (d : AssignDone slots pos new fresh) {q : Nat} {s : Fin 6} :
    (assignSlots slots pos).1[q]? = some s ↔ (q, s) ∈ fresh ++ new := by
  rw [d.slotOf_eq, List.getElem?_map]
  by_cases lt : q < pos.length
  · obtain ⟨s', paired⟩ := d.mem_pairs_of_lt lt
    have found : slotOfFinger (fresh ++ new) q = s' := slotOfFinger_of_mem d.alloc.fingers paired
    rw [List.getElem?_range lt, Option.map_some, found, Option.some.injEq]
    constructor
    · rintro rfl; exact paired
    · intro h; exact found.symm.trans (slotOfFinger_of_mem d.alloc.fingers h)
  · rw [List.getElem?_eq_none (by simpa using lt), Option.map_none]
    exact ⟨nofun, fun h => absurd (d.lt_of_mem_pairs h) lt⟩

theorem mem_slotOf (d : AssignDone slots pos new fresh) {s : Fin 6} :
    s ∈ (assignSlots slots pos).1 ↔ ∃ q, (q, s) ∈ fresh ++ new := by
  rw [List.mem_iff_getElem?]
  exact exists_congr fun q => d.getElem?_slotOf

/-- No slot is paired with two fingers. -/
theorem slotOf_nodup (d : AssignDone slots pos new fresh) : (assignSlots slots pos).1.Nodup := by
  rw [d.slotOf_eq]
  refine List.Nodup.map_on ?_ List.nodup_range
  intro q hq q' hq' same
  obtain ⟨s, paired⟩ := d.mem_pairs_of_lt (List.mem_range.1 hq)
  obtain ⟨s', paired'⟩ := d.mem_pairs_of_lt (List.mem_range.1 hq')
  rw [slotOfFinger_of_mem d.alloc.fingers paired, slotOfFinger_of_mem d.alloc.fingers paired'] at same
  exact congrArg Prod.fst (List.inj_on_of_nodup_map d.alloc.slotsOf paired paired' same)

/-- An active slot was left free by the loop, or the loop matched it. -/
theorem mem_released (d : AssignDone slots pos new fresh) {s : Fin 6} :
    s ∈ (assignSlots slots pos).2 ↔ slots[s].active = true ∧ s ∉ (assignSlots slots pos).1 := by
  rw [assignSlots_released, d.mem_slotOf, ← mem_activeSlots]
  constructor
  · intro free
    have active : s ∈ activeSlots slots := d.loop.free_sub.subset free
    refine ⟨active, ?_⟩
    rintro ⟨q, paired⟩
    rcases List.mem_append.1 paired with allocated | matched
    · exact (d.alloc.unused _ allocated).2 active
    · obtain ⟨-, -, -, gone⟩ := d.loop.from_both _ matched
      exact gone free
  · rintro ⟨active, unpaired⟩
    rcases d.loop.mem_free s active with free | ⟨q, matched⟩
    · exact free
    · exact absurd ⟨q, List.mem_append_right _ matched⟩ unpaired

theorem greedy (d : AssignDone slots pos new fresh) {s : Fin 6} {q : Nat} {p : Pos} (active : slots[s].active = true)
    (at_q : pos[q]? = some p) :
    ∃ (s' : Fin 6) (q' : Nat) (p' : Pos), (assignSlots slots pos).1[q']? = some s' ∧ pos[q']? = some p'
      ∧ slots[s'].active = true ∧ (s' = s ∨ q' = q) ∧ pairNotAfter slots s' q' p' s q p := by
  have lt : q < pos.length := (List.getElem?_eq_some_iff.1 at_q).1
  obtain ⟨⟨q', s'⟩, matched, shares, least⟩ :=
    d.loop.least s (mem_activeSlots.2 active) q (List.mem_range.2 lt)
  obtain ⟨in_range, active', -, -⟩ := d.loop.from_both _ matched
  have at_q' := List.getElem?_eq_getElem (List.mem_range.1 in_range)
  exact ⟨s', q', _, d.getElem?_slotOf.2 (List.mem_append_right _ matched), at_q', mem_activeSlots.1 active', shares,
    pairNotAfter_of_precedes_eq_false at_q at_q' least⟩

/-- A slot that was not active comes from the allocation; what is below it was active, matched or allocated before. -/
theorem fresh_least (d : AssignDone slots pos new fresh) {q : Nat} {s s' : Fin 6}
    (got : (assignSlots slots pos).1[q]? = some s) (inactive : slots[s].active = false) (below : s' < s) :
    slots[s'].active = true ∨ ∃ q' : Nat, q' < q ∧ (assignSlots slots pos).1[q']? = some s' := by
  rcases List.mem_append.1 (d.getElem?_slotOf.1 got) with allocated | matched
  · rcases d.alloc.least _ allocated s' below with active | given | ⟨q', lt, allocated'⟩
    · exact .inl (mem_activeSlots.1 active)
    · obtain ⟨m, hm, rfl⟩ := List.mem_map.1 given
      obtain ⟨-, active, -⟩ := d.loop.from_both m hm
      exact .inl (mem_activeSlots.1 active)
    · exact .inr ⟨q', lt, d.getElem?_slotOf.2 (List.mem_append_left _ allocated')⟩
  · obtain ⟨-, active, -⟩ := d.loop.from_both _ matched
    exact absurd ((mem_activeSlots.1 active).symm.trans inactive) nofun

end AssignDone

end

/-- The assignment is the one R235 and R236 describe. -/
theorem assignSlots_assigned (slots : Vector Slot 6) {pos : List Pos} (six_at_most : pos.length ≤ 6) :
    Assigned slots pos (assignSlots slots pos).1 (assignSlots slots pos).2 := by
  obtain ⟨new, fresh, d⟩ := exists_assignDone slots six_at_most
  exact {
    length := by rw [d.slotOf_eq, List.length_map, List.length_range]
    distinct := d.slotOf_nodup
    ascending := (activeSlots_ascending slots).sublist d.loop.free_sub
    released_iff := fun _ => d.mem_released
    greedy := fun _ _ _ => d.greedy
    fresh := fun _ _ got inactive _ => d.fresh_least got inactive }

/-- Settles O31: the loop and the allocation answer R235's assignment, and only the result register changes. -/
theorem tpAssignIsGreedy : Obligations.TpAssignIsGreedy := fun pos s six_at_most =>
  ⟨_, _, exec_tpAssign pos s, assignSlots_assigned s.slots six_at_most⟩

end Sys2Proof.Machine
end

section
/-! `TP_APPLY` (43_touch.md R230, R238) and its stability (R239). Both are read off the description of the assignment, not off its
loop. -/

namespace Sys2Proof.Machine

/-! ## The frame's fingers, positions and records in the rules' words -/

theorem presentFingers_eq_touching (f : TouchpadFrame) : presentFingers f = touching f :=
  List.filter_congr fun k _ => by rw [Bool.eq_iff_iff, bne_iff_ne, decide_eq_true_iff]

theorem presentPositions_eq_touchPositions (c : Calibration) (f : TouchpadFrame) :
    presentPositions c f = touchPositions c f := by
  rw [presentPositions, touchPositions, presentFingers_eq_touching]
  exact List.map_congr_left fun k _ => congrArg (Pos.mk _) (transformFinger_y c f.fingers[k])

theorem touchPositions_length (c : Calibration) (f : TouchpadFrame) :
    (touchPositions c f).length = (touching f).length := List.length_map _

theorem touchPositions_length_le (c : Calibration) (f : TouchpadFrame) : (touchPositions c f).length ≤ 6 := by
  rw [touchPositions_length, ← presentFingers_eq_touching]
  exact presentFingers_length_le f

/-- Zipping three lists of R230 is zipping the positions with the slots, beside the fingers. -/
theorem map_posSlot_touchEntries (c : Calibration) (f : TouchpadFrame) (slotOf : List (Fin 6)) :
    (touchEntries c f slotOf).map (fun e => (e.pos, e.slot)) = (touchPositions c f).zip slotOf := by
  rw [← presentPositions_eq_touchPositions, touchEntries, presentPositions, List.map_zipWith, List.zip_map_left,
    ← List.map_uncurry_zip_eq_zipWith]
  rfl

theorem map_slot_touchEntries {c : Calibration} {f : TouchpadFrame} {slotOf : List (Fin 6)}
    (length : slotOf.length = (touchPositions c f).length) :
    (touchEntries c f slotOf).map TouchEntry.slot = slotOf := by
  have zipped := congrArg (List.map Prod.snd) (map_posSlot_touchEntries c f slotOf)
  rwa [List.map_map, List.map_snd_zip length.le] at zipped

/-- Entry `q` carries the position and the slot of finger `q`. -/
theorem exists_touchEntry {c : Calibration} {f : TouchpadFrame} {slotOf : List (Fin 6)} {q : Nat} {j : Fin 6} {p : Pos}
    (got : slotOf[q]? = some j) (at_q : (touchPositions c f)[q]? = some p) :
    ∃ e ∈ touchEntries c f slotOf, e.pos = p ∧ e.slot = j := by
  have zipped : (p, j) ∈ (touchPositions c f).zip slotOf :=
    List.mem_iff_getElem?.2 ⟨q, List.getElem?_zip_eq_some.2 ⟨at_q, got⟩⟩
  rw [← map_posSlot_touchEntries] at zipped
  obtain ⟨e, he, same⟩ := List.mem_map.1 zipped
  exact ⟨e, he, congrArg Prod.fst same, congrArg Prod.snd same⟩

theorem fingerEvent_eq_fingerRecord (c : Calibration) (p : Params) (f : TouchpadFrame) (k j : Fin 6) :
    fingerEvent p f { finger := k, pos := transformFinger c f.fingers[k], slot := j } = fingerRecord c p f k j := by
  rw [fingerEvent_eq, transformFinger_y]
  rfl

theorem touchEvents_eq_touchRecords (s : State) (f : TouchpadFrame) (slotOf released : List (Fin 6)) :
    touchEvents s.par f (touchEntries s.cal f slotOf) released = touchRecords s f slotOf released := by
  rw [touchEvents, touchRecords, touchEntries, List.map_zipWith, presentFingers_eq_touching]
  simp only [fingerEvent_eq_fingerRecord]

/-! ## The slot update (R238) on an assignment -/

section

variable {slots : Vector Slot 6} {c : Calibration} {f : TouchpadFrame} {slotOf released : List (Fin 6)}

theorem updateSlots_of_finger (a : Assigned slots (touchPositions c f) slotOf released) {q : Nat} {j : Fin 6} {p : Pos}
    (got : slotOf[q]? = some j) (at_q : (touchPositions c f)[q]? = some p) :
    (updateSlots slots (touchEntries c f slotOf) released)[j] = { active := true, x := p.x, y := p.y } := by
  obtain ⟨e, he, rfl, rfl⟩ := exists_touchEntry got at_q
  exact foldl_occupySlot_of_mem _ (by rw [map_slot_touchEntries a.length]; exact a.distinct) _ e he

/-- The slot of no finger is released, or stays as it is. -/
theorem updateSlots_of_not_mem (a : Assigned slots (touchPositions c f) slotOf released) {j : Fin 6} (unused : j ∉ slotOf) :
    (updateSlots slots (touchEntries c f slotOf) released)[j]
      = if j ∈ released then { slots[j] with active := false } else slots[j] := by
  rw [updateSlots, foldl_occupySlot_of_not_mem, foldl_releaseTouchSlot]
  rintro e he rfl
  rw [← map_slot_touchEntries a.length] at unused
  exact unused (List.mem_map_of_mem he)

/-- A slot of the assignment is some finger's, and that finger has a position. -/
theorem Assigned.exists_finger {pos : List Pos} (a : Assigned slots pos slotOf released) {j : Fin 6} (used : j ∈ slotOf) :
    ∃ (q : Nat) (p : Pos), slotOf[q]? = some j ∧ pos[q]? = some p := by
  obtain ⟨q, got⟩ := List.mem_iff_getElem?.1 used
  have lt : q < pos.length := a.length ▸ (List.getElem?_eq_some_iff.1 got).1
  exact ⟨q, _, got, List.getElem?_eq_getElem lt⟩

/-- "After the step the set of active slots is exactly the range of `slot_of`" (R238). -/
theorem updateSlots_active_iff (a : Assigned slots (touchPositions c f) slotOf released) (j : Fin 6) :
    (updateSlots slots (touchEntries c f slotOf) released)[j].active = true ↔ j ∈ slotOf := by
  by_cases used : j ∈ slotOf
  · obtain ⟨q, p, got, at_q⟩ := a.exists_finger used
    rw [updateSlots_of_finger a got at_q]
    exact iff_of_true rfl used
  · refine iff_of_false ?_ used
    rw [updateSlots_of_not_mem a used]
    split
    case isTrue => exact Bool.false_ne_true
    case isFalse kept => exact fun active => kept ((a.released_iff j).2 ⟨active, used⟩)

end

/-! ## The whole effect of a frame -/

/-- The assignment of a frame in state `s` (R235). -/
def frameSlots (f : TouchpadFrame) (s : State) : List (Fin 6) × List (Fin 6) :=
  assignSlots s.slots (touchPositions s.cal f)

theorem exec_tpAssign_frame (f : TouchpadFrame) (s : State) :
    exec (.tpAssign (touchPositions s.cal f)) s
      = .next { s with result := .assignment (frameSlots f s).1 (frameSlots f s).2 } := exec_tpAssign _ s

theorem frameSlots_assigned (f : TouchpadFrame) (s : State) :
    Assigned s.slots (touchPositions s.cal f) (frameSlots f s).1 (frameSlots f s).2 :=
  assignSlots_assigned s.slots (touchPositions_length_le s.cal f)

/-- `s` after `TP_APPLY` of the frame. -/
def State.afterTouch (f : TouchpadFrame) (s : State) : State :=
  { s with
    events := s.events ++ touchRecords s f (frameSlots f s).1 (frameSlots f s).2
    slots := updateSlots s.slots (touchEntries s.cal f (frameSlots f s).1) (frameSlots f s).2 }

theorem afterTouch_slots (f : TouchpadFrame) (s : State) :
    (s.afterTouch f).slots
      = updateSlots s.slots (touchEntries s.cal f (frameSlots f s).1) (frameSlots f s).2 := rfl

theorem afterTouch_events (f : TouchpadFrame) (s : State) :
    (s.afterTouch f).events = s.events ++ touchRecords s f (frameSlots f s).1 (frameSlots f s).2 := rfl

/-- Records depend on calibration and parameters only, which no frame changes. -/
theorem touchRecords_afterTouch (f : TouchpadFrame) (s : State) :
    touchRecords (s.afterTouch f) f = touchRecords s f := rfl

theorem tpApply_eq_afterTouch (f : TouchpadFrame) (s : State) : tpApply f s = s.afterTouch f := by
  rw [tpApply, presentPositions_eq_touchPositions, touchEvents_eq_touchRecords]
  rfl

theorem exec_tpApply (f : TouchpadFrame) (s : State) : exec (.tpApply f) s = .next (s.afterTouch f) :=
  congrArg Host.Outcome.next (tpApply_eq_afterTouch f s)

/-- Settles O33: a released slot is no finger's, so the three kinds of slots exclude each other. -/
theorem tpApplyEmitsAndTracks : Obligations.TpApplyEmitsAndTracks := by
  intro f s
  have a := frameSlots_assigned f s
  refine ⟨_, _, s.afterTouch f, a, exec_tpApply f s, rfl, fun q j p => updateSlots_of_finger a, ?released, ?other,
    updateSlots_active_iff a⟩
  case released =>
    intro j released
    have unused := ((a.released_iff j).1 released).2
    exact (updateSlots_of_not_mem a unused).trans (if_pos released)
  case other =>
    intro j unused kept
    exact (updateSlots_of_not_mem a unused).trans (if_neg kept)

/-! ## The same frame again (R239) -/

theorem distance_self (active : Bool) (p : Pos) : distance { active := active, x := p.x, y := p.y } p = 0 := by
  simp [distance]

theorem distance_nonneg (sl : Slot) (p : Pos) : 0 ≤ distance sl p := add_nonneg (sq_nonneg _) (sq_nonneg _)

/-- Only the slot's own position is at distance 0 from it. -/
theorem eq_of_distance_eq_zero {active : Bool} {p p' : Pos}
    (zero : distance { active := active, x := p.x, y := p.y } p' = 0) : p = p' := by
  obtain ⟨hx, hy⟩ := (add_eq_zero_iff_of_nonneg (sq_nonneg _) (sq_nonneg _)).1 zero
  exact congrArg₂ Pos.mk (BitVec.eq_of_toInt_eq (sub_eq_zero.1 (sq_eq_zero_iff.1 hx)))
    (BitVec.eq_of_toInt_eq (sub_eq_zero.1 (sq_eq_zero_iff.1 hy)))

/-- The active slots are those of `slotOf`, each at its finger's position: what a frame leaves behind. -/
structure Tracks (slots : Vector Slot 6) (pos : List Pos) (slotOf : List (Fin 6)) : Prop where
  length     : slotOf.length = pos.length
  distinct   : slotOf.Nodup
  position   : ∀ (q : Nat) (j : Fin 6) (p : Pos), slotOf[q]? = some j → pos[q]? = some p →
    slots[j] = { active := true, x := p.x, y := p.y }
  active_iff : ∀ j : Fin 6, slots[j].active = true ↔ j ∈ slotOf

section

variable {slots : Vector Slot 6} {pos : List Pos} {slotOf slotOf' released' : List (Fin 6)}

/-- A taken pair that is not after finger `q` and its own slot is at distance 0, so it is some finger and its own slot. With
distinct positions and slots, sharing one of the two means sharing both. -/
theorem Tracks.keeps_slot (tr : Tracks slots pos slotOf) (distinct_pos : pos.Nodup)
    (a : Assigned slots pos slotOf' released') {q : Nat} {j : Fin 6} (got : slotOf[q]? = some j) :
    slotOf'[q]? = some j := by
  have lt : q < pos.length := tr.length ▸ (List.getElem?_eq_some_iff.1 got).1
  have at_q := List.getElem?_eq_getElem lt
  have here := tr.position q j _ got at_q
  obtain ⟨j', q', p', taken, at_q', active', shares, first⟩ := a.greedy j q _ (by rw [here]) at_q
  obtain ⟨r, got'⟩ := List.mem_iff_getElem?.1 ((tr.active_iff j').1 active')
  have lt_r : r < pos.length := tr.length ▸ (List.getElem?_eq_some_iff.1 got').1
  have at_r := List.getElem?_eq_getElem lt_r
  have there := tr.position r j' _ got' at_r
  have zero : distance slots[j'] p' = 0 := by
    have own : distance slots[j] pos[q] = 0 := by rw [here, distance_self]
    have := distance_nonneg slots[j'] p'
    rw [pairNotAfter, own] at first
    omega
  rw [there] at zero
  obtain rfl : r = q' := (List.getElem?_inj lt_r distinct_pos).1 <| by
    rw [at_r, at_q', eq_of_distance_eq_zero zero]
  rcases shares with rfl | rfl
  · obtain rfl : r = q := (List.getElem?_inj (tr.length ▸ lt_r) tr.distinct).1 (got'.trans got.symm)
    exact taken
  · rw [taken, ← got', got]

theorem Tracks.slotOf_eq (tr : Tracks slots pos slotOf) (distinct_pos : pos.Nodup)
    (a : Assigned slots pos slotOf' released') : slotOf' = slotOf := by
  have same_length : slotOf'.length = slotOf.length := a.length.trans tr.length.symm
  refine List.ext_getElem? fun q => ?_
  by_cases lt : q < slotOf.length
  · have got := List.getElem?_eq_getElem lt
    rw [got, tr.keeps_slot distinct_pos a got]
  · rw [List.getElem?_eq_none (not_lt.1 lt), List.getElem?_eq_none (same_length ▸ not_lt.1 lt)]

theorem Tracks.released_eq_nil (tr : Tracks slots pos slotOf) (distinct_pos : pos.Nodup)
    (a : Assigned slots pos slotOf' released') : released' = [] := by
  refine List.eq_nil_iff_forall_not_mem.2 fun j released => ?_
  obtain ⟨active, unused⟩ := (a.released_iff j).1 released
  rw [tr.slotOf_eq distinct_pos a] at unused
  exact unused ((tr.active_iff j).1 active)

end

/-- With the fingers where the slots have them, the slot update changes nothing. -/
theorem Tracks.updateSlots_eq {slots : Vector Slot 6} {c : Calibration} {f : TouchpadFrame} {slotOf : List (Fin 6)}
    (tr : Tracks slots (touchPositions c f) slotOf) (a : Assigned slots (touchPositions c f) slotOf []) :
    updateSlots slots (touchEntries c f slotOf) [] = slots := by
  have each (j : Fin 6) : (updateSlots slots (touchEntries c f slotOf) [])[j] = slots[j] := by
    by_cases used : j ∈ slotOf
    · obtain ⟨q, p, got, at_q⟩ := a.exists_finger used
      rw [updateSlots_of_finger a got at_q, tr.position q j p got at_q]
    · exact (updateSlots_of_not_mem a used).trans (if_neg List.not_mem_nil)
  exact Vector.ext fun i lt => each ⟨i, lt⟩

theorem afterTouch_tracks (f : TouchpadFrame) (s : State) :
    Tracks (s.afterTouch f).slots (touchPositions s.cal f) (frameSlots f s).1 :=
  have a := frameSlots_assigned f s
  { length := a.length, distinct := a.distinct, position := fun _ _ _ => updateSlots_of_finger a
    active_iff := updateSlots_active_iff a }

theorem frameSlots_afterTouch {f : TouchpadFrame} {s : State} (distinct_pos : (touchPositions s.cal f).Nodup) :
    frameSlots f (s.afterTouch f) = ((frameSlots f s).1, []) :=
  have tr := afterTouch_tracks f s
  have a := frameSlots_assigned f (s.afterTouch f)
  Prod.ext (tr.slotOf_eq distinct_pos a) (tr.released_eq_nil distinct_pos a)

/-- Settles O34: after the first application every finger is at distance 0 from its own slot and from no other, so the second
assignment is the first, without a release. -/
theorem touchAssignmentIsStable : Obligations.TouchAssignmentIsStable := by
  intro f s t distinct_pos first
  obtain rfl : s.afterTouch f = t := Host.Outcome.next.inj ((exec_tpApply f s).symm.trans first)
  have again := frameSlots_afterTouch distinct_pos
  have a := frameSlots_assigned f (s.afterTouch f)
  rw [again] at a
  refine ⟨_, _, (s.afterTouch f).afterTouch f, exec_tpAssign_frame f s, ?assign, exec_tpApply f _, ?slots, ?events⟩
  case assign => rw [exec_tpAssign_frame, again]
  case slots =>
    rw [afterTouch_slots, again]
    exact (afterTouch_tracks f s).updateSlots_eq a
  case events => rw [afterTouch_events, again, touchRecords_afterTouch]

end Sys2Proof.Machine
end

section
/-! The LED Command Queue: its three operations (44_led_queue.md R260 to R267), and what the agents' moves keep of it (R263). -/

namespace Sys2Proof.Machine

/-! ## The operations, an equation per case (R260 to R264) -/

theorem exec_ledSend (s : State) : exec .ledSend s = .next (ledSend s) := rfl

theorem exec_ledRequest (on : Bool) (s : State) : exec (.ledRequest on) s = .next (ledRequest on s) := rfl

theorem exec_ledComplete (o : XferOutcome) (s : State) : exec (.ledComplete o) s = .next (ledComplete o s) := rfl

/-- A request for the value already sent, or during a flight, builds nothing (R260, R261). -/
theorem ledRequest_noted {on : Bool} {s : State} (done : s.initDone = true) (noSend : on = s.led.sent ∨ s.led.inflight = true) :
    ledRequest on s = s.setWant on := by
  rcases ledRequest_cases on s with ⟨notDone, -⟩ | ⟨-, -, e⟩ | ⟨-, differs, free, -⟩
  · simp [done] at notDone
  · exact e
  · simp [differs, free] at noSend

theorem ledRequest_sends {on : Bool} {s : State} (done : s.initDone = true) (differs : on ≠ s.led.sent)
    (free : s.led.inflight = false) : ledRequest on s = ledSend (s.setWant on) := by
  rcases ledRequest_cases on s with ⟨notDone, -⟩ | ⟨-, noSend, -⟩ | ⟨-, -, -, e⟩
  · simp [done] at notDone
  · simp [differs, free] at noSend
  · exact e

theorem ledRequest_dropped (on : Bool) {s : State} (notDone : s.initDone = false) :
    ledRequest on s = s.raise (.usageError 0x50) := by
  rcases ledRequest_cases on s with ⟨-, e⟩ | ⟨done, -⟩ | ⟨done, -⟩
  · exact e
  · simp [notDone] at done
  · simp [notDone] at done

theorem ledComplete_settles (o : XferOutcome) {s : State} (settled : s.led.want = s.led.sent ∨ s.initDone = false) :
    ledComplete o s = s.clearInflight := by
  rcases ledComplete_cases o s with ⟨-, e⟩ | ⟨differs, done, -⟩
  · exact e
  · simp [differs, done] at settled

/-- The re-check sends as `LED_SEND` would have before in-flight was cleared: it sets the flag again. -/
theorem ledComplete_resends (o : XferOutcome) {s : State} (differs : s.led.want ≠ s.led.sent) (done : s.initDone = true) :
    ledComplete o s = ledSend s := by
  rcases ledComplete_cases o s with ⟨settled, -⟩ | ⟨-, -, e⟩
  · simp [differs, done] at settled
  · exact e

/-! ## What each operation leaves (R262, R264, R267) -/

/-- Settles O35: the frame of `LED_SEND`, and the codec's law for the command it builds. -/
theorem ledSendDispatchesWanted : Obligations.LedSendDispatchesWanted := fun s =>
  ⟨_, exec_ledSend s, ledSend_eq s, holdsLedCommand_ledCommand s.par s.led.seq s.led.want⟩

/-- Settles O36: one case of the request after the other. -/
theorem ledRequestSendsOnceNeeded : Obligations.LedRequestSendsOnceNeeded := by
  intro on s
  refine ⟨fun done noSend => ?noted, fun done differs free => ?sent, fun notDone => ?dropped⟩
  case noted => rw [exec_ledRequest, ledRequest_noted done noSend, State.setWant]
  case sent =>
    rw [exec_ledRequest, ledRequest_sends done differs free]
    exact ⟨_, rfl, ledSend_eq (s.setWant on), holdsLedCommand_ledCommand s.par s.led.seq on⟩
  case dropped => rw [exec_ledRequest, ledRequest_dropped on notDone]

/-- Settles O37: the two cases of the re-check. -/
theorem ledCompleteRechecks : Obligations.LedCompleteRechecks := by
  intro o s
  refine ⟨fun settled => ?settles, fun differs done => ⟨ledSend s, ?resends, exec_ledSend s⟩⟩
  case settles => rw [exec_ledComplete, ledComplete_settles o settled, State.clearInflight]
  case resends => rw [exec_ledComplete, ledComplete_resends o differs done]

/-- Settles O38: both requests only note the wanted value, so the one re-check compares it with the value in flight. -/
theorem twoRequestsOneSend : Obligations.TwoRequestsOneSend := by
  intro o s s1 s2 s3 done flying first second completion
  obtain rfl : s.setWant true = s1 := by
    rw [exec_ledRequest, ledRequest_noted done (.inr flying)] at first
    exact Host.Outcome.next.inj first
  obtain rfl : (s.setWant true).setWant true = s2 := by
    rw [exec_ledRequest, ledRequest_noted (s := s.setWant true) done (.inr flying)] at second
    exact Host.Outcome.next.inj second
  obtain rfl : ledComplete o ((s.setWant true).setWant true) = s3 := Host.Outcome.next.inj completion
  refine ⟨rfl, rfl, fun carriedFalse => ?resent, fun carriedTrue => ?settled⟩
  case resent =>
    have differs : true ≠ s.led.sent := by simp [carriedFalse]
    rw [ledComplete_resends (s := (s.setWant true).setWant true) o differs done]
    exact ⟨rfl, rfl, rfl, holdsLedCommand_ledCommand s.par s.led.seq true⟩
  case settled =>
    rw [ledComplete_settles (s := (s.setWant true).setWant true) o (.inl carriedTrue.symm)]
    exact ⟨rfl, rfl, rfl⟩

/-! ## What an agent's move does to the queue (R263) -/

/-- What an agent's move can do to the LED queue: pass it by, note a wanted value, send on request, put the pending command on the
wire, or end the command's exchange with or without sending the next. -/
inductive LedMove (s t : State) : Prop where
  | passed (led : t.led = s.led) (wrPending : t.xport.wrPending = s.xport.wrPending)
      (texch : t.xport.texch = s.xport.texch ∨ t.xport.texch ≠ .asyncWtr)
  | noted (on : Bool) (noSend : on = s.led.sent ∨ s.led.inflight = true) (led : t.led = { s.led with want := on })
      (xport : t.xport = s.xport)
  | requested (done : s.initDone = true) (free : s.led.inflight = false) (inflight : t.led.inflight = true)
      (texch : t.xport.texch = s.xport.texch)
  | started (pending : s.xport.wrPending = true) (led : t.led = s.led) (wrPending : t.xport.wrPending = false)
  | settled (onWire : s.xport.texch = .asyncWtr) (noSend : s.led.want = s.led.sent ∨ s.initDone = false)
      (led : t.led = { s.led with inflight := false }) (wrPending : t.xport.wrPending = s.xport.wrPending)
      (texch : t.xport.texch = .none)
  | resent (done : s.initDone = true) (inflight : t.led.inflight = true) (texch : t.xport.texch = .none)

theorem LedMove.ledRequest (on : Bool) (s : State) : LedMove s (ledRequest on s) := by
  rcases ledRequest_cases on s with ⟨-, e⟩ | ⟨-, noSend, e⟩ | ⟨done, -, free, e⟩ <;> rw [e]
  · exact .passed rfl rfl (.inl rfl)
  · exact .noted on noSend rfl rfl
  · exact .requested done free rfl rfl

theorem LedMove.transportStart (s : State) : LedMove s (transportStart s) := by
  rcases transportStart_cases s with e | ⟨-, -, e | e⟩ | ⟨-, pending, e | e⟩ <;> rw [e]
  · exact .passed rfl rfl (.inl rfl)
  · exact .passed rfl rfl (.inr (by simp [startRead]))
  · exact .passed rfl rfl (.inr (by simp [startRead]))
  · exact .started pending rfl rfl
  · exact .started pending rfl rfl

theorem LedMove.transportTransfer (s : State) : LedMove s (transportTransfer s) := by
  rw [transportTransfer_frame]
  exact .passed rfl rfl (.inl rfl)

/-- `INIT`'s exchanges are synchronous. -/
theorem LedMove.initFrom (k : Nat) {s u : State} (led : u.led = s.led) (wrPending : u.xport.wrPending = s.xport.wrPending)
    (texch : u.xport.texch = s.xport.texch ∨ u.xport.texch ≠ .asyncWtr) : LedMove s (initFrom k u) := by
  rcases initFrom_cases k u with ⟨p, -, e⟩ | ⟨-, e⟩ <;> rw [e]
  · exact .passed led wrPending (.inr (by simp))
  · exact .passed led wrPending texch

/-- At the end of an exchange the channel is free; only the handler of `X_ASYNC_WTR` touches the queue (40_transport.md R143). -/
theorem LedMove.completeExchange (s : State) : LedMove s (completeExchange s) := by
  obtain ⟨u, same, h⟩ := completeExchange_cases s
  have wrPending : u.xport.wrPending = s.xport.wrPending := congrArg Transport.wrPending same.xport
  have freed (v : State) : (freeChannel v).xport.texch ≠ .asyncWtr := by simp [freeChannel]
  rcases h with ⟨-, e⟩ | ⟨-, r, e⟩ | ⟨-, k, -, e⟩ | ⟨onWire, o, e⟩ <;> rw [e]
  · exact .passed same.led wrPending (.inr (freed u))
  · exact .passed same.led wrPending (.inr (freed u))
  · exact .initFrom (k + 1) rfl rfl (.inr (freed s))
  · rcases ledComplete_cases o (freeChannel u) with ⟨noSend, e⟩ | ⟨-, done, e⟩ <;> rw [e]
    · have noSend' : u.led.want = u.led.sent ∨ u.initDone = false := noSend
      rw [same.led, same.initDone] at noSend'
      exact .settled onWire noSend' (congrArg (fun l : LedRegs => { l with inflight := false }) same.led) wrPending rfl
    · exact .resent (same.initDone.symm.trans done) rfl rfl

/-- Of the agents' operations these touch the queue; `LED_SEND`, `LED_COMPLETE` and `WTRA` are not theirs (00_scope.md R8). -/
theorem Effect.ledMove {i : Instr} {s t : State} (he : Effect s i t) (agent : byAgent i = true) : LedMove s t := by
  cases he with
  | aside same => exact .passed same.led (by rw [same.xport]) (.inl (by rw [same.xport]))
  | initStarted => exact .initFrom 0 rfl rfl (.inl rfl)
  | writeStarted => exact .passed rfl rfl (.inr (by simp))
  | readStarted => exact .passed rfl rfl (.inr (by simp))
  | ledRequested => exact .ledRequest _ s
  | exchangeStarted => exact .transportStart s
  | transferred => exact .transportTransfer s
  | completed => exact .completeExchange s
  | writeRequested => cases agent
  | ledSent => cases agent
  | ledCompleted => cases agent
  | _ => exact .passed rfl rfl (.inl rfl)

/-! ## At most one command (R263) -/

/-- A pending or running command is in flight, so a request sends only into an empty queue, and the one that leaves the pending
place or the channel is the only one. -/
theorem LedMove.ledConsistent {s t : State} (move : LedMove s t) (hc : LedConsistent s) : LedConsistent t := by
  obtain ⟨idle, once⟩ := hc
  cases move with
  | passed led wrPending texch =>
    rw [LedConsistent, led, wrPending]
    rcases texch with same | other
    · rw [same]; exact ⟨idle, once⟩
    · exact ⟨fun free => ⟨(idle free).1, other⟩, fun both => other both.2⟩
  | noted on _ led xport => rw [LedConsistent, led, xport]; exact ⟨idle, once⟩
  | requested _ free inflight texch =>
    obtain ⟨-, notOnWire⟩ := idle free
    rw [LedConsistent, inflight, texch]
    exact ⟨nofun, fun both => notOnWire both.2⟩
  | started pending led wrPending =>
    have flying : s.led.inflight ≠ false := fun free => by simp [(idle free).1] at pending
    rw [LedConsistent, led, wrPending]
    exact ⟨fun free => absurd free flying, fun both => absurd both.1 (by simp)⟩
  | settled onWire _ _ wrPending texch =>
    have notPending : s.xport.wrPending = false := Bool.eq_false_iff.2 fun pending => once ⟨pending, onWire⟩
    rw [LedConsistent, wrPending, texch, notPending]
    exact ⟨fun _ => ⟨rfl, by simp⟩, fun both => absurd both.1 (by simp)⟩
  | resent _ inflight texch =>
    rw [LedConsistent, inflight, texch]
    exact ⟨nofun, fun both => absurd both.2 (by simp)⟩

/-- Settles O58: each of the agents' moves keeps the queue consistent, and reset empties it. -/
theorem ledConsistentKeptByAgents : Obligations.LedConsistentKeptByAgents := by
  intro s t m rest hc hs ha h
  cases hr : notReset s with
  | false =>
    obtain ⟨_, rfl⟩ := step_reset hr h
    obtain ⟨-, -, consistent, -⟩ := invariantsHoldAfterReset
    exact consistent
  | true =>
    obtain ⟨_, he⟩ := Effect.of_step hr h
    exact (he.ledMove (byAgent_nextInstr hs ha)).ledConsistent hc

/-! ## Convergence (R263, R266) -/

/-- An exchange that ends was in flight, so the block was initialised and the handler's re-check counts. -/
theorem LedMove.ledConverged {s t : State} (move : LedMove s t) (hc : LedConsistent s) (hv : LedConverged s)
    (kept : s.initDone = true → t.initDone = true) : LedConverged t := by
  obtain ⟨flying, equal⟩ := hv
  cases move with
  | passed led | started _ led => rw [LedConverged, led]; exact ⟨kept ∘ flying, equal⟩
  | noted on noSend led =>
    rw [LedConverged, led]
    refine ⟨kept ∘ flying, fun free => noSend.resolve_right ?_⟩
    simpa using free
  | requested done _ inflight | resent done inflight =>
    exact ⟨fun _ => kept done, fun free => by simp [inflight] at free⟩
  | settled onWire noSend led =>
    have done : s.initDone = true := by
      cases hf : s.led.inflight with
      | true => exact flying hf
      | false => exact absurd onWire (hc.1 hf).2
    rw [LedConverged, led]
    exact ⟨nofun, fun _ => noSend.resolve_right (by simp [done])⟩

theorem Effect.initDone_kept {i : Instr} {s t : State} (he : Effect s i t) (notShutdown : i ≠ .shutdown)
    (done : s.initDone = true) : t.initDone = true := by
  rcases he.initDone_cases with e | ⟨e, -⟩ | ⟨-, e⟩
  · exact e.trans done
  · exact e
  · exact absurd e notShutdown

/-- Settles O59: the agents' moves other than `SHUTDOWN` keep `init_done`, and so the queue converged; reset empties it. -/
theorem ledConvergesWithoutShutdown : Obligations.LedConvergesWithoutShutdown := by
  intro s t m rest hc hv hs ha notShutdown h
  cases hr : notReset s with
  | false =>
    obtain ⟨_, rfl⟩ := step_reset hr h
    obtain ⟨-, -, -, converged, -⟩ := invariantsHoldAfterReset
    exact converged
  | true =>
    obtain ⟨_, he⟩ := Effect.of_step hr h
    exact (he.ledMove (byAgent_nextInstr hs ha)).ledConverged hc hv
      (he.initDone_kept fun e => notShutdown (shutdownNext_of_nextInstr e))

end Sys2Proof.Machine
end

section
/-! What a port accepts is well formed: the decoder's checks on operands and the widths of its fields are the bounds of
`Instr.wellFormed` (30_encoding.md R104, R105; 45_system.md R280). -/

namespace Sys2Proof

/-- Only internal operations have operands that the types leave too wide. -/
theorem wellFormed_of_port {i : Instr} : portOfInstr i ≠ .op → i.wellFormed = true := by
  cases i <;> simp [portOfInstr, Instr.wellFormed]

/-- An answer of the decoder that is no ill-formed instruction. -/
def AnswersWellFormed : Except Reject Instr → Prop
  | .ok i => i.wellFormed = true
  | .error _ => True

theorem AnswersWellFormed.ite {c : Prop} [Decidable c] {a b : Except Reject Instr} (ha : AnswersWellFormed a)
    (hb : AnswersWellFormed b) : AnswersWellFormed (if c then a else b) := by
  split
  · exact ha
  · exact hb

theorem AnswersWellFormed.orBad (op : Byte) {o : Option Instr} (h : ∀ i, o = some i → i.wellFormed = true) :
    AnswersWellFormed (orBad op o) := by
  cases o with
  | none => trivial
  | some i => exact h i rfl

theorem AnswersWellFormed.decodeOutcomeOp (op b : Byte) {mk : XferOutcome → Option Instr}
    (h : ∀ o i, mk o = some i → i.wellFormed = true) : AnswersWellFormed (decodeOutcomeOp op mk b) := by
  refine .orBad op fun i hi => ?_
  obtain ⟨o, -, made⟩ := Option.bind_eq_some_iff.1 hi
  exact h o i made

theorem decodePosList_length (bs : List Byte) : ∀ n off, (decodePosList bs n off).length = n
  | 0, _ => rfl
  | n + 1, off => congrArg (· + 1) (decodePosList_length bs n (off + 8))

theorem decodeEntries_length {bs : List Byte} : ∀ {n off : Nat} {es : List TouchEntry},
    decodeEntries bs n off = some es → es.length = n
  | 0, _, _, h => by cases h; rfl
  | n + 1, off, es, h => by
    unfold decodeEntries at h
    split at h
    · next rest _ hr =>
      cases h
      exact congrArg (· + 1) (decodeEntries_length hr)
    · cases h

/-- The length of a `CRC16` operand is read from 16 bits (log entry 15). -/
theorem crc16_operand_wellFormed (bs : List Byte) (n : Word16) : (Instr.crc16 (slice bs 3 n.toNat)).wellFormed = true := by
  have length : (slice bs 3 n.toNat).length = n.toNat := by simp [slice]
  exact decide_eq_true (length.trans_lt n.isLt)

theorem decodeTpAssign_wellFormed {bs : List Byte} {i : Instr} (h : decodeTpAssign bs = some i) : i.wellFormed = true := by
  unfold decodeTpAssign at h
  split at h
  · next atMost =>
    cases h
    exact decide_eq_true ((decodePosList_length bs _ 2).trans_le atMost)
  · cases h

theorem decodeTpEmit_wellFormed {bs : List Byte} {i : Instr} (h : decodeTpEmit bs = some i) : i.wellFormed = true := by
  unfold decodeTpEmit at h
  split at h
  · next atMost =>
    obtain ⟨es, entries, rfl⟩ := Option.map_eq_some_iff.1 h
    exact decide_eq_true ((decodeEntries_length entries).trans_le atMost)
  · cases h

/-- The rows of `OP8` in the decoder's order; four of them bound their operands. -/
theorem decodeOp_wellFormed (bs : List Byte) : AnswersWellFormed (decodeOp bs) := by
  refine .ite rfl <| .ite ?rdComplete <| .ite rfl <| .ite rfl <| .ite rfl <| .ite rfl <| .ite rfl <| .ite rfl <| .ite rfl <|
    .ite rfl <| .ite rfl <| .ite rfl <| .ite ?crc16 <| .ite rfl <| .ite rfl <| .ite rfl <| .ite rfl <| .ite rfl <| .ite rfl <|
    .ite rfl <| .ite ?tpAssign <| .ite ?tpEmit <| .ite rfl <| .ite ?ledComplete trivial
  case rdComplete =>
    refine .decodeOutcomeOp _ _ fun o i made => ?_
    split at made
    · cases made
    · next notProtocol =>
      cases made
      cases o with
      | failProtocol => exact absurd rfl notProtocol
      | ok | failTransport => rfl
  case crc16 => exact crc16_operand_wellFormed bs _
  case tpAssign => exact .orBad _ fun _ => decodeTpAssign_wellFormed
  case tpEmit => exact .orBad _ fun _ => decodeTpEmit_wellFormed
  case ledComplete =>
    refine .decodeOutcomeOp _ _ fun o i made => ?_
    cases made
    rfl

theorem wellFormed_of_decode {t : Tags} {p : Port} {bs : List Byte} {i : Instr} (h : decode t p bs = .ok i) :
    i.wellFormed = true := by
  by_cases port : portOfInstr i = .op
  · obtain rfl : Port.op = p := port.symm.trans (portOfInstr_of_decode h)
    have answer := decodeOp_wellFormed bs
    rwa [show decodeOp bs = .ok i from h] at answer
  · exact wellFormed_of_port port

/-- Settles O11: the port's own rows, each with its operands in range. -/
theorem decodedInstructionBelongsToPort : Obligations.DecodedInstructionBelongsToPort :=
  fun _ _ _ _ h => ⟨wellFormed_of_decode h, portOfInstr_of_decode h⟩

end Sys2Proof
end

section
/-! Configuration and the host's other unconditional commands (45_system.md R280 to R282, R288, R289), the requests that latch a
pending flag (R284), and the start of `INIT` (R283). -/

namespace Sys2Proof.Machine

/-! ## `CFG_LOAD` (R281) -/

theorem eight_get (i : Fin 8) : eight[i.val] = i := by
  revert i
  decide

theorem supplied_iff (e : CfgEntry) : supplied e = true ↔ e.present ≠ 0 := bne_iff_ne

theorem leastAbsent_eq_none {entries : Vector CfgEntry 8} (complete : ∀ i : Fin 8, entries[i].present ≠ 0) :
    leastAbsent entries = none := by
  refine List.find?_eq_none.2 fun i _ => ?_
  simpa using (supplied_iff _).2 (complete i)

/-- The search goes through the entries in ascending order (60_exceptions.md R311 (1)). -/
theorem leastAbsent_eq_some {entries : Vector CfgEntry 8} {i : Fin 8} (absent : entries[i].present = 0)
    (before : ∀ j : Fin 8, j < i → entries[j].present ≠ 0) : leastAbsent entries = some i := by
  refine List.find?_eq_some_iff_getElem.2 ⟨?_, i.val, i.isLt, eight_get i, fun j hj => ?_⟩
  · rw [supplied, absent]
    rfl
  · have found := (supplied_iff _).2 (before ⟨j, hj.trans i.isLt⟩ hj)
    rw [eight_get ⟨j, hj.trans i.isLt⟩, found]
    rfl

section

variable {entries : Vector CfgEntry 8} {s : State}

theorem exec_cfgLoad (entries : Vector CfgEntry 8) (s : State) : exec (.cfgLoad entries) s = .next (cfgLoad entries s) := rfl

theorem cfgLoad_loaded (loaded : s.cfgValid = true) : cfgLoad entries s = s.raise (.usageError 0x01) := if_pos loaded

theorem cfgLoad_absent (fresh : s.cfgValid = false) {i : Fin 8} (least : leastAbsent entries = some i) :
    cfgLoad entries s = s.raise (.configurationMissing i) := by
  rw [cfgLoad, fresh, least]
  rfl

theorem cfgLoad_complete (fresh : s.cfgValid = false) (complete : ∀ i : Fin 8, entries[i].present ≠ 0) :
    cfgLoad entries s
      = if entries[1].value ≠ 8 then s.raise (.usageError 0x01) else s.storeConfig (spiOf entries) := by
  rw [cfgLoad, fresh, leastAbsent_eq_none complete]
  rfl

end

/-- CSR `i` reads what entry `i` of the record held (10_state.md R24). -/
theorem readCsr_storeConfig (entries : Vector CfgEntry 8) (s : State) (i : Fin 8) :
    (s.storeConfig (spiOf entries)).readCsr (BitVec.ofNat 4 i.val) = entries[i].value := by
  match i with
  | 0 | 1 | 2 | 3 | 4 | 5 | 6 | 7 => rfl

/-- Settles O13: the record passes the three checks, and its values go to the CSRs in order. -/
theorem cfgLoadStoresEightValues : Obligations.CfgLoadStoresEightValues := by
  intro entries s fresh complete wordSize
  have stored : cfgLoad entries s = s.storeConfig (spiOf entries) :=
    (cfgLoad_complete fresh complete).trans (if_neg (not_not.2 wordSize))
  exact ⟨_, congrArg Host.Outcome.next stored, rfl, readCsr_storeConfig entries s⟩

/-- Settles O14: each clause is the check that fails, after those before it. -/
theorem cfgLoadRefusedInOrder : Obligations.CfgLoadRefusedInOrder := by
  intro entries s
  simp only [exec_cfgLoad]
  refine ⟨fun loaded => ?loaded, fun fresh i absent before => ?absent, fun fresh complete wordSize => ?wordSize⟩
  case loaded => rw [cfgLoad_loaded loaded]
  case absent => rw [cfgLoad_absent fresh (leastAbsent_eq_some absent before)]
  case wordSize => rw [cfgLoad_complete fresh complete, if_pos wordSize]

/-! ## `NOP`, `SHUTDOWN`, `SET_CAL`, `SET_TUNABLES` (R280, R282, R288, R289) -/

/-- Settles O12: the meanings of the three commands have no condition. -/
theorem unconditionalHostCommands : Obligations.UnconditionalHostCommands :=
  ⟨fun _ => rfl, fun _ => rfl, fun _ _ _ _ _ => rfl⟩

theorem iso_tunablesOf : ∀ (fnmode : BitVec 2) (iso : Bool), (tunablesOf fnmode iso).getLsbD 2 = iso := by decide

theorem toNat_tunablesOf : ∀ (fnmode : BitVec 2) (iso : Bool), (tunablesOf fnmode iso).toNat = fnmode.toNat + 4 * iso.toNat := by
  decide

/-- CSR 8 reads its three bits with zeros above (log entry 34). -/
theorem toNat_readCsr_tunables (s : State) : (s.readCsr 8).toNat = s.tunables.toNat :=
  BitVec.toNat_setWidth_of_le (b := s.tunables) (by decide)

/-- Settles O15: the two fields and the value of the register that they make up. -/
theorem setTunablesWritesCsr8 : Obligations.SetTunablesWritesCsr8 := by
  intro fnmode iso s
  refine ⟨fun legal => ⟨s.setTunablesReg (tunablesOf fnmode iso), if_neg legal, rfl, fnmode_tunablesOf fnmode iso,
    iso_tunablesOf fnmode iso, ?_⟩, fun reserved => if_pos reserved⟩
  exact (toNat_readCsr_tunables _).trans (toNat_tunablesOf fnmode iso)

/-! ## Requests (R284; 40_transport.md R147, R148) -/

theorem gpeTrigger_lost {s : State} (unarmed : s.gpeArmed = false) : gpeTrigger s = s := by
  rw [gpeTrigger, unarmed]
  rfl

theorem gpeTrigger_latched {s : State} (armed : s.gpeArmed = true) : gpeTrigger s = requestRead s := if_pos armed

theorem gpeTrigger_eq (s : State) : gpeTrigger s = s.setRdPending (s.xport.rdPending || s.gpeArmed) := by
  cases armed : s.gpeArmed with
  | true => rw [gpeTrigger_latched armed, Bool.or_true]; rfl
  | false => rw [gpeTrigger_lost armed, Bool.or_false]; rfl

/-- Settles O18: the trigger by the state of the event source; the two requests have no condition. -/
theorem requestsLatchPendingFlags : Obligations.RequestsLatchPendingFlags :=
  fun s => ⟨congrArg Host.Outcome.next (gpeTrigger_eq s), rfl, rfl⟩

/-! ## `INIT` (R283) -/

theorem exec_init {s : State} (free : s.syncReady = true) : exec .init s = .next (initFrom 0 s) := if_pos free

/-- Settles O16: inside the window the loop starts at packet 0, which may be past the end. -/
theorem initStartsFirstPacket : Obligations.InitStartsFirstPacket := by
  intro s configured unarmed undone idle noRead noWrite noLed
  rw [exec_init ((syncReady_iff s).2 ⟨configured, unarmed, undone, idle, noRead, noWrite, noLed⟩)]
  refine ⟨fun p more packets => ?first, fun none => ?none⟩
  case first =>
    have started : initFrom 0 s = s.startSyncWrite (.init 0) p := initFrom_packet (by rw [packets]; rfl)
    exact ⟨_, congrArg Host.Outcome.next started, rfl, firstBytes_load_packet p, load_packet_wf p⟩
  case none => exact congrArg Host.Outcome.next (initFrom_end (by simp [none]))

end Sys2Proof.Machine
end

section
/-! The dispatch of a received packet by its tag (45_system.md R286, R287; 60_exceptions.md R304). -/

namespace Sys2Proof.Machine

theorem dispatchPacket_unknown {m : Memory} {s : State} {tag : Word16} (h : classifyPacket s.par.tags m = .unknown tag) :
    dispatchPacket m s = dropUnknown tag s := by
  rw [dispatchPacket, h]

/-- The diagnostic error and, under `TRACE_UNKNOWN`, its trace record (R287). -/
theorem dropUnknown_eq (tag : Word16) (s : State) :
    dropUnknown tag s
      = { s with err := s.err ||| 0b000100
                 log := s.log ++ [.err (.unrecognizedPacket tag)]
                   ++ (if s.par.traceUnknown then [.traceUnknown tag] else []) } := by
  cases trace : s.par.traceUnknown with
  | true => exact if_pos trace
  | false => rw [dropUnknown, trace, if_neg Bool.false_ne_true, if_neg Bool.false_ne_true, List.append_nil]; rfl

/-- A failed transfer's packet is discarded, whatever the offsets (R286). -/
theorem exec_rdComplete_failTransport (s : State) : exec (.rdComplete .failTransport) s = .next s := rfl

/-- Settles O19: distinct tags give the packet one class, and the class selects the operation. -/
theorem dispatchFollowsTag : Obligations.DispatchFollowsTag := by
  refine ⟨?_, fun s fits => ⟨_, exec_rdComplete fits .ok, exec_dispatch fits⟩, exec_rdComplete_failTransport⟩
  intro s tag fits distinct received
  have cls : classifyPacket s.par.tags s.rxBuf = classifyTag s.par.tags tag :=
    congrArg (classifyTag s.par.tags) ((le16_eq s.rxBuf 0).trans received.symm)
  obtain ⟨nothing, keyboard, touchpad, unknown⟩ := classifyTag_iff distinct tag
  rw [exec_dispatch fits]
  refine ⟨fun h => ?nothing, fun h => ⟨_, ?keyboard, rfl⟩, fun h => ⟨_, ?touchpad, rfl⟩,
    fun notNothing notKeyboard notTouchpad => ?unknown⟩
  case nothing => rw [dispatchPacket_nothing (cls.trans (nothing.2 h))]
  case keyboard => rw [dispatchPacket_keyboard (cls.trans (keyboard.2 h))]
  case touchpad => rw [dispatchPacket_touchpad (cls.trans (touchpad.2 h))]
  case unknown =>
    rw [dispatchPacket_unknown (cls.trans ((unknown tag).2 ⟨rfl, notNothing, notKeyboard, notTouchpad⟩)), dropUnknown_eq]

end Sys2Proof.Machine
end

section
/-! Synchronous commands never overlap interrupt-driven traffic (45_system.md R283; 70_reset_and_hazards.md R350 (1)): the window in
which they start has none, and while they run none begins. -/

namespace Sys2Proof.Machine

/-- The event source is off and nothing asynchronous is pending or in flight: what `SyncExclusive` demands of a blocked host. -/
abbrev AsyncOff (s : State) : Prop :=
  s.initDone = false ∧ s.gpeArmed = false ∧ s.xport.rdPending = false ∧ s.xport.wrPending = false ∧ s.led.inflight = false

/-- The window of the blocking commands (40_transport.md R145). -/
theorem asyncOff_of_syncReady {s : State} (free : s.syncReady = true) : AsyncOff s := by
  obtain ⟨-, unarmed, undone, -, noRead, noWrite, noLed⟩ := (syncReady_iff s).1 free
  exact ⟨undone, unarmed, noRead, noWrite, noLed⟩

theorem SyncExclusive.of_ready {s : State} (ready : s.host = .ready) : SyncExclusive s := fun blocked => absurd ready blocked

section

variable {s t : State}

theorem SyncExclusive.of_same (hex : SyncExclusive s) (same : SameControl s t) : SyncExclusive t := by
  rw [SyncExclusive, same.host, same.initDone, same.gpeArmed, same.xport, same.led]
  exact hex

/-! ## The operations -/

/-- `INIT`'s loop blocks the host with both flags still 0, or sets them and lets it go. -/
theorem SyncExclusive.initFrom (off : AsyncOff s) (k : Nat) : SyncExclusive (initFrom k s) := by
  rcases initFrom_cases k s with ⟨p, -, e⟩ | ⟨-, e⟩ <;> rw [e]
  · exact fun _ => off
  · exact .of_ready rfl

/-- A trigger is lost while the event source is off. -/
theorem SyncExclusive.gpeTrigger (hex : SyncExclusive s) : SyncExclusive (gpeTrigger s) := by
  cases armed : s.gpeArmed with
  | false => rwa [gpeTrigger_lost armed]
  | true =>
    refine .of_ready ?_
    rw [gpeTrigger_latched armed]
    by_contra blocked
    obtain ⟨-, unarmed, -⟩ := hex blocked
    exact Bool.false_ne_true (unarmed.symm.trans armed)

/-- Before `INIT` is done a request is dropped, so it sends nothing while a command blocks. -/
theorem SyncExclusive.ledRequest (hex : SyncExclusive s) (on : Bool) : SyncExclusive (ledRequest on s) := by
  intro blocked
  rw [ledRequest_frame] at blocked
  obtain ⟨undone, -⟩ := hex blocked
  rw [ledRequest_dropped on undone]
  exact hex blocked

/-- Nor does the LED handler send anything then. -/
theorem SyncExclusive.ledComplete (hex : SyncExclusive s) (o : XferOutcome) : SyncExclusive (ledComplete o s) := by
  intro blocked
  rw [ledComplete_frame] at blocked
  obtain ⟨undone, unarmed, noRead, noWrite, -⟩ := hex blocked
  rw [ledComplete_settles o (.inr undone)]
  exact ⟨undone, unarmed, noRead, noWrite, rfl⟩

/-- An exchange that starts only takes its request away. -/
theorem SyncExclusive.transportStart (hex : SyncExclusive s) : SyncExclusive (transportStart s) := by
  have read : SyncExclusive (startRead s) := fun blocked =>
    have ⟨undone, unarmed, _, noWrite, noLed⟩ := hex blocked
    ⟨undone, unarmed, rfl, noWrite, noLed⟩
  have write : SyncExclusive (startWrite s) := fun blocked =>
    have ⟨undone, unarmed, noRead, _, noLed⟩ := hex blocked
    ⟨undone, unarmed, noRead, rfl, noLed⟩
  rcases transportStart_cases s with e | ⟨-, -, e | e⟩ | ⟨-, -, e | e⟩ <;> rw [e]
  · exact hex
  · exact read
  · exact read
  · exact write
  · exact write

theorem SyncExclusive.transportTransfer (hex : SyncExclusive s) : SyncExclusive (transportTransfer s) := by
  rw [transportTransfer_frame]
  exact hex

theorem SyncExclusive.completeExchange (hex : SyncExclusive s) : SyncExclusive (completeExchange s) := by
  obtain ⟨u, same, h⟩ := completeExchange_cases s
  have after : SyncExclusive u := hex.of_same same
  have freed : SyncExclusive (freeChannel u) := after
  rcases h with ⟨-, e⟩ | ⟨-, r, e⟩ | ⟨-, k, host, e⟩ | ⟨-, o, e⟩ <;> rw [e]
  · exact freed
  · exact .of_ready rfl
  · exact SyncExclusive.initFrom (s := freeChannel s) (hex (by simp [host])) (k + 1)
  · exact freed.ledComplete o

/-! ## The moves -/

/-- A meaning with two outcomes. -/
theorem SyncExclusive.of_ite {c : Prop} [Decidable c] {a b : State}
    (h : (if c then Host.Outcome.next a else .next b : Host.Outcome State Fault Refusal) = .next t) (ha : c → SyncExclusive a)
    (hb : SyncExclusive b) : SyncExclusive t := by
  split at h
  · cases h
    exact ha ‹_›
  · cases h
    exact hb

/-- Of the instructions only the agents' are claimed: `RDA`, `WTRA` and `LED_SEND` alone would break it (log entry 16). -/
theorem SyncExclusive.exec {i : Instr} (hex : SyncExclusive s) (agent : byAgent i = true) (h : exec i s = .next t) :
    SyncExclusive t := by
  cases i with
  | nop => cases h; exact hex
  | cfgLoad entries => cases h; rw [cfgLoad_frame]; exact hex
  | init => exact .of_ite h (fun free => .initFrom (asyncOff_of_syncReady free) 0) hex
  | shutdown =>
    cases h
    intro blocked
    obtain ⟨-, -, quiet⟩ := hex blocked
    exact ⟨rfl, rfl, quiet⟩
  | setTunables fnmode iso => exact .of_ite h (fun _ => hex) hex
  | setCal xMin xMax yMin yMax => cases h; exact hex
  | wtr tx => exact .of_ite h (fun free _ => asyncOff_of_syncReady (s := s) free) hex
  | rd => exact .of_ite h (fun free _ => asyncOff_of_syncReady (s := s) free) hex
  | ledRequest on => cases h; exact hex.ledRequest on
  | gpe => cases h; exact hex.gpeTrigger
  | tStart => cases h; exact hex.transportStart
  | tXfer => cases h; exact hex.transportTransfer
  | tComplete =>
    rcases execTComplete_next h with ⟨-, rfl⟩ | ⟨-, -, rfl⟩
    · exact hex
    · exact hex.completeExchange
  | _ => cases agent

theorem SyncExclusive.runReject {r : Reject} (hex : SyncExclusive s) (h : runReject r s = .next t) : SyncExclusive t := by
  rcases runReject_next h with ⟨op, -, rfl⟩ | ⟨tag, -, rfl⟩ | ⟨bs, -, rfl⟩
  · exact hex
  · exact hex.of_same (.dropUnknown tag s)
  · exact hex

end

/-- Settles O57: each agents' instruction keeps it, a rejected item changes none of the registers it speaks of, and after reset
nothing blocks. -/
theorem syncExclusiveKeptByAgents : Obligations.SyncExclusiveKeptByAgents := by
  intro s t m rest hex hs agent h
  obtain ⟨-, ⟨none, -⟩ | ⟨m', rest', hs', hm⟩⟩ := step_next h
  · exact absurd (hs.symm.trans none) (by simp)
  obtain ⟨rfl, rfl⟩ := List.cons.inj (hs.symm.trans hs')
  have taken : SyncExclusive { s with stim := rest } := hex
  rcases runStim_next hm with ⟨a, -, rfl⟩ | ⟨-, rfl⟩ | ⟨bs, -, -, -, rfl⟩ | ⟨p, bs, i, rfl, -, decoded, run⟩
    | ⟨p, bs, r, -, -, -, run⟩
  · exact hex
  · exact .of_ready rfl
  · exact hex
  · exact taken.exec (nextInstr_of_decode hs decoded ▸ byAgent_nextInstr hs agent) run
  · exact taken.runReject run

end Sys2Proof.Machine
end

section
/-! The error action (60_exceptions.md R300, R301) and what it makes true of every run: the sticky bits and the log tell of the same
errors (10_state.md R29). -/

namespace Sys2Proof.Machine

/-! ## The error action -/

/-- The sticky bits after an error: its own is set, and no other changes. -/
theorem raise_err_getLsbD (e : ErrRec) (s : State) (j : Fin 6) :
    (s.raise e).err.getLsbD j.val = (s.err.getLsbD j.val || decide (j = e.code)) := by
  rw [State.raise_err, BitVec.getLsbD_or, mask_getLsbD]
  simp only [eq_comm]

/-- Settles O7: the frame and the record are the action's definition, the bit is the mask's, and the codes are the table's. -/
theorem errorActionSetsBitAndLogs : Obligations.ErrorActionSetsBitAndLogs :=
  ⟨fun e s => ⟨State.raise_frame e s, raise_err_getLsbD e s⟩,
    fun _ => rfl, fun _ => rfl, fun _ => rfl, fun _ => rfl, fun _ => rfl, fun _ => rfl⟩

/-! ## Bits and records agree -/

/-- The records that a log gains account for the bits that `ERR` gains, so where the old ones agreed, all do. -/
theorem ErrLogged.of_logsErrors {s t : State} (logged : ErrLogged s) (grown : LogsErrors s t) : ErrLogged t := by
  obtain ⟨added, log, err⟩ := grown
  intro j
  calc t.err.getLsbD j.val = true
      ↔ s.err.getLsbD j.val = true ∨ ∃ e : ErrRec, LogRec.err e ∈ added ∧ e.code = j := err j
    _ ↔ (∃ e : ErrRec, LogRec.err e ∈ s.log ∧ e.code = j) ∨ ∃ e : ErrRec, LogRec.err e ∈ added ∧ e.code = j :=
        or_congr_left (logged j)
    _ ↔ ∃ e : ErrRec, LogRec.err e ∈ t.log ∧ e.code = j := by
        simp only [log, List.mem_append, or_and_right, exists_or]

/-- Settles O54: reset clears the bits and the log together, and every other step only adds to both. -/
theorem errLoggedKeptByStep : Obligations.ErrLoggedKeptByStep := by
  intro s t logged h
  cases hr : notReset s with
  | false =>
    obtain ⟨rest, rfl⟩ := step_reset hr h
    exact errLogged_reset
  | true =>
    obtain ⟨rest, effect⟩ := Effect.of_step hr h
    have taken : ErrLogged { s with stim := rest } := logged
    exact taken.of_logsErrors effect.grows.errors

end Sys2Proof.Machine
end

section
/-! The reset input (70_reset_and_hazards.md R340), and the moves at which an agent has no enabled step (R341, R354; 40_transport.md
R145). -/

namespace Sys2Proof.Machine

/-! ## The reset input -/

/-- The reset input leaves what is outside the block alone, and the table of 10_state.md R50 speaks of nothing outside the block. -/
theorem afterReset_assertReset (s : State) : AfterReset s.assertReset := by
  have table : AfterReset State.reset := resetGivesTheTable
  exact table

/-- The reset input is taken in every phase and whether the host is blocked or not. -/
theorem step_resetInput {s : State} {rest : List Stim} (wf : paramsWf s.par = true) (next : s.stim = .reset :: rest) :
    step s = .next { s with stim := rest }.assertReset :=
  step_cons wf next

/-- Settles O2: the step is the reset action, which frees the host with the rest of the block. -/
theorem resetInputRestoresTheTable : Obligations.ResetInputRestoresTheTable :=
  fun s rest wf next =>
    ⟨{ s with stim := rest }.assertReset, step_resetInput wf next, afterReset_assertReset _, rfl, rfl, rfl, rfl⟩

/-! ## No enabled step -/

theorem step_nil {s : State} (wf : paramsWf s.par = true) (noMove : s.stim = []) : step s = .next s := by
  unfold step
  rw [if_pos wf, noMove]

/-- A device answer joins the end of the queue, in any phase. -/
theorem step_dev {s : State} {a : DevAnswer} {rest : List Stim} (wf : paramsWf s.par = true) (next : s.stim = .dev a :: rest) :
    step s = .next { s with stim := rest, dev := s.dev ++ [a] } :=
  step_cons wf next

/-- A blocked host's port is closed to every word but the sink's (45_system.md R280; `portClosed_host_false` is the converse). -/
theorem portClosed_host_true {bs : List Byte} {s : State} (blocked : s.host ≠ .ready) (notSink : byteAt bs 0 ≠ 0x50) :
    portClosed .host bs s = true := by
  have other : fromSink bs = false := beq_false_of_ne notSink
  simp [portClosed, blocked, other]

theorem runItem_closed {p : Port} {bs : List Byte} {s : State} (closed : portClosed p bs s = true) :
    runItem p bs s = .next s :=
  if_pos closed

/-- Closing a port reads the host register alone, which taking the move from the schedule leaves as it is. -/
theorem step_blockedHost {s : State} {bs : List Byte} {rest : List Stim} (wf : paramsWf s.par = true)
    (next : s.stim = .item .host bs :: rest) (blocked : s.host ≠ .ready) (notSink : byteAt bs 0 ≠ 0x50) :
    step s = .next { s with stim := rest } := by
  have closed : portClosed .host bs { s with stim := rest } = true := portClosed_host_true blocked notSink
  calc step s
      = runItem .host bs { s with stim := rest } := step_cons wf next
    _ = .next { s with stim := rest } := runItem_closed closed

/-- The completion agent has no step before the transfers are over (log entry 2). -/
theorem exec_tComplete_waits {s : State} (notDue : s.xport.tstate ≠ .complete) : exec .tComplete s = .next s :=
  if_pos notDue

/-- Settles O4, agent by agent: the schedule, the device, the blocked host, the transfers, the completion. -/
theorem waitingChangesNothing : Obligations.WaitingChangesNothing := by
  refine ⟨fun s wf noMove => step_nil wf noMove, fun s a rest wf next => step_dev wf next,
    fun s bs rest wf next blocked notSink => step_blockedHost wf next blocked notSink, ?transferUnanswered, ?transferNotDue,
    fun s notDue => exec_tComplete_waits notDue⟩
  case transferUnanswered =>
    intro s noAnswer notArm
    exact exec_tXfer (transportTransfer_waits (.inr (.inr ⟨noAnswer, notArm⟩)))
  case transferNotDue =>
    intro s notDue
    exact exec_tXfer (transportTransfer_waits (notDue.imp_right .inl))

end Sys2Proof.Machine
end
